-- ==== Sys2Proof/Word.lean ====
section
/-! DEFINITION. The widths XLEN and FLEN (00_scope.md R8) and the types over them: the addressable byte (20_memory.md R50),
the word of an integer register, an address operand and an immediate, and the pattern of a float register. -/

namespace Sys2Proof

/-- The addressable unit: "the addressable unit is the 8-bit byte" (20_memory.md R50). -/
abbrev Byte := BitVec 8

/-- XLEN = 32, the "width of an integer register, an address operand, an immediate" (00_scope.md R8). -/
@[simp] abbrev Config.xlen : Nat := 32

/-- FLEN = 32, the "width of a float register" (00_scope.md R8). -/
@[simp] abbrev Config.flen : Nat := 32

/-- A value of XLEN bits, unsigned (00_scope.md R10). -/
abbrev Word := BitVec Config.xlen

/-- A pattern of FLEN bits, "a 32-bit pattern" that only the float rules read as a number (10_state.md R33). -/
abbrev FloatPattern := BitVec Config.flen

end Sys2Proof
end

