-- ==== Sys2Proof/Config.lean ====
section
/-! DEFINITION. What shapes the machine's types (register counts), the fault kinds, the form of the `FloatOps`
parameter, and the one free value the spec leaves open. The widths XLEN and FLEN stand in Sys2Proof/Word.lean, the other
numbers of 00_scope.md R8 in Sys2Proof/Machine/Parameters.lean, the opcode map in Sys2Proof/Decode.lean. -/

namespace Sys2Proof

/-- NUM_X: sixteen integer registers (00_scope.md R8, 10_state.md R20). -/
@[simp] abbrev Config.numX : Nat := 16

/-- NUM_F: sixteen float registers (00_scope.md R8, 10_state.md R33). -/
@[simp] abbrev Config.numF : Nat := 16

/-- An id of the integer file `x`. The Decoder rejects ids of 16 and more (10_state.md R22). -/
abbrev XReg := Fin Config.numX

/-- An id of the float file `f`, "mirrored identically" with no reserved roles (10_state.md R33). -/
abbrev FReg := Fin Config.numF

/-- The fault kinds of 60_exceptions.md R251. `fault_cause` holds one of them or nothing (`None`). -/
inductive FaultKind
  /-- The byte at `pc0` names no instruction (R112). -/
  | invalidOpcode
  /-- A register-id operand is 16 or more (R115). -/
  | invalidRegisterId
  /-- An address operand, or the target of a register-indirect jump, is MEMORY_SIZE or more (R116, R231). -/
  | invalidAddress
  /-- An operand field would extend past the last address (R113). -/
  | truncatedInstruction
  /-- Returned to the host by `load_program`; never held by `fault_cause` (R260). -/
  | programTooLarge
  /-- A push with `sp` at the lower bound; the source's reversed name (R140). -/
  | stackUnderflow
  /-- A pop with `sp` at or above the upper bound; the source's reversed name (R141). -/
  | stackOverflow
  /-- DIV or DIV_IMMEDIATE with divisor 0 (R174, R178). -/
  | divisionByZero
  /-- A data access past the end of memory (R54, R55). -/
  | outOfBounds
deriving DecidableEq, Repr

/-- The four operations of `FloatOps` (45_float_arithmetic.md R200). -/
inductive FloatOp
  | add | sub | mul | div
deriving DecidableEq, Repr

/-- The result of a float operation: a pattern, or a quiet NaN whose sign and remaining fraction bits are "not
specified: a model treats them as a free draw" (45_float_arithmetic.md R202). -/
inductive FloatResult
  | pattern (v : FloatPattern)
  | nan
deriving DecidableEq, Repr

/-- The `FloatOps` parameter (45_float_arithmetic.md R200): four operations and two predicates on patterns. The value
this hardware takes for it is `Sys2Proof.Machine.floatOps`. -/
structure FloatOps where
  fadd : FloatPattern → FloatPattern → FloatResult
  fsub : FloatPattern → FloatPattern → FloatResult
  fmul : FloatPattern → FloatPattern → FloatResult
  fdiv : FloatPattern → FloatPattern → FloatResult
  feq : FloatPattern → FloatPattern → Bool
  fgt : FloatPattern → FloatPattern → Bool

/-- FREE VALUE, log entry 3: the sign (bit 22) and the 22 low fraction bits (bits 21:0) of a NaN result, "2^23 possible
patterns" (45_float_arithmetic.md R202, 93_implementation_defined.md U12). It has no body, so nothing can be proved of
its value; it is applied to the operation, the operands and the number of the draw. -/
opaque Config.nanBits (op : FloatOp) (a b : FloatPattern) (draw : Nat) : BitVec 23

end Sys2Proof
end

