-- ==== Sys2Proof/Machine/Parameters.lean ====
section
/-! DEFINITION. The named parameters of 00_scope.md R8 that are numbers, kept here one by one "so that a claim can name
them" (R8, R9): memory size, stack geometry, reserved register ids, flag positions, fault codes. -/

namespace Sys2Proof

/-- MEMORY_SIZE = 65536 bytes (00_scope.md R8). -/
@[simp] abbrev Config.memorySize : Nat := 65536

/-- STACK_TOP = 0x8000, the stack's upper boundary and the initial sp (00_scope.md R8). -/
@[simp] abbrev Config.stackTop : Nat := 0x8000

/-- STACK_BOTTOM = 0, the stack's lower bound (00_scope.md R8). -/
@[simp] abbrev Config.stackBottom : Nat := 0

/-- STACK_SLOT = 4 bytes per push or pop (00_scope.md R8). -/
@[simp] abbrev Config.stackSlot : Nat := 4

/-- The narrowest data access, one byte (00_scope.md R9, 20_memory.md R61). -/
@[simp] abbrev Config.byteWidth : Nat := 1

/-- The data access of two bytes, a half-word (00_scope.md R9, 20_memory.md R61). -/
@[simp] abbrev Config.halfWordWidth : Nat := 2

/-- The data access of four bytes, a word or a float pattern (00_scope.md R9, 20_memory.md R61). -/
@[simp] abbrev Config.wordWidth : Nat := 4

/-- The bytes of a register-id field (00_scope.md R9, 30_encoding.md R83). -/
@[simp] abbrev Config.registerIdWidth : Nat := 1

/-- The bytes of a memory-address field (00_scope.md R9, 30_encoding.md R84). -/
@[simp] abbrev Config.addressWidth : Nat := 4

/-- The bytes of an integer immediate field (00_scope.md R9, 30_encoding.md R85). -/
@[simp] abbrev Config.integerImmediateWidth : Nat := 4

/-- The bytes of a float immediate field (00_scope.md R9, 30_encoding.md R85). -/
@[simp] abbrev Config.floatImmediateWidth : Nat := 4

/-- The address 0 at which execution begins and programs are loaded (00_scope.md R9, 70_reset_and_hazards.md R282). -/
@[simp] abbrev Config.entryAddress : Nat := 0

/-- SP_ID = 12 (00_scope.md R8, 10_state.md R21). -/
abbrev Config.spId : XReg := 12

/-- PC_ID = 13 (00_scope.md R8, 10_state.md R21). -/
abbrev Config.pcId : XReg := 13

/-- FLAGS_ID = 14 (00_scope.md R8, 10_state.md R21). -/
abbrev Config.flagsId : XReg := 14

/-- The reserved id 15, an ordinary register as an operand (00_scope.md R8, 10_state.md R24). -/
abbrev Config.reservedId : XReg := 15

/-- ZERO is bit 0 of the flags word (10_state.md R30). -/
@[simp] abbrev Config.zeroBit : Nat := 0

/-- SIGN is bit 1 of the flags word (10_state.md R30). -/
@[simp] abbrev Config.signBit : Nat := 1

/-- OVERFLOW is bit 2 of the flags word (10_state.md R30). -/
@[simp] abbrev Config.overflowBit : Nat := 2

/-- CARRY is bit 3 of the flags word; no instruction reads or writes it (10_state.md R30, R32). -/
@[simp] abbrev Config.carryBit : Nat := 3

/-- The numeric cause codes of 60_exceptions.md R251; `none` is `None`, code 0. -/
def Config.faultCode : Option FaultKind → Nat
  | none => 0
  | some .invalidOpcode => 1
  | some .invalidRegisterId => 2
  | some .invalidAddress => 3
  | some .truncatedInstruction => 4
  | some .programTooLarge => 5
  | some .stackUnderflow => 6
  | some .stackOverflow => 7
  | some .divisionByZero => 8
  | some .outOfBounds => 9

end Sys2Proof
end

