-- ==== Sys2Proof/Syntax.lean ====
section
/-! DEFINITION. The instructions: one constructor per row of spec/opcode_table.json (30_encoding.md R86), with decoded
operands. A register id is below NUM_X or NUM_F by its type; an address operand is the 32-bit field, whose range check stands in
Sys2Proof/WellFormed.lean. -/

namespace Sys2Proof

/-- What an immediate field holds, "int or float per opcode" (30_encoding.md R81, R85). -/
inductive Immediate
  | integer | float
deriving DecidableEq, Repr

/-- The eight operand shapes of 30_encoding.md R81; the two with an immediate field say what it holds. -/
inductive Format
  | n | r | rr | rrr | a | ra
  | ri (imm : Immediate)
  | rir (imm : Immediate)
deriving DecidableEq, Repr

/-- The 48 operation selectors of 30_encoding.md R86, in the order of their numbers. -/
inductive Opcode
  | nop | halt | push | pop | pushFloat | popFloat | load | store | loadByte | storeByte | loadHalfWord
  | storeHalfWord | loadFloat | storeFloat | loadImmediate | loadImmediateFloat | add | sub | mul | div | shl
  | shr | addFloat | subFloat | mulFloat | divFloat | addImmediate | subImmediate | mulImmediate
  | divImmediate | shlImmediate | shrImmediate | addFloatImmediate | subFloatImmediate | mulFloatImmediate
  | divFloatImmediate | jump | jumpZero | jumpEqual | jumpLessThan | jumpGreaterThan | jumpRegister
  | jumpRegisterZero | jumpRegisterEqual | jumpRegisterLessThan | jumpRegisterGreaterThan | compare
  | compareFloat
deriving DecidableEq, Repr

/-- The instructions of 30_encoding.md R86, each with its operands in the order of its fields (R81). -/
inductive Instr
  /-- NOP, 40_fetch_decode_dispatch.md R125. -/
  | nop
  /-- HALT, 40_fetch_decode_dispatch.md R126. -/
  | halt
  /-- PUSH, 41_stack.md R143. -/
  | push (reg : XReg)
  /-- POP, 41_stack.md R144. -/
  | pop (reg : XReg)
  /-- PUSH_FLOAT, 41_stack.md R145. -/
  | pushFloat (reg : FReg)
  /-- POP_FLOAT, 41_stack.md R146. -/
  | popFloat (reg : FReg)
  /-- LOAD, 42_data_movement.md R151. -/
  | load (reg : XReg) (addr : Word)
  /-- STORE, 42_data_movement.md R152. -/
  | store (reg : XReg) (addr : Word)
  /-- LOAD_BYTE, 42_data_movement.md R153. -/
  | loadByte (reg : XReg) (addr : Word)
  /-- STORE_BYTE, 42_data_movement.md R154. -/
  | storeByte (reg : XReg) (addr : Word)
  /-- LOAD_HALF_WORD, 42_data_movement.md R155. -/
  | loadHalfWord (reg : XReg) (addr : Word)
  /-- STORE_HALF_WORD, 42_data_movement.md R156. -/
  | storeHalfWord (reg : XReg) (addr : Word)
  /-- LOAD_FLOAT, 42_data_movement.md R157. -/
  | loadFloat (reg : FReg) (addr : Word)
  /-- STORE_FLOAT, 42_data_movement.md R158. -/
  | storeFloat (reg : FReg) (addr : Word)
  /-- LOAD_IMMEDIATE, 42_data_movement.md R159. -/
  | loadImmediate (reg : XReg) (imm : Word)
  /-- LOAD_IMMEDIATE_FLOAT, 42_data_movement.md R160. -/
  | loadImmediateFloat (reg : FReg) (imm : FloatPattern)
  /-- ADD, 43_integer_arithmetic.md R171. -/
  | add (src1 src2 dst : XReg)
  /-- SUB, 43_integer_arithmetic.md R172. -/
  | sub (src1 src2 dst : XReg)
  /-- MUL, 43_integer_arithmetic.md R173. -/
  | mul (src1 src2 dst : XReg)
  /-- DIV, 43_integer_arithmetic.md R174. -/
  | div (src1 src2 dst : XReg)
  /-- SHL, 44_shift.md R191. -/
  | shl (src1 src2 dst : XReg)
  /-- SHR, 44_shift.md R192. -/
  | shr (src1 src2 dst : XReg)
  /-- ADD_FLOAT, 45_float_arithmetic.md R204. -/
  | addFloat (src1 src2 dst : FReg)
  /-- SUB_FLOAT, 45_float_arithmetic.md R205. -/
  | subFloat (src1 src2 dst : FReg)
  /-- MUL_FLOAT, 45_float_arithmetic.md R206. -/
  | mulFloat (src1 src2 dst : FReg)
  /-- DIV_FLOAT, 45_float_arithmetic.md R207. -/
  | divFloat (src1 src2 dst : FReg)
  /-- ADD_IMMEDIATE, 43_integer_arithmetic.md R175. -/
  | addImmediate (src : XReg) (imm : Word) (dst : XReg)
  /-- SUB_IMMEDIATE, 43_integer_arithmetic.md R176. -/
  | subImmediate (src : XReg) (imm : Word) (dst : XReg)
  /-- MUL_IMMEDIATE, 43_integer_arithmetic.md R177. -/
  | mulImmediate (src : XReg) (imm : Word) (dst : XReg)
  /-- DIV_IMMEDIATE, 43_integer_arithmetic.md R178. -/
  | divImmediate (src : XReg) (imm : Word) (dst : XReg)
  /-- SHL_IMMEDIATE, 44_shift.md R193. -/
  | shlImmediate (src : XReg) (imm : Word) (dst : XReg)
  /-- SHR_IMMEDIATE, 44_shift.md R194. -/
  | shrImmediate (src : XReg) (imm : Word) (dst : XReg)
  /-- ADD_FLOAT_IMMEDIATE, 45_float_arithmetic.md R208. -/
  | addFloatImmediate (src : FReg) (imm : FloatPattern) (dst : FReg)
  /-- SUB_FLOAT_IMMEDIATE, 45_float_arithmetic.md R209. -/
  | subFloatImmediate (src : FReg) (imm : FloatPattern) (dst : FReg)
  /-- MUL_FLOAT_IMMEDIATE, 45_float_arithmetic.md R210. -/
  | mulFloatImmediate (src : FReg) (imm : FloatPattern) (dst : FReg)
  /-- DIV_FLOAT_IMMEDIATE, 45_float_arithmetic.md R211. -/
  | divFloatImmediate (src : FReg) (imm : FloatPattern) (dst : FReg)
  /-- JUMP, 47_jumps.md R232. -/
  | jump (addr : Word)
  /-- JUMP_ZERO, 47_jumps.md R233. -/
  | jumpZero (addr : Word)
  /-- JUMP_EQUAL, 47_jumps.md R234. -/
  | jumpEqual (addr : Word)
  /-- JUMP_LESS_THAN, 47_jumps.md R235. -/
  | jumpLessThan (addr : Word)
  /-- JUMP_GREATER_THAN, 47_jumps.md R236. -/
  | jumpGreaterThan (addr : Word)
  /-- JUMP_REGISTER, 47_jumps.md R237. -/
  | jumpRegister (reg : XReg)
  /-- JUMP_REGISTER_ZERO, 47_jumps.md R238. -/
  | jumpRegisterZero (reg : XReg)
  /-- JUMP_REGISTER_EQUAL, 47_jumps.md R239. -/
  | jumpRegisterEqual (reg : XReg)
  /-- JUMP_REGISTER_LESS_THAN, 47_jumps.md R240. -/
  | jumpRegisterLessThan (reg : XReg)
  /-- JUMP_REGISTER_GREATER_THAN, 47_jumps.md R241. -/
  | jumpRegisterGreaterThan (reg : XReg)
  /-- COMPARE, 46_compare.md R220. -/
  | compare (reg1 reg2 : XReg)
  /-- COMPARE_FLOAT, 46_compare.md R221. -/
  | compareFloat (reg1 reg2 : FReg)
deriving DecidableEq, Repr

/-- The operation selector of an instruction. -/
def Instr.opcode : Instr → Opcode
  | .nop => .nop
  | .halt => .halt
  | .push _ => .push
  | .pop _ => .pop
  | .pushFloat _ => .pushFloat
  | .popFloat _ => .popFloat
  | .load _ _ => .load
  | .store _ _ => .store
  | .loadByte _ _ => .loadByte
  | .storeByte _ _ => .storeByte
  | .loadHalfWord _ _ => .loadHalfWord
  | .storeHalfWord _ _ => .storeHalfWord
  | .loadFloat _ _ => .loadFloat
  | .storeFloat _ _ => .storeFloat
  | .loadImmediate _ _ => .loadImmediate
  | .loadImmediateFloat _ _ => .loadImmediateFloat
  | .add _ _ _ => .add
  | .sub _ _ _ => .sub
  | .mul _ _ _ => .mul
  | .div _ _ _ => .div
  | .shl _ _ _ => .shl
  | .shr _ _ _ => .shr
  | .addFloat _ _ _ => .addFloat
  | .subFloat _ _ _ => .subFloat
  | .mulFloat _ _ _ => .mulFloat
  | .divFloat _ _ _ => .divFloat
  | .addImmediate _ _ _ => .addImmediate
  | .subImmediate _ _ _ => .subImmediate
  | .mulImmediate _ _ _ => .mulImmediate
  | .divImmediate _ _ _ => .divImmediate
  | .shlImmediate _ _ _ => .shlImmediate
  | .shrImmediate _ _ _ => .shrImmediate
  | .addFloatImmediate _ _ _ => .addFloatImmediate
  | .subFloatImmediate _ _ _ => .subFloatImmediate
  | .mulFloatImmediate _ _ _ => .mulFloatImmediate
  | .divFloatImmediate _ _ _ => .divFloatImmediate
  | .jump _ => .jump
  | .jumpZero _ => .jumpZero
  | .jumpEqual _ => .jumpEqual
  | .jumpLessThan _ => .jumpLessThan
  | .jumpGreaterThan _ => .jumpGreaterThan
  | .jumpRegister _ => .jumpRegister
  | .jumpRegisterZero _ => .jumpRegisterZero
  | .jumpRegisterEqual _ => .jumpRegisterEqual
  | .jumpRegisterLessThan _ => .jumpRegisterLessThan
  | .jumpRegisterGreaterThan _ => .jumpRegisterGreaterThan
  | .compare _ _ => .compare
  | .compareFloat _ _ => .compareFloat

end Sys2Proof
end

