-- ==== Sys2Proof/Decode.lean ====
section
/-! DEFINITION. The opcode map, the Decoder as a total function on bytes, and the encoder written from the same tables
(30_encoding.md R80 to R90, 40_fetch_decode_dispatch.md R112 to R120). The little-endian helpers of 20_memory.md R57
stand here too, since instruction fetch and data access use the same order. -/

namespace Sys2Proof

/-! ## Byte order (20_memory.md R57) -/

/-- The value of bytes at ascending addresses: "the byte at the lowest address is the least significant" (R57). -/
def leValue : List Byte → Nat
  | [] => 0
  | b :: bs => b.toNat + 256 * leValue bs

/-- The `n` low bytes of a value, at ascending addresses (R57). -/
def leBytes : Nat → Nat → List Byte
  | 0, _ => []
  | n + 1, v => BitVec.ofNat 8 v :: leBytes n (v / 256)

/-! ## The opcode map (30_encoding.md R86) -/

/-- The opcode byte of each instruction: the parameter OPCODE_MAP of R86 and R88, the only place a number stands. -/
def Opcode.number : Opcode → Nat
  | .nop => 0x00
  | .halt => 0x01
  | .push => 0x02
  | .pop => 0x03
  | .pushFloat => 0x04
  | .popFloat => 0x05
  | .load => 0x06
  | .store => 0x07
  | .loadByte => 0x08
  | .storeByte => 0x09
  | .loadHalfWord => 0x0A
  | .storeHalfWord => 0x0B
  | .loadFloat => 0x0C
  | .storeFloat => 0x0D
  | .loadImmediate => 0x0E
  | .loadImmediateFloat => 0x0F
  | .add => 0x10
  | .sub => 0x11
  | .mul => 0x12
  | .div => 0x13
  | .shl => 0x14
  | .shr => 0x15
  | .addFloat => 0x16
  | .subFloat => 0x17
  | .mulFloat => 0x18
  | .divFloat => 0x19
  | .addImmediate => 0x1A
  | .subImmediate => 0x1B
  | .mulImmediate => 0x1C
  | .divImmediate => 0x1D
  | .shlImmediate => 0x1E
  | .shrImmediate => 0x1F
  | .addFloatImmediate => 0x20
  | .subFloatImmediate => 0x21
  | .mulFloatImmediate => 0x22
  | .divFloatImmediate => 0x23
  | .jump => 0x24
  | .jumpZero => 0x25
  | .jumpEqual => 0x26
  | .jumpLessThan => 0x27
  | .jumpGreaterThan => 0x28
  | .jumpRegister => 0x29
  | .jumpRegisterZero => 0x2A
  | .jumpRegisterEqual => 0x2B
  | .jumpRegisterLessThan => 0x2C
  | .jumpRegisterGreaterThan => 0x2D
  | .compare => 0x2E
  | .compareFloat => 0x2F

/-- The format of each instruction, column "format" of R86. -/
def Opcode.format : Opcode → Format
  | .nop => .n
  | .halt => .n
  | .push => .r
  | .pop => .r
  | .pushFloat => .r
  | .popFloat => .r
  | .load => .ra
  | .store => .ra
  | .loadByte => .ra
  | .storeByte => .ra
  | .loadHalfWord => .ra
  | .storeHalfWord => .ra
  | .loadFloat => .ra
  | .storeFloat => .ra
  | .loadImmediate => .ri .integer
  | .loadImmediateFloat => .ri .float
  | .add => .rrr
  | .sub => .rrr
  | .mul => .rrr
  | .div => .rrr
  | .shl => .rrr
  | .shr => .rrr
  | .addFloat => .rrr
  | .subFloat => .rrr
  | .mulFloat => .rrr
  | .divFloat => .rrr
  | .addImmediate => .rir .integer
  | .subImmediate => .rir .integer
  | .mulImmediate => .rir .integer
  | .divImmediate => .rir .integer
  | .shlImmediate => .rir .integer
  | .shrImmediate => .rir .integer
  | .addFloatImmediate => .rir .float
  | .subFloatImmediate => .rir .float
  | .mulFloatImmediate => .rir .float
  | .divFloatImmediate => .rir .float
  | .jump => .a
  | .jumpZero => .a
  | .jumpEqual => .a
  | .jumpLessThan => .a
  | .jumpGreaterThan => .a
  | .jumpRegister => .r
  | .jumpRegisterZero => .r
  | .jumpRegisterEqual => .r
  | .jumpRegisterLessThan => .r
  | .jumpRegisterGreaterThan => .r
  | .compare => .rr
  | .compareFloat => .rr

/-- The length in bytes of an immediate field (R85). -/
def Immediate.width : Immediate → Nat
  | .integer => Config.integerImmediateWidth
  | .float => Config.floatImmediateWidth

/-- The length in bytes of each format, "1 plus the sum of the field widths" (30_encoding.md R82), the fields those of R81;
the 1 is the opcode byte. -/
def Format.length : Format → Nat
  | .n => 1
  | .r => 1 + Config.registerIdWidth
  | .rr => 1 + 2 * Config.registerIdWidth
  | .rrr => 1 + 3 * Config.registerIdWidth
  | .a => 1 + Config.addressWidth
  | .ra => 1 + Config.registerIdWidth + Config.addressWidth
  | .ri imm => 1 + Config.registerIdWidth + imm.width
  | .rir imm => 1 + 2 * Config.registerIdWidth + imm.width

/-- The formats of 30_encoding.md R81. -/
def Format.all : List Format :=
  [.n, .r, .rr, .rrr, .a, .ra, .ri .integer, .ri .float, .rir .integer, .rir .float]

/-- The length of the longest instruction, 7 (30_encoding.md R92). -/
def maxLength : Nat := (Format.all.map Format.length).foldr max 0

/-- All 48 operation selectors (30_encoding.md R86). -/
def Opcode.all : List Opcode :=
  [.nop, .halt, .push, .pop, .pushFloat, .popFloat, .load, .store, .loadByte, .storeByte, .loadHalfWord,
   .storeHalfWord, .loadFloat, .storeFloat, .loadImmediate, .loadImmediateFloat, .add, .sub, .mul, .div,
   .shl, .shr, .addFloat, .subFloat, .mulFloat, .divFloat, .addImmediate, .subImmediate, .mulImmediate,
   .divImmediate, .shlImmediate, .shrImmediate, .addFloatImmediate, .subFloatImmediate, .mulFloatImmediate,
   .divFloatImmediate, .jump, .jumpZero, .jumpEqual, .jumpLessThan, .jumpGreaterThan, .jumpRegister,
   .jumpRegisterZero, .jumpRegisterEqual, .jumpRegisterLessThan, .jumpRegisterGreaterThan, .compare,
   .compareFloat]

/-- The operation a byte names, matched whole (mask 0xFF, R86); `none` for 0x30 .. 0xFF (R89, R112). -/
def Opcode.ofByte (b : Byte) : Option Opcode :=
  Opcode.all.find? fun o => o.number == b.toNat

/-! ## Operand fields (30_encoding.md R83 to R85, 40_fetch_decode_dispatch.md R113 to R116)

Each reader takes the bytes that are left between the cursor and the end of memory; running out of them is
`TruncatedInstruction` (R113), and a field is validated as soon as it is read (R114). -/

/-- The little-endian value of a field of `n` bytes (R81), or its truncation (R113). -/
def takeField (n : Nat) (bs : List Byte) : Except FaultKind (Nat × List Byte) :=
  if bs.length < n then .error .truncatedInstruction else .ok (leValue (bs.take n), bs.drop n)

/-- A register-id field of a file of `n` registers, legal below `n`: NUM_X or NUM_F, as the opcode's file is (R83, R115). -/
def takeReg (n : Nat) (bs : List Byte) : Except FaultKind (Fin n × List Byte) :=
  match takeField Config.registerIdWidth bs with
  | .error k => .error k
  | .ok (v, rest) => if h : v < n then .ok (⟨v, h⟩, rest) else .error .invalidRegisterId

/-- An immediate field, always legal (R85). -/
def takeImmediate (w : Nat) (imm : Immediate) (bs : List Byte) : Except FaultKind (BitVec w × List Byte) :=
  match takeField imm.width bs with
  | .error k => .error k
  | .ok (v, rest) => .ok (BitVec.ofNat w v, rest)

/-- A memory-address field, legal below MEMORY_SIZE (R84, R116). -/
def takeAddr (bs : List Byte) : Except FaultKind (Word × List Byte) :=
  match takeField Config.addressWidth bs with
  | .error k => .error k
  | .ok (v, rest) => if v < Config.memorySize then .ok (BitVec.ofNat Config.xlen v, rest) else .error .invalidAddress

/-! ## The formats (30_encoding.md R81), fields in stream order (R114)

The constructor `mk` says which register file each register-id field selects, column "file" of R86. -/

/-- Format R: `reg`. -/
def decodeR {n : Nat} (mk : Fin n → Instr) (bs : List Byte) : Except FaultKind (Instr × List Byte) :=
  match takeReg n bs with
  | .error k => .error k
  | .ok (r, rest) => .ok (mk r, rest)

/-- Format RR: `reg1`, `reg2`. -/
def decodeRR {n : Nat} (mk : Fin n → Fin n → Instr) (bs : List Byte) : Except FaultKind (Instr × List Byte) :=
  match takeReg n bs with
  | .error k => .error k
  | .ok (r1, rest) => decodeR (mk r1) rest

/-- Format RRR: `src1`, `src2`, `dst`. -/
def decodeRRR {n : Nat} (mk : Fin n → Fin n → Fin n → Instr) (bs : List Byte) : Except FaultKind (Instr × List Byte) :=
  match takeReg n bs with
  | .error k => .error k
  | .ok (r1, rest) => decodeRR (mk r1) rest

/-- Format A: `addr`. -/
def decodeA (mk : Word → Instr) (bs : List Byte) : Except FaultKind (Instr × List Byte) :=
  match takeAddr bs with
  | .error k => .error k
  | .ok (a, rest) => .ok (mk a, rest)

/-- Format RA: `reg`, `addr`. -/
def decodeRA {n : Nat} (mk : Fin n → Word → Instr) (bs : List Byte) : Except FaultKind (Instr × List Byte) :=
  match takeReg n bs with
  | .error k => .error k
  | .ok (r, rest) => decodeA (mk r) rest

/-- Format RI: `reg`, `imm`. -/
def decodeRI {n w : Nat} (imm : Immediate) (mk : Fin n → BitVec w → Instr) (bs : List Byte) :
    Except FaultKind (Instr × List Byte) :=
  match takeReg n bs with
  | .error k => .error k
  | .ok (r, rest) =>
    match takeImmediate w imm rest with
    | .error k => .error k
    | .ok (v, rest') => .ok (mk r v, rest')

/-- Format RIR: `src`, `imm`, `dst`. -/
def decodeRIR {n w : Nat} (imm : Immediate) (mk : Fin n → BitVec w → Fin n → Instr) (bs : List Byte) :
    Except FaultKind (Instr × List Byte) :=
  match takeReg n bs with
  | .error k => .error k
  | .ok (r, rest) =>
    match takeImmediate w imm rest with
    | .error k => .error k
    | .ok (v, rest') => decodeR (mk r v) rest'

/-- The operands of a known opcode, by its format (30_encoding.md R86). -/
def decodeOperands (o : Opcode) (bs : List Byte) : Except FaultKind (Instr × List Byte) :=
  match o with
  | .nop => .ok (.nop, bs)
  | .halt => .ok (.halt, bs)
  | .push => decodeR .push bs
  | .pop => decodeR .pop bs
  | .pushFloat => decodeR .pushFloat bs
  | .popFloat => decodeR .popFloat bs
  | .load => decodeRA .load bs
  | .store => decodeRA .store bs
  | .loadByte => decodeRA .loadByte bs
  | .storeByte => decodeRA .storeByte bs
  | .loadHalfWord => decodeRA .loadHalfWord bs
  | .storeHalfWord => decodeRA .storeHalfWord bs
  | .loadFloat => decodeRA .loadFloat bs
  | .storeFloat => decodeRA .storeFloat bs
  | .loadImmediate => decodeRI .integer .loadImmediate bs
  | .loadImmediateFloat => decodeRI .float .loadImmediateFloat bs
  | .add => decodeRRR .add bs
  | .sub => decodeRRR .sub bs
  | .mul => decodeRRR .mul bs
  | .div => decodeRRR .div bs
  | .shl => decodeRRR .shl bs
  | .shr => decodeRRR .shr bs
  | .addFloat => decodeRRR .addFloat bs
  | .subFloat => decodeRRR .subFloat bs
  | .mulFloat => decodeRRR .mulFloat bs
  | .divFloat => decodeRRR .divFloat bs
  | .addImmediate => decodeRIR .integer .addImmediate bs
  | .subImmediate => decodeRIR .integer .subImmediate bs
  | .mulImmediate => decodeRIR .integer .mulImmediate bs
  | .divImmediate => decodeRIR .integer .divImmediate bs
  | .shlImmediate => decodeRIR .integer .shlImmediate bs
  | .shrImmediate => decodeRIR .integer .shrImmediate bs
  | .addFloatImmediate => decodeRIR .float .addFloatImmediate bs
  | .subFloatImmediate => decodeRIR .float .subFloatImmediate bs
  | .mulFloatImmediate => decodeRIR .float .mulFloatImmediate bs
  | .divFloatImmediate => decodeRIR .float .divFloatImmediate bs
  | .jump => decodeA .jump bs
  | .jumpZero => decodeA .jumpZero bs
  | .jumpEqual => decodeA .jumpEqual bs
  | .jumpLessThan => decodeA .jumpLessThan bs
  | .jumpGreaterThan => decodeA .jumpGreaterThan bs
  | .jumpRegister => decodeR .jumpRegister bs
  | .jumpRegisterZero => decodeR .jumpRegisterZero bs
  | .jumpRegisterEqual => decodeR .jumpRegisterEqual bs
  | .jumpRegisterLessThan => decodeR .jumpRegisterLessThan bs
  | .jumpRegisterGreaterThan => decodeR .jumpRegisterGreaterThan bs
  | .compare => decodeRR .compare bs
  | .compareFloat => decodeRR .compareFloat bs

/-- The Decoder (40_fetch_decode_dispatch.md R110, R120) on the bytes from the program counter to the end of memory:
the instruction and the bytes after it, or the fault of the first offending check (R112 to R116, R118). It is total on
any bytes. -/
def decode : List Byte → Except FaultKind (Instr × List Byte)
  | [] => .error .truncatedInstruction
  | b :: bs =>
    match Opcode.ofByte b with
    | none => .error .invalidOpcode
    | some o => decodeOperands o bs

/-! ## The encoder (30_encoding.md R81, R86) -/

/-- The opcode byte. -/
def Opcode.byte (o : Opcode) : Byte := BitVec.ofNat 8 o.number

/-- The bytes of a register-id field (R83). -/
def registerBytes {n : Nat} (r : Fin n) : List Byte := leBytes Config.registerIdWidth r.val

/-- The bytes of an address field (R84). -/
def addressBytes (a : Word) : List Byte := leBytes Config.addressWidth a.toNat

/-- The bytes of an immediate field (R85). -/
def immediateBytes {w : Nat} (imm : Immediate) (v : BitVec w) : List Byte := leBytes imm.width v.toNat

/-- The operand bytes of an instruction, its fields in the order of R81. -/
def Instr.operandBytes : Instr → List Byte
  | .nop => []
  | .halt => []
  | .push reg => registerBytes reg
  | .pop reg => registerBytes reg
  | .pushFloat reg => registerBytes reg
  | .popFloat reg => registerBytes reg
  | .load reg addr => registerBytes reg ++ addressBytes addr
  | .store reg addr => registerBytes reg ++ addressBytes addr
  | .loadByte reg addr => registerBytes reg ++ addressBytes addr
  | .storeByte reg addr => registerBytes reg ++ addressBytes addr
  | .loadHalfWord reg addr => registerBytes reg ++ addressBytes addr
  | .storeHalfWord reg addr => registerBytes reg ++ addressBytes addr
  | .loadFloat reg addr => registerBytes reg ++ addressBytes addr
  | .storeFloat reg addr => registerBytes reg ++ addressBytes addr
  | .loadImmediate reg imm => registerBytes reg ++ immediateBytes .integer imm
  | .loadImmediateFloat reg imm => registerBytes reg ++ immediateBytes .float imm
  | .add src1 src2 dst => registerBytes src1 ++ (registerBytes src2 ++ registerBytes dst)
  | .sub src1 src2 dst => registerBytes src1 ++ (registerBytes src2 ++ registerBytes dst)
  | .mul src1 src2 dst => registerBytes src1 ++ (registerBytes src2 ++ registerBytes dst)
  | .div src1 src2 dst => registerBytes src1 ++ (registerBytes src2 ++ registerBytes dst)
  | .shl src1 src2 dst => registerBytes src1 ++ (registerBytes src2 ++ registerBytes dst)
  | .shr src1 src2 dst => registerBytes src1 ++ (registerBytes src2 ++ registerBytes dst)
  | .addFloat src1 src2 dst => registerBytes src1 ++ (registerBytes src2 ++ registerBytes dst)
  | .subFloat src1 src2 dst => registerBytes src1 ++ (registerBytes src2 ++ registerBytes dst)
  | .mulFloat src1 src2 dst => registerBytes src1 ++ (registerBytes src2 ++ registerBytes dst)
  | .divFloat src1 src2 dst => registerBytes src1 ++ (registerBytes src2 ++ registerBytes dst)
  | .addImmediate src imm dst => registerBytes src ++ (immediateBytes .integer imm ++ registerBytes dst)
  | .subImmediate src imm dst => registerBytes src ++ (immediateBytes .integer imm ++ registerBytes dst)
  | .mulImmediate src imm dst => registerBytes src ++ (immediateBytes .integer imm ++ registerBytes dst)
  | .divImmediate src imm dst => registerBytes src ++ (immediateBytes .integer imm ++ registerBytes dst)
  | .shlImmediate src imm dst => registerBytes src ++ (immediateBytes .integer imm ++ registerBytes dst)
  | .shrImmediate src imm dst => registerBytes src ++ (immediateBytes .integer imm ++ registerBytes dst)
  | .addFloatImmediate src imm dst => registerBytes src ++ (immediateBytes .float imm ++ registerBytes dst)
  | .subFloatImmediate src imm dst => registerBytes src ++ (immediateBytes .float imm ++ registerBytes dst)
  | .mulFloatImmediate src imm dst => registerBytes src ++ (immediateBytes .float imm ++ registerBytes dst)
  | .divFloatImmediate src imm dst => registerBytes src ++ (immediateBytes .float imm ++ registerBytes dst)
  | .jump addr => addressBytes addr
  | .jumpZero addr => addressBytes addr
  | .jumpEqual addr => addressBytes addr
  | .jumpLessThan addr => addressBytes addr
  | .jumpGreaterThan addr => addressBytes addr
  | .jumpRegister reg => registerBytes reg
  | .jumpRegisterZero reg => registerBytes reg
  | .jumpRegisterEqual reg => registerBytes reg
  | .jumpRegisterLessThan reg => registerBytes reg
  | .jumpRegisterGreaterThan reg => registerBytes reg
  | .compare reg1 reg2 => registerBytes reg1 ++ registerBytes reg2
  | .compareFloat reg1 reg2 => registerBytes reg1 ++ registerBytes reg2

/-- The bytes of an instruction at ascending addresses (30_encoding.md R80). -/
def encode (i : Instr) : List Byte := i.opcode.byte :: i.operandBytes

/-- The bytes of an instruction of the opcode table laid out at ascending addresses: bit 0 of `w` is bit 0 of the first
byte, and every bit at or above `nbits` is 0, up to the longest instruction. -/
def tableBytes (nbits w : Nat) : List Byte := leBytes maxLength (w % 2 ^ nbits)

/-- The instruction the Decoder reads from an instruction whose bits are `w`, numbered as spec/opcode_table.json numbers
them; `none` where the Decoder refuses. -/
def decodeTableWord (nbits w : Nat) : Option Instr :=
  match decode (tableBytes nbits w) with
  | .ok (i, _) => some i
  | .error _ => none

end Sys2Proof
end

