-- ==== Sys2Proof/Machine/State.lean ====
section
/-! DEFINITION. The whole architectural state (10_state.md R20 to R41), the reasons a step can stop, and the state
after reset (10_state.md R41, 70_reset_and_hazards.md R280, R281). -/

namespace Sys2Proof.Machine

/-- `run_state` (10_state.md R35). -/
inductive RunState
  | halted | running | faulted
deriving DecidableEq, Repr

/-- The memory `M[0..65535]` (10_state.md R38) as (address, byte) pairs in one canonical form: addresses strictly
rising and below MEMORY_SIZE, and no entry equal to what an unlisted address reads as (`unlistedByte`). -/
abbrev Memory := List Host.Cell

/-- The complete state: "sixteen integer registers ... sixteen float registers ..., the memory ..., the run state, and
the fault cause. There is nothing else" (10_state.md, R37, R40). -/
structure State where
  /-- The integer file `x[0..15]`; `x[12]`, `x[13]`, `x[14]` are sp, pc and the flags word (R20, R23). -/
  x : Vector Word Config.numX
  /-- The float file `f[0..15]`, 32-bit patterns (R33). -/
  f : Vector FloatPattern Config.numF
  /-- The memory `M` (R38). -/
  mem : Memory
  /-- `run_state` (R35). -/
  runState : RunState
  /-- `fault_cause`; `none` is `None` (R36). -/
  faultCause : Option FaultKind
  /-- THE MODEL'S OWN FIELD, not the spec's: how many NaN results have been drawn (log entries 3 and 4). -/
  draws : Nat
deriving DecidableEq, Repr

/-- Why `step` stops without a next state. A fault of the spec (60_exceptions.md R251) is none of these: it is a next
state with `run_state` Faulted (R256). -/
inductive Fault
  /-- Raised by `step` when `run_state` is Halted: the loop has ended and `Step` is not enabled until the host's
  `start` or `run` (40_fetch_decode_dispatch.md R110, R121, 10_state.md R35). Safe: nothing happens in such a state. -/
  | halted
  /-- Raised by `step` when `run_state` is Faulted, with the recorded cause: stuck until `reset`, "`run()` returns the
  recorded fault" (60_exceptions.md R258, 93_implementation_defined.md U19). Safe: nothing happens in such a state. -/
  | faulted (cause : Option FaultKind)
deriving DecidableEq, Repr

/-- Why an instruction has no meaning. -/
inductive Refusal
  /-- Raised by an arm of `exec` for an instruction that has no meaning yet; no arm does now. Safe. -/
  | notModelled (mnemonic : String)
deriving DecidableEq, Repr

/-- The state after `reset()` and after construction, the table of 10_state.md R41. -/
def State.reset : State where
  x := ((Vector.replicate Config.numX 0#Config.xlen).set Config.pcId.val (BitVec.ofNat Config.xlen Config.entryAddress)
    Config.pcId.isLt).set Config.spId.val (BitVec.ofNat Config.xlen Config.stackTop) Config.spId.isLt
  f := Vector.replicate Config.numF 0#Config.flen
  mem := []
  runState := .halted
  faultCause := none
  draws := 0

end Sys2Proof.Machine
end

