-- ==== Sys2Proof/Machine/Ops.lean ====
section
/-! DEFINITION. The State's primitives: register access (10_state.md R22), memory access (20_memory.md R54, R55), the
stack (41_stack.md R140, R141), instruction fetch and the Decoder's advance of pc (40_fetch_decode_dispatch.md R113,
R117), and taking a fault (60_exceptions.md R256). -/

namespace Sys2Proof.Machine

/-! ## Memory as a canonical list of cells -/

/-- What an unlisted address reads as: the reset contents, "`M[0]` .. `M[65535]` | 0x00" (10_state.md R41). -/
@[simp] abbrev unlistedByte : Byte := 0#8

/-- The byte `M[a]` (00_scope.md R12). -/
def Memory.get : Memory → Nat → Byte
  | [], _ => unlistedByte
  | (b, v) :: rest, a => if a = b then v else Memory.get rest a

/-- `M[a] <- v`, in the canonical form. -/
def Memory.set : Memory → Nat → Byte → Memory
  | [], a, v => if v = unlistedByte then [] else [(a, v)]
  | (b, w) :: rest, a, v =>
    if a < b then
      if v = unlistedByte then (b, w) :: rest else (a, v) :: (b, w) :: rest
    else if a = b then
      if v = unlistedByte then rest else (a, v) :: rest
    else (b, w) :: Memory.set rest a v

/-- The canonical form from address `lo` on. -/
def Memory.wfFrom : Nat → Memory → Bool
  | _, [] => true
  | lo, (a, v) :: rest =>
    decide (lo ≤ a) && decide (a < Config.memorySize) && decide (v ≠ unlistedByte) && Memory.wfFrom (a + 1) rest

/-- The canonical form: addresses strictly rising and below MEMORY_SIZE, no entry equal to an unlisted byte. -/
def Memory.wf (m : Memory) : Bool := Memory.wfFrom 0 m

/-- The `n` bytes at ascending addresses from `a`. -/
def Memory.readBytes (m : Memory) (a : Nat) : Nat → List Byte
  | 0 => []
  | n + 1 => m.get a :: Memory.readBytes m (a + 1) n

/-- Bytes written at ascending addresses from `a`, one after the other (20_memory.md R55, R67). -/
def Memory.writeBytes (m : Memory) (a : Nat) : List Byte → Memory
  | [] => m
  | b :: bs => Memory.writeBytes (m.set a b) (a + 1) bs

/-! ## Registers (10_state.md R22, R23, R34) -/

/-- `x[id]`: read_register. -/
def State.readX (s : State) (r : XReg) : Word := s.x.get r

/-- `x[id] <- v`: write_register. No id is special-cased (R23). -/
def State.writeX (s : State) (r : XReg) (v : Word) : State := { s with x := s.x.set r.val v r.isLt }

/-- `f[id]`, the float equivalent of read_register (R34). -/
def State.readF (s : State) (r : FReg) : FloatPattern := s.f.get r

/-- `f[id] <- v`, the float equivalent of write_register (R34). -/
def State.writeF (s : State) (r : FReg) (v : FloatPattern) : State := { s with f := s.f.set r.val v r.isLt }

/-- `sp` is another name for `x[12]` (00_scope.md R11, 10_state.md R29). -/
def State.sp (s : State) : Word := s.readX Config.spId

/-- `pc` is another name for `x[13]` (00_scope.md R11, 10_state.md R26). -/
def State.pc (s : State) : Word := s.readX Config.pcId

/-- `flags` is another name for `x[14]` (00_scope.md R11, 10_state.md R30). -/
def State.flags (s : State) : Word := s.readX Config.flagsId

/-- The byte `M[a]` of a state. -/
def State.readByte (s : State) (a : Nat) : Byte := s.mem.get a

/-- The state with another memory. -/
def State.withMem (s : State) (m : Memory) : State := { s with mem := m }

/-- `run_state <- r` (10_state.md R35). -/
def State.withRunState (s : State) (r : RunState) : State := { s with runState := r }

/-- One more NaN draw has been taken (log entries 3 and 4). -/
def State.countDraw (s : State) : State := { s with draws := s.draws + 1 }

/-! ## Memory access (20_memory.md R54 to R57, R60) -/

/-- `MemRead(addr, n)` for n in 1, 2, 4: `OutOfBounds` when `addr + n > MEMORY_SIZE` on unbounded integers (R54, R56),
else the n-byte little-endian value, zero-extended to the width of its destination (00_scope.md R13). -/
def State.memRead {w : Nat} (s : State) (addr : Word) (n : Nat) : Except FaultKind (BitVec w) :=
  if addr.toNat + n > Config.memorySize then .error .outOfBounds
  else .ok (BitVec.ofNat w (leValue (s.mem.readBytes addr.toNat n)))

/-- `MemWrite(addr, n, v)` for n in 1, 2, 4: `OutOfBounds` as above and no byte is written, else the low n bytes of `v`
at ascending addresses (R55). -/
def State.memWrite {w : Nat} (s : State) (addr : Word) (n : Nat) (v : BitVec w) : Except FaultKind State :=
  if addr.toNat + n > Config.memorySize then .error .outOfBounds
  else .ok (s.withMem (s.mem.writeBytes addr.toNat (leBytes n v.toNat)))

/-! ## The stack (41_stack.md R140, R141) -/

/-- `push_value(v)` (R140): the two checks, the store at the current sp, then the decrement modulo 2^XLEN. -/
def State.pushValue {w : Nat} (s : State) (v : BitVec w) : Except FaultKind State :=
  if s.sp.toNat ≤ Config.stackBottom then .error .stackUnderflow
  else
    match s.memWrite s.sp Config.stackSlot v with
    | .error k => .error k
    | .ok t => .ok (t.writeX Config.spId (s.sp - BitVec.ofNat Config.xlen Config.stackSlot))

/-- `pop_value()` (R141): the check before the increment, the increment, then the read at the new sp. -/
def State.popValue {w : Nat} (s : State) : Except FaultKind (BitVec w × State) :=
  if s.sp.toNat ≥ Config.stackTop then .error .stackOverflow
  else
    match s.memRead (w := w) (s.sp + BitVec.ofNat Config.xlen Config.stackSlot) Config.stackSlot with
    | .error k => .error k
    | .ok v => .ok (v, s.writeX Config.spId (s.sp + BitVec.ofNat Config.xlen Config.stackSlot))

/-! ## Fetch, advance, halt -/

/-- The bytes the Decoder may read at `pc`: those from `pc` to the end of memory, at most the longest instruction's
(40_fetch_decode_dispatch.md R113, 30_encoding.md R92). -/
def State.fetch (s : State) : List Byte :=
  s.mem.readBytes s.pc.toNat (min maxLength (Config.memorySize - s.pc.toNat))

/-- The Decoder's advance `pc <- pc0 + length` (40_fetch_decode_dispatch.md R117). -/
def State.advance (s : State) (fmt : Format) : State :=
  s.writeX Config.pcId (s.pc + BitVec.ofNat Config.xlen fmt.length)

/-- `run_state <- Halted`, by HALT (40_fetch_decode_dispatch.md R126) and by the implicit halt (R111). -/
def State.haltRun (s : State) : State := s.withRunState .halted

/-! ## Taking a fault

There is no return from a fault to stand beside it: "`Faulted` is terminal" and "the only exit is `reset()`"
(60_exceptions.md R258); the host's reset is `Sys2Proof.Machine.hostReset`. -/

/-- Fault entry (60_exceptions.md R256), applied to the state at the start of the step: registers, floats and memory
keep their values there (`pc = pc0`), `run_state <- Faulted`, `fault_cause <- K`. -/
def State.raise (s : State) (k : FaultKind) : State := { s with runState := .faulted, faultCause := some k }

/-- One decoded instruction on the state `s` at the start of its step: the Decoder's advance, then the handler, which
sees the advanced pc (40_fetch_decode_dispatch.md R110, R117, R119); a `raise` in the handler discards the step's writes,
the advance included (00_scope.md R14). -/
def runHandler (fmt : Format) (handler : State → Except FaultKind State) (s : State) :
    Host.Outcome State Fault Refusal :=
  match handler (s.advance fmt) with
  | .ok t => .next t
  | .error k => .next (s.raise k)

end Sys2Proof.Machine
end

