-- ==== Sys2Proof/Machine/Flags.lean ====
section
/-! DEFINITION. The flag datapath: the bits of the flags word (10_state.md R30, R31), what the two compares write
(46_compare.md R220, R221) and the branch conditions (47_jumps.md R230). -/

namespace Sys2Proof.Machine

/-- `test_flag`: bit `i` of the flags word (10_state.md R31). -/
def testFlag (w : Word) (i : Nat) : Bool := w.getLsbD i

/-- `set_flag` and `clear_flag`: "pure bit operations on the flags word" (10_state.md R31). -/
def putFlag (w : Word) (i : Nat) (on : Bool) : Word :=
  if on then w ||| BitVec.ofNat Config.xlen (2 ^ i) else w &&& ~~~(BitVec.ofNat Config.xlen (2 ^ i))

/-- ZERO and SIGN after a compare whose outcome is `equal` or `greater`; the other bits keep their values (46_compare.md
R220). -/
def putZeroSign (w : Word) (equal greater : Bool) : Word :=
  putFlag (putFlag w Config.zeroBit equal) Config.signBit (!equal && greater)

/-- The flags word after COMPARE of `a` and `b` (46_compare.md R220): the comparison is unsigned, SIGN is set when the
first is greater. -/
def compareFlags (w a b : Word) : Word :=
  putZeroSign w (decide (a = b)) (decide (b.toNat < a.toNat))

/-- The flags word after COMPARE_FLOAT (46_compare.md R221): ZERO, SIGN and OVERFLOW are always written. -/
def compareFloatFlags (w : Word) (equal greater overflow : Bool) : Word :=
  putFlag (putZeroSign w equal greater) Config.overflowBit overflow

/-- The five branch conditions of 47_jumps.md R230. -/
inductive Condition
  | always | zero | equal | lessThan | greaterThan
deriving DecidableEq, Repr

/-- Whether a jump is taken on the flags word `w`, the table of 47_jumps.md R230, "reproduced as-is". -/
def conditionHolds (c : Condition) (w : Word) : Bool :=
  match c with
  | .always => true
  | .zero => testFlag w Config.zeroBit
  | .equal => testFlag w Config.zeroBit
  | .lessThan => testFlag w Config.zeroBit || (testFlag w Config.signBit != testFlag w Config.overflowBit)
  | .greaterThan => testFlag w Config.zeroBit && (testFlag w Config.signBit == testFlag w Config.overflowBit)

end Sys2Proof.Machine
end

