-- ==== Sys2Proof/Machine/Float.lean ====
section
/-! DEFINITION. The value this hardware takes for the parameter `FloatOps`: IEEE 754 binary32, round to nearest, ties
to even, gradual underflow (45_float_arithmetic.md R200 to R202), and the overflow test of COMPARE_FLOAT (46_compare.md
R221). Every finite value is a whole number of units of 2^-149, so the arithmetic is exact on integers and narrows once,
in `roundMagnitude`. -/

namespace Sys2Proof.Machine

/-! ## The format (45_float_arithmetic.md R201) -/

/-- The sign `s = v[31]`. -/
def floatSign (v : FloatPattern) : Bool := v.getLsbD 31

/-- The biased exponent `e = v[30:23]`. -/
def floatExponent (v : FloatPattern) : Nat := (v.extractLsb' 23 8).toNat

/-- The fraction `m = v[22:0]`. -/
def floatFraction (v : FloatPattern) : Nat := (v.extractLsb' 0 23).toNat

/-- "`e` = 255, `m` != 0: NaN". -/
def isNaN (v : FloatPattern) : Bool := floatExponent v == 255 && floatFraction v != 0

/-- "`e` = 255, `m` = 0: infinity". -/
def isInfinite (v : FloatPattern) : Bool := floatExponent v == 255 && floatFraction v == 0

/-- Neither infinity nor NaN. -/
def isFinite (v : FloatPattern) : Bool := floatExponent v != 255

/-- "`e` = 0, `m` = 0: zero". -/
def isZero (v : FloatPattern) : Bool := floatExponent v == 0 && floatFraction v == 0

/-- The magnitude of a finite pattern in units of 2^-149: `m` for a subnormal or zero, `(2^23 + m) * 2^(e - 1)` for a
normal, since (2^23 + m) * 2^(e - 150) is that many units. On an infinity it gives 2^277, more than any finite value. -/
def floatMagnitude (v : FloatPattern) : Nat :=
  if floatExponent v = 0 then floatFraction v else (2 ^ 23 + floatFraction v) * 2 ^ (floatExponent v - 1)

/-- The signed value of a finite pattern in units of 2^-149; an infinity lies beyond every finite value. -/
def floatUnits (v : FloatPattern) : Int := if floatSign v then -(floatMagnitude v : Int) else floatMagnitude v

/-- `FLT_MAX` = (2^24 - 1) * 2^104, in units of 2^-149. -/
def maxFiniteUnits : Nat := (2 ^ 24 - 1) * 2 ^ 253

/-- The pattern of the infinity of sign +, without its sign bit. -/
def infinityMagnitude : Nat := 0x7F800000

/-! ## Rounding -/

/-- The 31 low pattern bits of the exact magnitude `num / den` units of 2^-149 rounded to nearest, ties to even, or those
of infinity when the rounded magnitude exceeds `FLT_MAX` (45_float_arithmetic.md R202). `shift` is the power of two between
adjacent binary32 values there; a carry out of the fraction moves into the exponent by itself. -/
def roundMagnitude (num den : Nat) : Nat :=
  let shift := (num / den).log2 - 23
  let ulp := den * 2 ^ shift
  let low := num / ulp
  let rest := num % ulp
  let rounded := if 2 * rest > ulp ∨ (2 * rest = ulp ∧ low % 2 = 1) then low + 1 else low
  min (shift * 2 ^ 23 + rounded) infinityMagnitude

/-- A pattern from its sign and its 31 low bits. -/
def packFloat (sign : Bool) (magnitude : Nat) : FloatPattern :=
  BitVec.ofNat Config.flen (magnitude + if sign then 2 ^ 31 else 0)

/-! ## The operations (45_float_arithmetic.md R202) -/

/-- Addition. An exact zero sum is +0 except (-0) + (-0) = -0. -/
def addBinary32 (a b : FloatPattern) : FloatResult :=
  if isNaN a || isNaN b then .nan
  else if isInfinite a then
    if isInfinite b && (floatSign a != floatSign b) then .nan else .pattern a
  else if isInfinite b then .pattern b
  else if floatUnits a + floatUnits b = 0 then .pattern (packFloat (floatSign a && floatSign b) 0)
  else .pattern (packFloat (decide (floatUnits a + floatUnits b < 0)) (roundMagnitude (floatUnits a + floatUnits b).natAbs 1))

/-- The pattern with its sign bit inverted. -/
def negateBinary32 (v : FloatPattern) : FloatPattern := v ^^^ 0x80000000#32

/-- Subtraction: `a - b` is `a + (-b)`, signed zeros and infinities included. -/
def subBinary32 (a b : FloatPattern) : FloatResult := addBinary32 a (negateBinary32 b)

/-- Multiplication. The product of two counts of 2^-149 is a count of 2^-298. -/
def mulBinary32 (a b : FloatPattern) : FloatResult :=
  let sign := floatSign a != floatSign b
  if isNaN a || isNaN b then .nan
  else if (isInfinite a && isZero b) || (isZero a && isInfinite b) then .nan
  else if isInfinite a || isInfinite b then .pattern (packFloat sign infinityMagnitude)
  else .pattern (packFloat sign (roundMagnitude (floatMagnitude a * floatMagnitude b) (2 ^ 149)))

/-- Division. A finite non-zero value divided by a zero is an infinity; a zero divisor is no fault (R203). -/
def divBinary32 (a b : FloatPattern) : FloatResult :=
  let sign := floatSign a != floatSign b
  if isNaN a || isNaN b then .nan
  else if (isInfinite a && isInfinite b) || (isZero a && isZero b) then .nan
  else if isInfinite a || isZero b then .pattern (packFloat sign infinityMagnitude)
  else if isInfinite b then .pattern (packFloat sign 0)
  else .pattern (packFloat sign (roundMagnitude (floatMagnitude a * 2 ^ 149) (floatMagnitude b)))

/-- `feq`: the quiet equality, +0 equal to -0, a NaN equal to nothing (46_compare.md R221). -/
def eqBinary32 (a b : FloatPattern) : Bool := !isNaN a && !isNaN b && decide (floatUnits a = floatUnits b)

/-- `fgt`: the quiet greater-than (46_compare.md R221). -/
def gtBinary32 (a b : FloatPattern) : Bool := !isNaN a && !isNaN b && decide (floatUnits b < floatUnits a)

/-- The record this hardware takes (45_float_arithmetic.md R200). -/
def floatOps : FloatOps where
  fadd := addBinary32
  fsub := subBinary32
  fmul := mulBinary32
  fdiv := divBinary32
  feq := eqBinary32
  fgt := gtBinary32

/-- The operation of `FloatOps` that an instruction names. -/
def floatArith (op : FloatOp) (a b : FloatPattern) : FloatResult :=
  match op with
  | .add => floatOps.fadd a b
  | .sub => floatOps.fsub a b
  | .mul => floatOps.fmul a b
  | .div => floatOps.fdiv a b

/-- The quiet NaN with drawn bits: sign from bit 22, `e` = 255, fraction bit 22 set, the rest from bits 21:0 (R202). -/
def quietNaN (bits : BitVec 23) : FloatPattern := bits.extractLsb' 22 1 ++ 0xFF#8 ++ 1#1 ++ bits.extractLsb' 0 22

/-- COMPARE_FLOAT's OVERFLOW: "both finite and |A - B| > FLT_MAX", on the exact difference (46_compare.md R221). -/
def differenceOverflows (a b : FloatPattern) : Bool :=
  isFinite a && isFinite b && decide (maxFiniteUnits < (floatUnits a - floatUnits b).natAbs)

end Sys2Proof.Machine
end

