-- ==== Sys2Proof/Machine/Operands.lean ====
section
/-! DEFINITION. The operand forms the handlers share, on the state with the advanced pc: integer and float sources and
destinations, immediates, absolute addresses, and the two ways a jump gets its target. Sources are read before the
destination is written (43_integer_arithmetic.md R179, 44_shift.md R195, 45_float_arithmetic.md R212). -/

namespace Sys2Proof.Machine

/-! ## Integer results -/

/-- `x[dst] <- x[src1] op x[src2]` (43_integer_arithmetic.md R179). -/
def binaryX (op : Word → Word → Word) (src1 src2 dst : XReg) (s : State) : Except FaultKind State :=
  .ok (s.writeX dst (op (s.readX src1) (s.readX src2)))

/-- `x[dst] <- x[src] op imm` (43_integer_arithmetic.md R179). -/
def immediateX (op : Word → Word → Word) (src : XReg) (imm : Word) (dst : XReg) (s : State) : Except FaultKind State :=
  .ok (s.writeX dst (op (s.readX src) imm))

/-- `x[dst] <- floor(a / b)`, unsigned; `DivisionByZero` when `b` is 0, and then nothing is written
(43_integer_arithmetic.md R180). -/
def divideX (a b : Word) (dst : XReg) (s : State) : Except FaultKind State :=
  if b = 0#Config.xlen then .error .divisionByZero else .ok (s.writeX dst (a / b))

/-! ## Float results -/

/-- `f[dst] <- op(a, b)` (45_float_arithmetic.md R212); a NaN result takes the next free draw (R202, log entry 3). -/
def resultF (op : FloatOp) (a b : FloatPattern) (dst : FReg) (s : State) : Except FaultKind State :=
  match floatArith op a b with
  | .pattern v => .ok (s.writeF dst v)
  | .nan => .ok (s.writeF dst (quietNaN (Config.nanBits op a b s.draws))).countDraw

/-- `f[dst] <- op(f[src1], f[src2])`. -/
def binaryF (op : FloatOp) (src1 src2 dst : FReg) (s : State) : Except FaultKind State :=
  resultF op (s.readF src1) (s.readF src2) dst s

/-- `f[dst] <- op(f[src], imm)`, the immediate as a pattern. -/
def immediateF (op : FloatOp) (src : FReg) (imm : FloatPattern) (dst : FReg) (s : State) : Except FaultKind State :=
  resultF op (s.readF src) imm dst s

/-! ## Absolute addresses (42_data_movement.md R150) -/

/-- `x[reg] <- zext_32(MemRead(addr, n))`. -/
def loadX (n : Nat) (reg : XReg) (addr : Word) (s : State) : Except FaultKind State :=
  match s.memRead (w := Config.xlen) addr n with
  | .error k => .error k
  | .ok v => .ok (s.writeX reg v)

/-- `f[reg] <- MemRead(addr, 4)`, the pattern unchanged (R157). -/
def loadF (reg : FReg) (addr : Word) (s : State) : Except FaultKind State :=
  match s.memRead (w := Config.flen) addr Config.wordWidth with
  | .error k => .error k
  | .ok v => .ok (s.writeF reg v)

/-- `MemWrite(addr, n, low n bytes of x[reg])`. -/
def storeX (n : Nat) (reg : XReg) (addr : Word) (s : State) : Except FaultKind State :=
  s.memWrite addr n (s.readX reg)

/-- `MemWrite(addr, 4, f[reg])`, the pattern unchanged (R158). -/
def storeF (reg : FReg) (addr : Word) (s : State) : Except FaultKind State :=
  s.memWrite addr Config.wordWidth (s.readF reg)

/-! ## Jump targets (47_jumps.md R230, R231, R243) -/

/-- `pc <- t` if the condition holds on the flags word, else the pc keeps the advanced value (R243). -/
def jumpTo (c : Condition) (t : Word) (s : State) : Except FaultKind State :=
  .ok (if conditionHolds c s.flags then s.writeX Config.pcId t else s)

/-- A register-indirect jump: the target is resolved from the register and validated whether or not the condition holds,
then the absolute form follows (R231). -/
def jumpToRegister (c : Condition) (reg : XReg) (s : State) : Except FaultKind State :=
  if (s.readX reg).toNat ≥ Config.memorySize then .error .invalidAddress else jumpTo c (s.readX reg) s

end Sys2Proof.Machine
end

