-- ==== Sys2Proof/Machine/Compare.lean ====
section
/-! DEFINITION. COMPARE and COMPARE_FLOAT, the only instructions that write flag bits (46_compare.md R220, R221).
Both operands are read before the flags word changes. -/

namespace Sys2Proof.Machine

/-- 46_compare.md R220 COMPARE. Writes ZERO and SIGN of `x[14]` from the unsigned comparison. -/
def execCompare (reg1 reg2 : XReg) (s : State) : Host.Outcome State Fault Refusal :=
  runHandler .rr
    (fun t => .ok (t.writeX Config.flagsId (compareFlags t.flags (t.readX reg1) (t.readX reg2)))) s

/-- 46_compare.md R221 COMPARE_FLOAT. Writes ZERO, SIGN and OVERFLOW of `x[14]` from the float comparison. -/
def execCompareFloat (reg1 reg2 : FReg) (s : State) : Host.Outcome State Fault Refusal :=
  runHandler .rr
    (fun t => .ok (t.writeX Config.flagsId (compareFloatFlags t.flags (floatOps.feq (t.readF reg1) (t.readF reg2))
      (floatOps.fgt (t.readF reg1) (t.readF reg2)) (differenceOverflows (t.readF reg1) (t.readF reg2))))) s

end Sys2Proof.Machine
end

