-- ==== Sys2Proof/Machine/Control.lean ====
section
/-! DEFINITION. The two no-operand instructions (40_fetch_decode_dispatch.md R125, R126). -/

namespace Sys2Proof.Machine

/-- 40_fetch_decode_dispatch.md R125 NOP. Nothing beyond the advance. -/
def execNop (s : State) : Host.Outcome State Fault Refusal :=
  runHandler .n (fun t => .ok t) s

/-- 40_fetch_decode_dispatch.md R126 HALT. `run_state <- Halted`, pc left at `pc0 + 1`. -/
def execHalt (s : State) : Host.Outcome State Fault Refusal :=
  runHandler .n (fun t => .ok t.haltRun) s

end Sys2Proof.Machine
end

