-- ==== Sys2Proof/Machine/DataMovement.lean ====
section
/-! DEFINITION. Loads, stores and immediate loads (42_data_movement.md R150 to R160). -/

namespace Sys2Proof.Machine

/-- 42_data_movement.md R151 LOAD. `x[reg] <- MemRead(addr, 4)`. -/
def execLoad (reg : XReg) (addr : Word) (s : State) : Host.Outcome State Fault Refusal :=
  runHandler .ra (loadX Config.wordWidth reg addr) s

/-- 42_data_movement.md R153 LOAD_BYTE. `x[reg] <- zext_32(MemRead(addr, 1))`. -/
def execLoadByte (reg : XReg) (addr : Word) (s : State) : Host.Outcome State Fault Refusal :=
  runHandler .ra (loadX Config.byteWidth reg addr) s

/-- 42_data_movement.md R155 LOAD_HALF_WORD. `x[reg] <- zext_32(MemRead(addr, 2))`. -/
def execLoadHalfWord (reg : XReg) (addr : Word) (s : State) : Host.Outcome State Fault Refusal :=
  runHandler .ra (loadX Config.halfWordWidth reg addr) s

/-- 42_data_movement.md R152 STORE. `MemWrite(addr, 4, x[reg])`. -/
def execStore (reg : XReg) (addr : Word) (s : State) : Host.Outcome State Fault Refusal :=
  runHandler .ra (storeX Config.wordWidth reg addr) s

/-- 42_data_movement.md R154 STORE_BYTE. `MemWrite(addr, 1, x[reg][7:0])`. -/
def execStoreByte (reg : XReg) (addr : Word) (s : State) : Host.Outcome State Fault Refusal :=
  runHandler .ra (storeX Config.byteWidth reg addr) s

/-- 42_data_movement.md R156 STORE_HALF_WORD. `MemWrite(addr, 2, x[reg][15:0])`. -/
def execStoreHalfWord (reg : XReg) (addr : Word) (s : State) : Host.Outcome State Fault Refusal :=
  runHandler .ra (storeX Config.halfWordWidth reg addr) s

/-- 42_data_movement.md R157 LOAD_FLOAT. `f[reg] <- MemRead(addr, 4)`. -/
def execLoadFloat (reg : FReg) (addr : Word) (s : State) : Host.Outcome State Fault Refusal :=
  runHandler .ra (loadF reg addr) s

/-- 42_data_movement.md R158 STORE_FLOAT. `MemWrite(addr, 4, f[reg])`. -/
def execStoreFloat (reg : FReg) (addr : Word) (s : State) : Host.Outcome State Fault Refusal :=
  runHandler .ra (storeF reg addr) s

/-- 42_data_movement.md R159 LOAD_IMMEDIATE. `x[reg] <- imm`. -/
def execLoadImmediate (reg : XReg) (imm : Word) (s : State) : Host.Outcome State Fault Refusal :=
  runHandler (.ri .integer) (fun t => .ok (t.writeX reg imm)) s

/-- 42_data_movement.md R160 LOAD_IMMEDIATE_FLOAT. `f[reg] <- imm`. -/
def execLoadImmediateFloat (reg : FReg) (imm : FloatPattern) (s : State) : Host.Outcome State Fault Refusal :=
  runHandler (.ri .float) (fun t => .ok (t.writeF reg imm)) s

end Sys2Proof.Machine
end

