-- ==== Sys2Proof/Machine/FloatArithmetic.lean ====
section
/-! DEFINITION. Float arithmetic over `FloatOps`; no float instruction faults or writes a flag
(45_float_arithmetic.md R203 to R212). -/

namespace Sys2Proof.Machine

/-- 45_float_arithmetic.md R204 ADD_FLOAT. `f[dst] <- fadd(f[src1], f[src2])`. -/
def execAddFloat (src1 src2 dst : FReg) (s : State) : Host.Outcome State Fault Refusal :=
  runHandler .rrr (binaryF .add src1 src2 dst) s

/-- 45_float_arithmetic.md R205 SUB_FLOAT. `f[dst] <- fsub(f[src1], f[src2])`. -/
def execSubFloat (src1 src2 dst : FReg) (s : State) : Host.Outcome State Fault Refusal :=
  runHandler .rrr (binaryF .sub src1 src2 dst) s

/-- 45_float_arithmetic.md R206 MUL_FLOAT. `f[dst] <- fmul(f[src1], f[src2])`. -/
def execMulFloat (src1 src2 dst : FReg) (s : State) : Host.Outcome State Fault Refusal :=
  runHandler .rrr (binaryF .mul src1 src2 dst) s

/-- 45_float_arithmetic.md R207 DIV_FLOAT. `f[dst] <- fdiv(f[src1], f[src2])`. -/
def execDivFloat (src1 src2 dst : FReg) (s : State) : Host.Outcome State Fault Refusal :=
  runHandler .rrr (binaryF .div src1 src2 dst) s

/-- 45_float_arithmetic.md R208 ADD_FLOAT_IMMEDIATE. `f[dst] <- fadd(f[src], imm)`. -/
def execAddFloatImmediate (src : FReg) (imm : FloatPattern) (dst : FReg) (s : State) : Host.Outcome State Fault Refusal :=
  runHandler (.rir .float) (immediateF .add src imm dst) s

/-- 45_float_arithmetic.md R209 SUB_FLOAT_IMMEDIATE. `f[dst] <- fsub(f[src], imm)`. -/
def execSubFloatImmediate (src : FReg) (imm : FloatPattern) (dst : FReg) (s : State) : Host.Outcome State Fault Refusal :=
  runHandler (.rir .float) (immediateF .sub src imm dst) s

/-- 45_float_arithmetic.md R210 MUL_FLOAT_IMMEDIATE. `f[dst] <- fmul(f[src], imm)`. -/
def execMulFloatImmediate (src : FReg) (imm : FloatPattern) (dst : FReg) (s : State) : Host.Outcome State Fault Refusal :=
  runHandler (.rir .float) (immediateF .mul src imm dst) s

/-- 45_float_arithmetic.md R211 DIV_FLOAT_IMMEDIATE. `f[dst] <- fdiv(f[src], imm)`. -/
def execDivFloatImmediate (src : FReg) (imm : FloatPattern) (dst : FReg) (s : State) : Host.Outcome State Fault Refusal :=
  runHandler (.rir .float) (immediateF .div src imm dst) s

end Sys2Proof.Machine
end

