-- ==== Sys2Proof/Machine/IntegerArithmetic.lean ====
section
/-! DEFINITION. Integer arithmetic modulo 2^32 and unsigned division (43_integer_arithmetic.md R170 to R181). On
32-bit vectors +, - and * are the arithmetic modulo 2^32 of R170, and / is the unsigned quotient of R180. -/

namespace Sys2Proof.Machine

/-- 43_integer_arithmetic.md R171 ADD. `x[dst] <- (x[src1] + x[src2]) mod 2^32`. -/
def execAdd (src1 src2 dst : XReg) (s : State) : Host.Outcome State Fault Refusal :=
  runHandler .rrr (binaryX (· + ·) src1 src2 dst) s

/-- 43_integer_arithmetic.md R172 SUB. `x[dst] <- (x[src1] - x[src2]) mod 2^32`. -/
def execSub (src1 src2 dst : XReg) (s : State) : Host.Outcome State Fault Refusal :=
  runHandler .rrr (binaryX (· - ·) src1 src2 dst) s

/-- 43_integer_arithmetic.md R173 MUL. `x[dst] <- (x[src1] * x[src2]) mod 2^32`. -/
def execMul (src1 src2 dst : XReg) (s : State) : Host.Outcome State Fault Refusal :=
  runHandler .rrr (binaryX (· * ·) src1 src2 dst) s

/-- 43_integer_arithmetic.md R174 DIV. `DivisionByZero` if `x[src2]` is 0, else `x[dst] <- floor(x[src1] / x[src2])`. -/
def execDiv (src1 src2 dst : XReg) (s : State) : Host.Outcome State Fault Refusal :=
  runHandler .rrr (fun t => divideX (t.readX src1) (t.readX src2) dst t) s

/-- 43_integer_arithmetic.md R175 ADD_IMMEDIATE. `x[dst] <- (x[src] + imm) mod 2^32`. -/
def execAddImmediate (src : XReg) (imm : Word) (dst : XReg) (s : State) : Host.Outcome State Fault Refusal :=
  runHandler (.rir .integer) (immediateX (· + ·) src imm dst) s

/-- 43_integer_arithmetic.md R176 SUB_IMMEDIATE. `x[dst] <- (x[src] - imm) mod 2^32`. -/
def execSubImmediate (src : XReg) (imm : Word) (dst : XReg) (s : State) : Host.Outcome State Fault Refusal :=
  runHandler (.rir .integer) (immediateX (· - ·) src imm dst) s

/-- 43_integer_arithmetic.md R177 MUL_IMMEDIATE. `x[dst] <- (x[src] * imm) mod 2^32`. -/
def execMulImmediate (src : XReg) (imm : Word) (dst : XReg) (s : State) : Host.Outcome State Fault Refusal :=
  runHandler (.rir .integer) (immediateX (· * ·) src imm dst) s

/-- 43_integer_arithmetic.md R178 DIV_IMMEDIATE. `DivisionByZero` if `imm` is 0, else `x[dst] <- floor(x[src] / imm)`. -/
def execDivImmediate (src : XReg) (imm : Word) (dst : XReg) (s : State) : Host.Outcome State Fault Refusal :=
  runHandler (.rir .integer) (fun t => divideX (t.readX src) imm dst t) s

end Sys2Proof.Machine
end

