-- ==== Sys2Proof/Machine/Jump.lean ====
section
/-! DEFINITION. The absolute and register-indirect jumps (47_jumps.md R230 to R244). The Decoder has validated the
address of an absolute jump (40_fetch_decode_dispatch.md R116). -/

namespace Sys2Proof.Machine

/-- 47_jumps.md R232 JUMP. `pc <- addr`. -/
def execJump (addr : Word) (s : State) : Host.Outcome State Fault Refusal :=
  runHandler .a (jumpTo .always addr) s

/-- 47_jumps.md R233 JUMP_ZERO. `if flags.ZERO == 1: pc <- addr`. -/
def execJumpZero (addr : Word) (s : State) : Host.Outcome State Fault Refusal :=
  runHandler .a (jumpTo .zero addr) s

/-- 47_jumps.md R234 JUMP_EQUAL. `if flags.ZERO == 1: pc <- addr`. -/
def execJumpEqual (addr : Word) (s : State) : Host.Outcome State Fault Refusal :=
  runHandler .a (jumpTo .equal addr) s

/-- 47_jumps.md R235 JUMP_LESS_THAN. `if flags.ZERO == 1 or flags.SIGN != flags.OVERFLOW: pc <- addr`. -/
def execJumpLessThan (addr : Word) (s : State) : Host.Outcome State Fault Refusal :=
  runHandler .a (jumpTo .lessThan addr) s

/-- 47_jumps.md R236 JUMP_GREATER_THAN. `if flags.ZERO == 1 and flags.SIGN == flags.OVERFLOW: pc <- addr`. -/
def execJumpGreaterThan (addr : Word) (s : State) : Host.Outcome State Fault Refusal :=
  runHandler .a (jumpTo .greaterThan addr) s

/-- 47_jumps.md R237 JUMP_REGISTER. The target `x[reg]` is validated first, then as JUMP. -/
def execJumpRegister (reg : XReg) (s : State) : Host.Outcome State Fault Refusal :=
  runHandler .r (jumpToRegister .always reg) s

/-- 47_jumps.md R238 JUMP_REGISTER_ZERO. The target `x[reg]` is validated first, then as JUMP_ZERO. -/
def execJumpRegisterZero (reg : XReg) (s : State) : Host.Outcome State Fault Refusal :=
  runHandler .r (jumpToRegister .zero reg) s

/-- 47_jumps.md R239 JUMP_REGISTER_EQUAL. The target `x[reg]` is validated first, then as JUMP_EQUAL. -/
def execJumpRegisterEqual (reg : XReg) (s : State) : Host.Outcome State Fault Refusal :=
  runHandler .r (jumpToRegister .equal reg) s

/-- 47_jumps.md R240 JUMP_REGISTER_LESS_THAN. The target `x[reg]` is validated first, then as JUMP_LESS_THAN. -/
def execJumpRegisterLessThan (reg : XReg) (s : State) : Host.Outcome State Fault Refusal :=
  runHandler .r (jumpToRegister .lessThan reg) s

/-- 47_jumps.md R241 JUMP_REGISTER_GREATER_THAN. The target `x[reg]` is validated first, then as JUMP_GREATER_THAN. -/
def execJumpRegisterGreaterThan (reg : XReg) (s : State) : Host.Outcome State Fault Refusal :=
  runHandler .r (jumpToRegister .greaterThan reg) s

end Sys2Proof.Machine
end

