-- ==== Sys2Proof/Machine/Shift.lean ====
section
/-! DEFINITION. Logical shifts by the whole 32-bit amount (44_shift.md R190 to R195). -/

namespace Sys2Proof.Machine

/-- `shl(a, n)` (44_shift.md R190): no masking of the amount; 32 and more gives 0. -/
def shiftLeft (a n : Word) : Word := if n.toNat < Config.xlen then a <<< n.toNat else 0#Config.xlen

/-- `shr(a, n)` (44_shift.md R190): no masking of the amount; 32 and more gives 0. -/
def shiftRight (a n : Word) : Word := if n.toNat < Config.xlen then a >>> n.toNat else 0#Config.xlen

/-- 44_shift.md R191 SHL. `x[dst] <- shl(x[src1], x[src2])`. -/
def execShl (src1 src2 dst : XReg) (s : State) : Host.Outcome State Fault Refusal :=
  runHandler .rrr (binaryX shiftLeft src1 src2 dst) s

/-- 44_shift.md R192 SHR. `x[dst] <- shr(x[src1], x[src2])`. -/
def execShr (src1 src2 dst : XReg) (s : State) : Host.Outcome State Fault Refusal :=
  runHandler .rrr (binaryX shiftRight src1 src2 dst) s

/-- 44_shift.md R193 SHL_IMMEDIATE. `x[dst] <- shl(x[src], imm)`. -/
def execShlImmediate (src : XReg) (imm : Word) (dst : XReg) (s : State) : Host.Outcome State Fault Refusal :=
  runHandler (.rir .integer) (immediateX shiftLeft src imm dst) s

/-- 44_shift.md R194 SHR_IMMEDIATE. `x[dst] <- shr(x[src], imm)`. -/
def execShrImmediate (src : XReg) (imm : Word) (dst : XReg) (s : State) : Host.Outcome State Fault Refusal :=
  runHandler (.rir .integer) (immediateX shiftRight src imm dst) s

end Sys2Proof.Machine
end

