-- ==== Sys2Proof/Machine/Stack.lean ====
section
/-! DEFINITION. The stack instructions over `push_value` and `pop_value` (41_stack.md R143 to R146). -/

namespace Sys2Proof.Machine

/-- `v <- pop_value()`, then the register write (41_stack.md R144, R146). -/
def popThen {w : Nat} (write : BitVec w → State → State) (s : State) : Except FaultKind State :=
  match s.popValue (w := w) with
  | .error k => .error k
  | .ok (v, t) => .ok (write v t)

/-- 41_stack.md R143 PUSH. `v <- x[reg] ; push_value(v)`. -/
def execPush (reg : XReg) (s : State) : Host.Outcome State Fault Refusal :=
  runHandler .r (fun t => t.pushValue (t.readX reg)) s

/-- 41_stack.md R144 POP. `v <- pop_value() ; x[reg] <- v`, the register write last. -/
def execPop (reg : XReg) (s : State) : Host.Outcome State Fault Refusal :=
  runHandler .r (popThen fun v t => t.writeX reg v) s

/-- 41_stack.md R145 PUSH_FLOAT. `v <- f[reg] ; push_value(v)`, the pattern unchanged. -/
def execPushFloat (reg : FReg) (s : State) : Host.Outcome State Fault Refusal :=
  runHandler .r (fun t => t.pushValue (t.readF reg)) s

/-- 41_stack.md R146 POP_FLOAT. `v <- pop_value() ; f[reg] <- v`, the pattern unchanged. -/
def execPopFloat (reg : FReg) (s : State) : Host.Outcome State Fault Refusal :=
  runHandler .r (popThen fun v t => t.writeF reg v) s

end Sys2Proof.Machine
end

