-- ==== Sys2Proof/Machine/Dispatch.lean ====
section
/-! DEFINITION. The Dispatcher: "maps a decoded opcode to its handler" (40_fetch_decode_dispatch.md R119), one arm for
each of the 48 instructions. `exec i s` runs `i` on the state at the start of its step, pc at the instruction. -/

namespace Sys2Proof.Machine

def exec (i : Instr) (s : State) : Host.Outcome State Fault Refusal :=
  match i with
  | .nop => Sys2Proof.Machine.execNop s
  | .halt => Sys2Proof.Machine.execHalt s
  | .push reg => Sys2Proof.Machine.execPush reg s
  | .pop reg => Sys2Proof.Machine.execPop reg s
  | .pushFloat reg => Sys2Proof.Machine.execPushFloat reg s
  | .popFloat reg => Sys2Proof.Machine.execPopFloat reg s
  | .load reg addr => Sys2Proof.Machine.execLoad reg addr s
  | .store reg addr => Sys2Proof.Machine.execStore reg addr s
  | .loadByte reg addr => Sys2Proof.Machine.execLoadByte reg addr s
  | .storeByte reg addr => Sys2Proof.Machine.execStoreByte reg addr s
  | .loadHalfWord reg addr => Sys2Proof.Machine.execLoadHalfWord reg addr s
  | .storeHalfWord reg addr => Sys2Proof.Machine.execStoreHalfWord reg addr s
  | .loadFloat reg addr => Sys2Proof.Machine.execLoadFloat reg addr s
  | .storeFloat reg addr => Sys2Proof.Machine.execStoreFloat reg addr s
  | .loadImmediate reg imm => Sys2Proof.Machine.execLoadImmediate reg imm s
  | .loadImmediateFloat reg imm => Sys2Proof.Machine.execLoadImmediateFloat reg imm s
  | .add src1 src2 dst => Sys2Proof.Machine.execAdd src1 src2 dst s
  | .sub src1 src2 dst => Sys2Proof.Machine.execSub src1 src2 dst s
  | .mul src1 src2 dst => Sys2Proof.Machine.execMul src1 src2 dst s
  | .div src1 src2 dst => Sys2Proof.Machine.execDiv src1 src2 dst s
  | .shl src1 src2 dst => Sys2Proof.Machine.execShl src1 src2 dst s
  | .shr src1 src2 dst => Sys2Proof.Machine.execShr src1 src2 dst s
  | .addFloat src1 src2 dst => Sys2Proof.Machine.execAddFloat src1 src2 dst s
  | .subFloat src1 src2 dst => Sys2Proof.Machine.execSubFloat src1 src2 dst s
  | .mulFloat src1 src2 dst => Sys2Proof.Machine.execMulFloat src1 src2 dst s
  | .divFloat src1 src2 dst => Sys2Proof.Machine.execDivFloat src1 src2 dst s
  | .addImmediate src imm dst => Sys2Proof.Machine.execAddImmediate src imm dst s
  | .subImmediate src imm dst => Sys2Proof.Machine.execSubImmediate src imm dst s
  | .mulImmediate src imm dst => Sys2Proof.Machine.execMulImmediate src imm dst s
  | .divImmediate src imm dst => Sys2Proof.Machine.execDivImmediate src imm dst s
  | .shlImmediate src imm dst => Sys2Proof.Machine.execShlImmediate src imm dst s
  | .shrImmediate src imm dst => Sys2Proof.Machine.execShrImmediate src imm dst s
  | .addFloatImmediate src imm dst => Sys2Proof.Machine.execAddFloatImmediate src imm dst s
  | .subFloatImmediate src imm dst => Sys2Proof.Machine.execSubFloatImmediate src imm dst s
  | .mulFloatImmediate src imm dst => Sys2Proof.Machine.execMulFloatImmediate src imm dst s
  | .divFloatImmediate src imm dst => Sys2Proof.Machine.execDivFloatImmediate src imm dst s
  | .jump addr => Sys2Proof.Machine.execJump addr s
  | .jumpZero addr => Sys2Proof.Machine.execJumpZero addr s
  | .jumpEqual addr => Sys2Proof.Machine.execJumpEqual addr s
  | .jumpLessThan addr => Sys2Proof.Machine.execJumpLessThan addr s
  | .jumpGreaterThan addr => Sys2Proof.Machine.execJumpGreaterThan addr s
  | .jumpRegister reg => Sys2Proof.Machine.execJumpRegister reg s
  | .jumpRegisterZero reg => Sys2Proof.Machine.execJumpRegisterZero reg s
  | .jumpRegisterEqual reg => Sys2Proof.Machine.execJumpRegisterEqual reg s
  | .jumpRegisterLessThan reg => Sys2Proof.Machine.execJumpRegisterLessThan reg s
  | .jumpRegisterGreaterThan reg => Sys2Proof.Machine.execJumpRegisterGreaterThan reg s
  | .compare reg1 reg2 => Sys2Proof.Machine.execCompare reg1 reg2 s
  | .compareFloat reg1 reg2 => Sys2Proof.Machine.execCompareFloat reg1 reg2 s

end Sys2Proof.Machine
end

