-- ==== Sys2Proof/Machine/Step.lean ====
section
/-! DEFINITION. One step of the execution loop (40_fetch_decode_dispatch.md R110, R111), and the placing of one
instruction where it fetches. -/

namespace Sys2Proof.Machine

/-- `Step()` (40_fetch_decode_dispatch.md R110). It is enabled only while `run_state` is Running; the implicit halt is
tested before any byte is fetched (R111); a decode fault is taken with pc at the instruction (R112 to R117); a decoded
instruction runs on the state at the start of the step. -/
def step (s : State) : Host.Outcome State Fault Refusal :=
  match s.runState with
  | .halted => .fault .halted
  | .faulted => .fault (.faulted s.faultCause)
  | .running =>
    if s.pc.toNat ≥ Config.memorySize then .next s.haltRun
    else
      match decode s.fetch with
      | .error k => .next (s.raise k)
      | .ok (i, _) => exec i s

/-- The state with the bytes of one table instruction placed at pc, ready to run (log entries 1 and 2): the bytes go where
the Decoder fetches, `run_state` is Running as `start` leaves it, and pc moves to 0 only where the longest instruction
would not fit between pc and the end of memory. -/
def State.withFetchWord (s : State) (nbits w : Nat) : State :=
  let t := if s.pc.toNat + maxLength ≤ Config.memorySize then s
    else s.writeX Config.pcId (BitVec.ofNat Config.xlen Config.entryAddress)
  (t.withMem (t.mem.writeBytes t.pc.toNat (tableBytes nbits w))).withRunState .running

end Sys2Proof.Machine
end

