-- ==== Sys2Proof/Machine/HostInterface.lean ====
section
/-! DEFINITION. The host's commands (70_reset_and_hazards.md R280 to R289): "issued by the host and never by a program",
each completing atomically between steps. -/

namespace Sys2Proof.Machine

/-- `reset()`: "restores the constructed initial state", the only way out of Faulted (70_reset_and_hazards.md R280,
10_state.md R35). When the host may issue it is said by `hostCommand` (R289, log entry 7). The model's own draw counter goes
on, so that two runs do not share their free draws (log entry 4). -/
def hostReset (s : State) : State := { State.reset with draws := s.draws }

/-- `load_program(bytes)` (70_reset_and_hazards.md R284): `ProgramTooLarge` and nothing copied when the buffer is longer
than memory (60_exceptions.md R260), else the buffer at address 0 upward; it "mutates memory only". -/
def loadProgram (bytes : List Byte) (s : State) : Except FaultKind State :=
  if bytes.length > Config.memorySize then .error .programTooLarge
  else .ok (s.withMem (s.mem.writeBytes Config.entryAddress bytes))

/-- `start()` (70_reset_and_hazards.md R285): Halted becomes Running; Running and Faulted stay. -/
def start (s : State) : State :=
  match s.runState with
  | .halted => s.withRunState .running
  | .running => s
  | .faulted => s

/-- At most `bound` steps of the loop; it ends early when no step is enabled, and the state is then kept
(70_reset_and_hazards.md R286, R298, 60_exceptions.md R267). -/
def runSteps : Nat → State → State
  | 0, s => s
  | n + 1, s =>
    match step s with
    | .next t => runSteps n t
    | .fault _ => s
    | .refused _ => s

/-- `run()` bounded by the host to `bound` steps (70_reset_and_hazards.md R286, R298): nothing in Faulted, else Running is
forced and the loop steps. -/
def run (bound : Nat) (s : State) : State :=
  match s.runState with
  | .faulted => s
  | .halted => runSteps bound (s.withRunState .running)
  | .running => runSteps bound (s.withRunState .running)

/-- What `run()` returns: "success when it becomes `Halted`, or the fault kind when it becomes `Faulted`"
(70_reset_and_hazards.md R286); a bounded run may end still Running (R298). -/
inductive RunReport
  | success
  | fault (cause : Option FaultKind)
  | unfinished
deriving DecidableEq, Repr

/-- The report of a run that ended in the state `s`. -/
def runReport (s : State) : RunReport :=
  match s.runState with
  | .halted => .success
  | .faulted => .fault s.faultCause
  | .running => .unfinished

/-- `is_running()` (70_reset_and_hazards.md R287). -/
def isRunning (s : State) : Bool := decide (s.runState = .running)

/-! ## Observation and the host's writes (70_reset_and_hazards.md R288) -/

/-- `read_register(id)`; ids 12, 13, 14 return sp, pc, flags. -/
def readRegister (id : XReg) (s : State) : Word := s.readX id

/-- The float equivalent of `read_register`. -/
def readFloatRegister (id : FReg) (s : State) : FloatPattern := s.readF id

/-- `read_memory(addr, width)`, subject to the bounds test of `MemRead`. -/
def readMemory (addr : Word) (width : Nat) (s : State) : Except FaultKind Word := s.memRead addr width

/-- The state's write primitive on an integer register. -/
def writeRegister (id : XReg) (v : Word) (s : State) : State := s.writeX id v

/-- The state's write primitive on a float register. -/
def writeFloatRegister (id : FReg) (v : FloatPattern) (s : State) : State := s.writeF id v

/-- The state's write primitive on memory, with the bounds test of `MemWrite`. -/
def writeMemory (addr : Word) (width : Nat) (v : Word) (s : State) : Except FaultKind State := s.memWrite addr width v

/-! ## Which command the host may issue (70_reset_and_hazards.md R283, R284, R288, R289) -/

/-- The widths of a memory access (20_memory.md R61). -/
inductive AccessWidth
  | one | two | four
deriving DecidableEq, Repr

/-- The number of bytes of an access. -/
def accessBytes : AccessWidth → Nat
  | .one => Config.byteWidth
  | .two => Config.halfWordWidth
  | .four => Config.wordWidth

/-- The host's commands; `run` carries the host's step bound (R298). -/
inductive HostCommand
  | reset
  | loadProgram (bytes : List Byte)
  | start
  | run (bound : Nat)
  | isRunning
  | readRegister (id : XReg)
  | readFloatRegister (id : FReg)
  | readMemory (addr : Word) (width : AccessWidth)
  | readRunState
  | readFaultCause
  | writeRegister (id : XReg) (v : Word)
  | writeFloatRegister (id : FReg) (v : FloatPattern)
  | writeMemory (addr : Word) (width : AccessWidth) (v : Word)
deriving DecidableEq, Repr

/-- What a command returns to the host. -/
inductive HostReply
  | done
  | failed (k : FaultKind)
  | word (v : Word)
  | pattern (v : FloatPattern)
  | flag (b : Bool)
  | report (r : RunReport)
  | runState (r : RunState)
  | faultCause (c : Option FaultKind)
deriving DecidableEq, Repr

/-- A command that may fail returns the kind and changes nothing (60_exceptions.md R260). -/
def replyOr (s : State) : Except FaultKind State → HostReply × State
  | .ok t => (.done, t)
  | .error k => (.failed k, s)

/-- A command of the host in the state `s`, with its reply; `none` where "a model gives the host no such move": resetting,
loading, reading and writing while `run_state` is Running (R284, R288, R289, 93_implementation_defined.md U17; log entry 7).
`start`, `run` and `is_running` are defined in Running by R285 to R287. -/
def hostCommand (c : HostCommand) (s : State) : Option (HostReply × State) :=
  match c with
  | .reset => if isRunning s then none else some (.done, hostReset s)
  | .start => some (.done, start s)
  | .run bound => some (.report (runReport (run bound s)), run bound s)
  | .isRunning => some (.flag (isRunning s), s)
  | .loadProgram bytes => if isRunning s then none else some (replyOr s (loadProgram bytes s))
  | .readRegister id => if isRunning s then none else some (.word (readRegister id s), s)
  | .readFloatRegister id => if isRunning s then none else some (.pattern (readFloatRegister id s), s)
  | .readMemory addr width =>
    if isRunning s then none
    else
      match readMemory addr (accessBytes width) s with
      | .ok v => some (.word v, s)
      | .error k => some (.failed k, s)
  | .readRunState => if isRunning s then none else some (.runState s.runState, s)
  | .readFaultCause => if isRunning s then none else some (.faultCause s.faultCause, s)
  | .writeRegister id v => if isRunning s then none else some (.done, writeRegister id v s)
  | .writeFloatRegister id v => if isRunning s then none else some (.done, writeFloatRegister id v s)
  | .writeMemory addr width v => if isRunning s then none else some (replyOr s (writeMemory addr (accessBytes width) v s))

end Sys2Proof.Machine
end

