-- ==== Sys2Proof/WellFormed.lean ====
section
/-! DEFINITION. The check on an instruction that its type does not already make: an address operand lies below
MEMORY_SIZE (30_encoding.md R84, 40_fetch_decode_dispatch.md R116). Register ids are below 16 by their type (R115), and
"every immediate value is legal" (30_encoding.md R90). -/

namespace Sys2Proof

/-- An address operand "must be `< MEMORY_SIZE`" (20_memory.md R50). -/
def addressLegal (addr : Word) : Bool := decide (addr.toNat < Config.memorySize)

/-- An instruction that the Decoder can produce (30_encoding.md R90). -/
def Instr.wellFormed : Instr → Bool
  | .load _ addr | .store _ addr | .loadByte _ addr | .storeByte _ addr => addressLegal addr
  | .loadHalfWord _ addr | .storeHalfWord _ addr | .loadFloat _ addr | .storeFloat _ addr => addressLegal addr
  | .jump addr | .jumpZero addr | .jumpEqual addr | .jumpLessThan addr | .jumpGreaterThan addr => addressLegal addr
  | .nop | .halt | .push _ | .pop _ | .pushFloat _ | .popFloat _ | .loadImmediate _ _ | .loadImmediateFloat _ _ => true
  | .add _ _ _ | .sub _ _ _ | .mul _ _ _ | .div _ _ _ | .shl _ _ _ | .shr _ _ _ => true
  | .addFloat _ _ _ | .subFloat _ _ _ | .mulFloat _ _ _ | .divFloat _ _ _ => true
  | .addImmediate _ _ _ | .subImmediate _ _ _ | .mulImmediate _ _ _ | .divImmediate _ _ _ => true
  | .shlImmediate _ _ _ | .shrImmediate _ _ _ => true
  | .addFloatImmediate _ _ _ | .subFloatImmediate _ _ _ | .mulFloatImmediate _ _ _ | .divFloatImmediate _ _ _ => true
  | .jumpRegister _ | .jumpRegisterZero _ | .jumpRegisterEqual _ | .jumpRegisterLessThan _ => true
  | .jumpRegisterGreaterThan _ | .compare _ _ | .compareFloat _ _ => true

end Sys2Proof
end

