-- ==== Sys2Proof/Safety.lean ====
section
/-! DEFINITION. The words in which claims speak of runs and of single instructions: the invariant of the machine, the
ends of a run (40_fetch_decode_dispatch.md R123), what an instruction reads as a source, and what it leaves unchanged. -/

namespace Sys2Proof.Machine

/-- The invariant of reachable states: the memory is in its canonical form, a cause is recorded exactly in Faulted
(60_exceptions.md R256, R259), and it is never `ProgramTooLarge` (R260). -/
structure Inv (s : State) : Prop where
  memory : s.mem.wf = true
  cause : s.faultCause ≠ none ↔ s.runState = .faulted
  notHostOnly : s.faultCause ≠ some .programTooLarge

/-- "A run has ended when `run_state` is `Halted` or `Faulted`" (40_fetch_decode_dispatch.md R123). -/
def RunEnded (s : State) : Prop := s.runState = .halted ∨ s.runState = .faulted

/-- "A final state that counts as success is `Halted` with `fault_cause = None`" (40_fetch_decode_dispatch.md R123). -/
def Succeeded (s : State) : Prop := s.runState = .halted ∧ s.faultCause = none

/-- What an instruction of `len` bytes reads from integer register `r`: register 13 "reads the address of the next
sequential instruction, `pc0 + length`" (10_state.md R26), every other one its value. -/
def sourceX (s : State) (len : Nat) (r : XReg) : Word :=
  if r = Config.pcId then s.pc + BitVec.ofNat Config.xlen len else s.readX r

/-- `t` differs from `s` in no byte of memory. -/
def SameMemory (s t : State) : Prop := ∀ a, t.readByte a = s.readByte a

/-- `t` differs from `s` in no float register. -/
def SameFloats (s t : State) : Prop := ∀ r, t.readF r = s.readF r

/-- `t` differs from `s` neither in `run_state` nor in `fault_cause`. -/
def SameControl (s t : State) : Prop := t.runState = s.runState ∧ t.faultCause = s.faultCause

/-- `t` differs from `s` in no integer register but the program counter, and perhaps `dst`. -/
def SameIntegersBut (dst : XReg) (s t : State) : Prop := ∀ r, r ≠ dst → r ≠ Config.pcId → t.readX r = s.readX r

/-- `t` is `s` after an instruction of `len` bytes whose whole effect is `x[dst] <- v`: the pc advances unless it is the
destination, and nothing else changes, the flags word and sp included. -/
structure WritesX (s t : State) (len : Nat) (dst : XReg) (v : Word) : Prop where
  value : t.readX dst = v
  pc : dst ≠ Config.pcId → t.pc = s.pc + BitVec.ofNat Config.xlen len
  others : SameIntegersBut dst s t
  floats : SameFloats s t
  memory : SameMemory s t
  control : SameControl s t

/-- `t` is `s` after an instruction of `len` bytes whose whole effect is a value with property `P` in `f[dst]`. -/
structure WritesF (s t : State) (len : Nat) (dst : FReg) (P : FloatPattern → Prop) : Prop where
  value : P (t.readF dst)
  others : ∀ r, r ≠ dst → t.readF r = s.readF r
  pc : t.pc = s.pc + BitVec.ofNat Config.xlen len
  integers : SameIntegersBut Config.pcId s t
  memory : SameMemory s t
  control : SameControl s t

/-- `t` is `s` after an instruction whose whole effect is `pc <- target`. -/
structure MovesPc (s t : State) (target : Word) : Prop where
  pc : t.pc = target
  integers : SameIntegersBut Config.pcId s t
  floats : SameFloats s t
  memory : SameMemory s t
  control : SameControl s t

/-- `t` holds the `n` low bytes of `v` at ascending addresses from `a`, and every other byte is that of `s`
(20_memory.md R55). -/
structure StoresBytes (s t : State) (a n : Nat) (v : Word) : Prop where
  stored : ∀ k, k < n → t.readByte (a + k) = v.extractLsb' (8 * k) 8
  others : ∀ b, b < a ∨ a + n ≤ b → t.readByte b = s.readByte b

/-- `t` is `s` after a push of `v` by an instruction of two bytes: the slot at the old sp holds `v`, sp has gone down by
one slot modulo 2^32, the pc has advanced, and nothing else changes (41_stack.md R140). -/
structure Pushes (s t : State) (v : Word) : Prop where
  slot : StoresBytes s t s.sp.toNat 4 v
  sp : t.sp = s.sp - 4#32
  pc : t.pc = s.pc + 2#32
  integers : ∀ r, r ≠ Config.spId → r ≠ Config.pcId → t.readX r = s.readX r
  floats : SameFloats s t
  control : SameControl s t

/-- `t` is `s` after a store of the `n` low bytes of `v` at `a` by an instruction of `len` bytes, and of nothing else. -/
structure Stores (s t : State) (len a n : Nat) (v : Word) : Prop where
  bytes : StoresBytes s t a n v
  pc : t.pc = s.pc + BitVec.ofNat Config.xlen len
  integers : SameIntegersBut Config.pcId s t
  floats : SameFloats s t
  control : SameControl s t

/-- The four bytes at `a` as a word, `M[a+3] ++ M[a+2] ++ M[a+1] ++ M[a]` (00_scope.md R12). -/
def wordAt (s : State) (a : Nat) : Word :=
  s.readByte (a + 3) ++ s.readByte (a + 2) ++ s.readByte (a + 1) ++ s.readByte a

/-- The fault-entry state of 60_exceptions.md R256, field by field. -/
def FaultsWith (s : State) (k : FaultKind) (o : Host.Outcome State Fault Refusal) : Prop :=
  o = .next { s with runState := .faulted, faultCause := some k }

/-- `t` is `s` after a compare of `len` bytes: the pc has advanced, the flag bits from `kept` on are those of `s`, and
nothing else has changed (46_compare.md R220, R221). -/
structure WritesFlags (s t : State) (len kept : Nat) : Prop where
  bits : ∀ j, kept ≤ j → testFlag t.flags j = testFlag s.flags j
  pc : t.pc = s.pc + BitVec.ofNat Config.xlen len
  integers : SameIntegersBut Config.flagsId s t
  floats : SameFloats s t
  memory : SameMemory s t
  control : SameControl s t

/-! ## The host (70_reset_and_hazards.md R280 to R289) -/

/-- `t` has every item of `u` that the spec gives a State: the two register files, memory, `run_state` and `fault_cause`
(10_state.md R40, R41). The model's own draw counter, log entry 4, is none of them. -/
structure SameSpecState (u t : State) : Prop where
  x : t.x = u.x
  f : t.f = u.f
  mem : t.mem = u.mem
  runState : t.runState = u.runState
  faultCause : t.faultCause = u.faultCause

/-- Whether a command is one of the host's writes to the State outside a run: `reset`, `load_program` and the write
primitives (R288). -/
def hostWrites (c : HostCommand) : Bool :=
  match c with
  | .reset | .loadProgram _ | .writeRegister _ _ | .writeFloatRegister _ _ | .writeMemory _ _ _ => true
  | .start | .run _ | .isRunning => false
  | .readRegister _ | .readFloatRegister _ | .readMemory _ _ | .readRunState | .readFaultCause => false

/-- `t` is `s` after a write of the `n` low bytes of `v` at `a` by the host: the pc included, nothing else has changed. -/
structure HostStores (s t : State) (a n : Nat) (v : Word) : Prop where
  bytes : StoresBytes s t a n v
  integers : ∀ r, t.readX r = s.readX r
  floats : SameFloats s t
  control : SameControl s t

/-! ## The shift law (44_shift.md R190) -/

/-- `shl(a, n)`: `(a * 2^n) mod 2^32` for `n` up to 31, else 0. -/
def specShl (a n : Word) : Word :=
  if n.toNat ≤ 31 then BitVec.ofNat 32 (a.toNat * 2 ^ n.toNat % 2 ^ 32) else 0#32

/-- `shr(a, n)`: `floor(a / 2^n)` for `n` up to 31, else 0. -/
def specShr (a n : Word) : Word := if n.toNat ≤ 31 then BitVec.ofNat 32 (a.toNat / 2 ^ n.toNat) else 0#32

/-! ## Which registers and bytes an instruction may write (10_state.md R25, R34, 20_memory.md R53) -/

/-- The destination operand in the integer file, where there is one. -/
def destinationX : Instr → Option XReg
  | .pop reg | .load reg _ | .loadByte reg _ | .loadHalfWord reg _ | .loadImmediate reg _ => some reg
  | .add _ _ dst | .sub _ _ dst | .mul _ _ dst | .div _ _ dst | .shl _ _ dst | .shr _ _ dst => some dst
  | .addImmediate _ _ dst | .subImmediate _ _ dst | .mulImmediate _ _ dst | .divImmediate _ _ dst => some dst
  | .shlImmediate _ _ dst | .shrImmediate _ _ dst => some dst
  | _ => none

/-- The integer register other than the pc that an instruction writes without naming it: sp for the four stack
instructions, the flags word for the two compares (10_state.md R25). -/
def implicitX : Instr → Option XReg
  | .push _ | .pop _ | .pushFloat _ | .popFloat _ => some Config.spId
  | .compare _ _ | .compareFloat _ _ => some Config.flagsId
  | _ => none

/-- The destination operand in the float file, where there is one (10_state.md R34). -/
def destinationF : Instr → Option FReg
  | .popFloat reg | .loadFloat reg _ | .loadImmediateFloat reg _ => some reg
  | .addFloat _ _ dst | .subFloat _ _ dst | .mulFloat _ _ dst | .divFloat _ _ dst => some dst
  | .addFloatImmediate _ _ dst | .subFloatImmediate _ _ dst | .mulFloatImmediate _ _ dst => some dst
  | .divFloatImmediate _ _ dst => some dst
  | _ => none

/-- The first address and the number of the bytes an instruction stores to, where it stores (20_memory.md R53). -/
def storeTarget (s : State) : Instr → Option (Nat × Nat)
  | .store _ addr | .storeFloat _ addr => some (addr.toNat, 4)
  | .storeHalfWord _ addr => some (addr.toNat, 2)
  | .storeByte _ addr => some (addr.toNat, 1)
  | .push _ | .pushFloat _ => some (s.sp.toNat, 4)
  | _ => none

/-! ## The layout of the operand fields (30_encoding.md R81) -/

/-- The byte of a register-id field. -/
def idByte {n : Nat} (r : Fin n) : Byte := BitVec.ofNat 8 r.val

/-- The bytes of a four-byte field, `v[7:0]`, `v[15:8]`, `v[23:16]`, `v[31:24]`. -/
def fieldBytes (v : Word) : List Byte :=
  [v.extractLsb' 0 8, v.extractLsb' 8 8, v.extractLsb' 16 8, v.extractLsb' 24 8]

/-- The kinds of operand field (30_encoding.md R82 to R85). -/
inductive FieldKind
  | reg | addr | imm
deriving DecidableEq, Repr

/-- The operand fields of a format, in stream order, column "operand fields" of 30_encoding.md R81. -/
def formatFields : Format → List FieldKind
  | .n => []
  | .r => [.reg]
  | .rr => [.reg, .reg]
  | .rrr => [.reg, .reg, .reg]
  | .a => [.addr]
  | .ra => [.reg, .addr]
  | .ri _ => [.reg, .imm]
  | .rir _ => [.reg, .imm, .reg]

/-- The decode faults of an instruction whose bytes so far are `start` and whose remaining fields are those listed: a field
that is cut off by the end of memory is `TruncatedInstruction`, a register id of 16 or more `InvalidRegisterId`, an address of
65536 or more `InvalidAddress`, whatever follows, and after a legal field the next one is checked
(40_fetch_decode_dispatch.md R113 to R116, R118). -/
def FieldsFault (start : List Byte) : List FieldKind → Prop
  | [] => True
  | .reg :: fields =>
    decode start = .error .truncatedInstruction ∧
    (∀ (bad : Byte) (rest : List Byte), 16 ≤ bad.toNat → decode (start ++ bad :: rest) = .error .invalidRegisterId) ∧
    ∀ r : XReg, FieldsFault (start ++ [idByte r]) fields
  | .addr :: fields =>
    (∀ cut : List Byte, cut.length < 4 → decode (start ++ cut) = .error .truncatedInstruction) ∧
    (∀ (v : Word) (rest : List Byte), 65536 ≤ v.toNat →
      decode (start ++ (fieldBytes v ++ rest)) = .error .invalidAddress) ∧
    ∀ v : Word, v.toNat < 65536 → FieldsFault (start ++ fieldBytes v) fields
  | .imm :: fields =>
    (∀ cut : List Byte, cut.length < 4 → decode (start ++ cut) = .error .truncatedInstruction) ∧
    ∀ v : Word, FieldsFault (start ++ fieldBytes v) fields

/-! ## Float results (45_float_arithmetic.md R202) -/

/-- "a quiet NaN (`e` = 255, `m[22]` = 1)". -/
def QuietNaN (v : FloatPattern) : Prop := floatExponent v = 255 ∧ v.getLsbD 22 = true

/-- What a float operation may leave in its destination: its pattern, or any quiet NaN where the result is a NaN. -/
def FloatResultOf (op : FloatOp) (a b v : FloatPattern) : Prop :=
  floatArith op a b = .pattern v ∨ (floatArith op a b = .nan ∧ QuietNaN v)

/-- How far the finite pattern `w` lies from the exact magnitude `num / den`, times `den`, in units of 2^-149. -/
def roundingError (num den : Nat) (w : FloatPattern) : Nat := ((num : Int) - (floatMagnitude w * den : Nat)).natAbs

/-- `v` is the exact value of sign `neg` and magnitude `num / den` units of 2^-149 "rounded to nearest, ties to even; a
result whose rounded magnitude exceeds `FLT_MAX` is the infinity of the right sign". The magnitudes from half a last place
above `FLT_MAX` upward are those that exceed it. -/
structure CorrectlyRounded (neg : Bool) (num den : Nat) (v : FloatPattern) : Prop where
  sign : floatSign v = neg
  overflow : (2 ^ 25 - 1) * 2 ^ 252 * den ≤ num → isInfinite v = true
  finite : num < (2 ^ 25 - 1) * 2 ^ 252 * den → isFinite v = true
  nearest : num < (2 ^ 25 - 1) * 2 ^ 252 * den → ∀ w, isFinite w = true → roundingError num den v ≤ roundingError num den w
  even : num < (2 ^ 25 - 1) * 2 ^ 252 * den → ∀ w, isFinite w = true →
    roundingError num den w = roundingError num den v → floatMagnitude w ≠ floatMagnitude v → v.getLsbD 0 = false

end Sys2Proof.Machine
end

