-- ==== Sys2Proof/Certificates/Slice0/Obligations.lean ====
section
/-! DEFINITION. The statements for the provers, from the numbered rules of spec/. -/

open Sys2Proof Sys2Proof.Machine

/-! ## Reset -/

/-- 10_state.md R41, its whole table; `reset()` gives every item of it from every state. -/
def Obligations.ResetGivesEveryRuleValue : Prop :=
  (∀ r, r ≠ Config.spId → State.reset.readX r = 0#32) ∧ State.reset.sp = 0x8000#32 ∧ State.reset.pc = 0#32 ∧
    State.reset.flags = 0#32 ∧ (∀ r, State.reset.readF r = 0#32) ∧ (∀ a, State.reset.readByte a = 0#8) ∧
    State.reset.runState = .halted ∧ State.reset.faultCause = none ∧
    ∀ s, SameSpecState State.reset (hostReset s)

/-- The invariant holds after reset. The memory's canonical form in it is the model's choice, log entry 6. -/
def Obligations.InvariantHoldsAtReset : Prop := Machine.Inv State.reset

/-! ## Decode and encode (30_encoding.md, 40_fetch_decode_dispatch.md) -/

/-- Decoding the bytes of any well-formed instruction gives it back, with the bytes that follow it. -/
def Obligations.DecodeOfEncodeIsTheInstruction : Prop :=
  ∀ (i : Instr) (rest : List Byte), i.wellFormed = true → decode (encode i ++ rest) = .ok (i, rest)

/-- The bytes that decode to an instruction are that instruction's encoding, and the instruction is well-formed: every
legal byte string has one meaning. -/
def Obligations.DecodedBytesAreTheEncoding : Prop :=
  ∀ (bs rest : List Byte) (i : Instr), decode bs = .ok (i, rest) → bs = encode i ++ rest ∧ i.wellFormed = true

/-- The Decoder yields only the four decode faults (R120). -/
def Obligations.DecodeYieldsOnlyFourFaults : Prop :=
  ∀ (bs : List Byte) (k : FaultKind), decode bs = .error k →
    k = .invalidOpcode ∨ k = .invalidRegisterId ∨ k = .invalidAddress ∨ k = .truncatedInstruction

/-- R89: the bytes 0x30 .. 0xFF, and no other first byte, raise InvalidOpcode, whatever follows. -/
def Obligations.UnknownOpcodesAreInvalid : Prop :=
  ∀ (b : Byte) (rest : List Byte), decode (b :: rest) = .error .invalidOpcode ↔ 0x30 ≤ b.toNat

/-- R113 to R116 and part (3) of R118: for every opcode, the first field in stream order that is cut off or invalid decides
the fault, whatever follows it. -/
def Obligations.FirstOffendingFieldDecides : Prop :=
  ∀ o : Opcode, FieldsFault [o.byte] (formatFields o.format)

/-- R113: a well-formed instruction cut off anywhere after its opcode byte is a truncation. -/
def Obligations.CutOffInstructionIsTruncated : Prop :=
  ∀ (i : Instr) (n : Nat), i.wellFormed = true → 0 < n → n < (encode i).length →
    decode ((encode i).take n) = .error .truncatedInstruction

/-- Some words written out from the table of R81 and R86 decode to what they stand for (a sanity statement). -/
def Obligations.WorkedEncodingsDecode : Prop :=
  decode [0x0E, 0x01, 0x05, 0x00, 0x00, 0x00] = .ok (.loadImmediate 1 5, []) ∧
    decode [0x10, 0x01, 0x02, 0x01] = .ok (.add 1 2 1, []) ∧
    decode [0x07, 0x01, 0xFF, 0x00, 0x00, 0x00] = .ok (.store 1 0xFF, []) ∧
    decode [0x1B, 0x01, 0x01, 0x00, 0x00, 0x00, 0x01] = .ok (.subImmediate 1 1 1, []) ∧
    decode [0x24, 0x34, 0x12, 0x00, 0x00] = .ok (.jump 0x1234, []) ∧
    decode [0x2E, 0x01, 0x03] = .ok (.compare 1 3, [])

/-! ## The step (40_fetch_decode_dispatch.md R110 to R123) -/

/-- A running step whose bytes decode to `i` is `exec` of `i`, which makes the advance of pc itself (the model's choice, log
entry 5). -/
def Obligations.StepRunsTheDecodedInstruction : Prop :=
  ∀ (s : State) (i : Instr) (rest : List Byte), s.runState = .running → s.pc.toNat < Config.memorySize →
    decode s.fetch = .ok (i, rest) → step s = exec i s

/-- A running step with the bytes of a well-formed instruction at pc, all inside memory, is that instruction. -/
def Obligations.StepRunsTheBytesAtPc : Prop :=
  ∀ (s : State) (i : Instr), s.runState = .running → i.wellFormed = true →
    s.pc.toNat + (encode i).length ≤ Config.memorySize →
    (∀ (k : Nat) (h : k < (encode i).length), s.readByte (s.pc.toNat + k) = (encode i)[k]) → step s = exec i s

/-- R111: the implicit halt, and nothing else changed. -/
def Obligations.PcPastMemoryHaltsWithoutFault : Prop :=
  ∀ s : State, s.runState = .running → Config.memorySize ≤ s.pc.toNat → step s = .next { s with runState := .halted }

/-- R112: an unknown opcode at pc faults, with pc left there. -/
def Obligations.UnknownOpcodeAtPcFaults : Prop :=
  ∀ s : State, s.runState = .running → s.pc.toNat < Config.memorySize → 0x30 ≤ (s.readByte s.pc.toNat).toNat →
    FaultsWith s .invalidOpcode (step s) ∧ ∀ t, step s = .next t → t.pc = s.pc

/-- R113: an instruction whose last bytes would lie past the end of memory, with no earlier bad field, is a truncation. -/
def Obligations.InstructionPastMemoryIsTruncated : Prop :=
  ∀ (s : State) (i : Instr), s.runState = .running → i.wellFormed = true → s.pc.toNat < Config.memorySize →
    Config.memorySize < s.pc.toNat + (encode i).length →
    (∀ (k : Nat) (h : k < (encode i).length), s.pc.toNat + k < Config.memorySize →
      s.readByte (s.pc.toNat + k) = (encode i)[k]) →
    FaultsWith s .truncatedInstruction (step s)

/-- R28, R117: an instruction that decodes at pc lies inside memory, so the advanced pc is at most 65536. -/
def Obligations.DecodedInstructionLiesInMemory : Prop :=
  ∀ (s : State) (i : Instr) (rest : List Byte), s.pc.toNat < Config.memorySize → decode s.fetch = .ok (i, rest) →
    s.pc.toNat + (encode i).length ≤ Config.memorySize ∧
      (s.pc + BitVec.ofNat 32 (encode i).length).toNat = s.pc.toNat + (encode i).length

/-- Every running step has a next state: "every byte string at every pc, and every operand value, has exactly one outcome"
(93_implementation_defined.md). -/
def Obligations.RunningStepHasANextState : Prop := ∀ s : State, s.runState = .running → ∃ t, step s = .next t

/-- No step is enabled in Halted or Faulted, and Faulted answers the recorded cause. That a step which is not enabled is an
outcome `fault` is the model's choice: log entry 2. -/
def Obligations.StoppedMachineTakesNoStep : Prop :=
  ∀ s : State, (s.runState = .halted → step s = .fault .halted) ∧
    (s.runState = .faulted → step s = .fault (.faulted s.faultCause))

/-- A running step ends the run without a fault only by HALT or by the implicit halt (R121). -/
def Obligations.OnlyHaltAndMemoryEndHalt : Prop :=
  ∀ s t : State, s.runState = .running → step s = .next t → t.runState = .halted →
    Config.memorySize ≤ s.pc.toNat ∨ ∃ rest, decode s.fetch = .ok (.halt, rest)

/-! ## Faults and invariants (60_exceptions.md) -/

/-- R256: a step that faults changes `run_state` and `fault_cause` and nothing else. -/
def Obligations.FaultEntryIsPrecise : Prop :=
  ∀ s t : State, s.runState = .running → step s = .next t → t.runState = .faulted →
    ∃ k, k ≠ .programTooLarge ∧ t = { s with runState := .faulted, faultCause := some k }

/-- Every step keeps the invariant: the memory's canonical form, a cause recorded exactly in Faulted, never
ProgramTooLarge. The canonical form is the model's choice, log entry 6. -/
def Obligations.EveryStepKeepsTheInvariant : Prop := ∀ s t : State, Machine.Inv s → step s = .next t → Machine.Inv t

/-- 10_state.md R25, R34: an instruction writes no register but the pc, its destination, sp for the stack instructions and
the flags word for the compares; a fault writes none of them. -/
def Obligations.RegistersChangeOnlyWhereNamed : Prop :=
  ∀ (i : Instr) (s t : State), exec i s = .next t →
    (∀ r, r ≠ Config.pcId → destinationX i ≠ some r → implicitX i ≠ some r → t.readX r = s.readX r) ∧
    (∀ r, destinationF i ≠ some r → t.readF r = s.readF r)

/-- 20_memory.md R53: an instruction changes no byte of memory outside the bytes it stores to. -/
def Obligations.MemoryChangesOnlyWhereStored : Prop :=
  ∀ (i : Instr) (s t : State), exec i s = .next t →
    (storeTarget s i = none → SameMemory s t) ∧
    (∀ a n, storeTarget s i = some (a, n) → ∀ b, b < a ∨ a + n ≤ b → t.readByte b = s.readByte b)

/-- 10_state.md R31, R32: CARRY and bits 31:4 of the flags word change only by an instruction whose destination is r14,
and an instruction that is neither a compare nor has that destination changes no bit of it. -/
def Obligations.FlagsChangeOnlyByCompareOrDestination : Prop :=
  ∀ (i : Instr) (s t : State), exec i s = .next t → destinationX i ≠ some Config.flagsId →
    (∀ j, 3 ≤ j → testFlag t.flags j = testFlag s.flags j) ∧ (implicitX i ≠ some Config.flagsId → t.flags = s.flags)

/-! ## No-operand and stack instructions (R125, R126, R143 to R147) -/

/-- R125, R126. -/
def Obligations.NopAndHaltEffect : Prop :=
  encode .nop = [0x00#8] ∧ encode .halt = [0x01#8] ∧
    ∀ s : State, (∃ t, exec .nop s = .next t ∧ MovesPc s t (s.pc + 1#32)) ∧
      ∃ t, exec .halt s = .next t ∧ t.runState = .halted ∧ t.faultCause = s.faultCause ∧ t.pc = s.pc + 1#32 ∧
        SameIntegersBut Config.pcId s t ∧ SameFloats s t ∧ SameMemory s t

/-- R143, R145: the push stores the value read before sp changes; with no room, or above the last slot, it faults. -/
def Obligations.PushEffect : Prop :=
  (∀ b ∈ [0x02#8, 0x04#8], FieldsFault [b] [.reg]) ∧
  ∀ s : State,
    (∀ reg : XReg, encode (.push reg) = [0x02#8, idByte reg] ∧
      (s.mem.wf = true → 0 < s.sp.toNat → s.sp.toNat < 0xFFFD →
        ∃ t, exec (.push reg) s = .next t ∧ Pushes s t (sourceX s 2 reg)) ∧
      (s.sp.toNat = 0 → FaultsWith s .stackUnderflow (exec (.push reg) s)) ∧
      (0xFFFD ≤ s.sp.toNat → FaultsWith s .outOfBounds (exec (.push reg) s))) ∧
    (∀ reg : FReg, encode (.pushFloat reg) = [0x04#8, idByte reg] ∧
      (s.mem.wf = true → 0 < s.sp.toNat → s.sp.toNat < 0xFFFD →
        ∃ t, exec (.pushFloat reg) s = .next t ∧ Pushes s t (s.readF reg)) ∧
      (s.sp.toNat = 0 → FaultsWith s .stackUnderflow (exec (.pushFloat reg) s)) ∧
      (0xFFFD ≤ s.sp.toNat → FaultsWith s .outOfBounds (exec (.pushFloat reg) s)))

/-- R144, R146: the pop reads the slot above sp; the register write is last, so a popped sp or pc wins. -/
def Obligations.PopEffect : Prop :=
  (∀ b ∈ [0x03#8, 0x05#8], FieldsFault [b] [.reg]) ∧
  ∀ s : State,
    (∀ reg : XReg, encode (.pop reg) = [0x03#8, idByte reg] ∧
      (s.sp.toNat < 0x8000 → ∃ t, exec (.pop reg) s = .next t ∧ t.readX reg = wordAt s (s.sp.toNat + 4) ∧
        (reg ≠ Config.spId → t.sp = s.sp + 4#32) ∧ (reg ≠ Config.pcId → t.pc = s.pc + 2#32) ∧
        (∀ r, r ≠ reg → r ≠ Config.spId → r ≠ Config.pcId → t.readX r = s.readX r) ∧
        SameFloats s t ∧ SameMemory s t ∧ SameControl s t) ∧
      (0x8000 ≤ s.sp.toNat → FaultsWith s .stackOverflow (exec (.pop reg) s))) ∧
    (∀ reg : FReg, encode (.popFloat reg) = [0x05#8, idByte reg] ∧
      (s.sp.toNat < 0x8000 → ∃ t, exec (.popFloat reg) s = .next t ∧ t.readF reg = wordAt s (s.sp.toNat + 4) ∧
        (∀ r, r ≠ reg → t.readF r = s.readF r) ∧ t.sp = s.sp + 4#32 ∧ t.pc = s.pc + 2#32 ∧
        (∀ r, r ≠ Config.spId → r ≠ Config.pcId → t.readX r = s.readX r) ∧ SameMemory s t ∧ SameControl s t) ∧
      (0x8000 ≤ s.sp.toNat → FaultsWith s .stackOverflow (exec (.popFloat reg) s)))

/-- R147: a push and a pop bring the value back and leave sp where it was. -/
def Obligations.PushThenPopReturnsTheValue : Prop :=
  ∀ (s : State) (ra rb : XReg), s.mem.wf = true → rb ≠ Config.spId → 4 ≤ s.sp.toNat → s.sp.toNat ≤ 0x8003 →
    ∃ t u, exec (.push ra) s = .next t ∧ exec (.pop rb) t = .next u ∧ u.readX rb = sourceX s 2 ra ∧ u.sp = s.sp

/-! ## Data movement (R150 to R160) -/

/-- R150, R151, R153, R155, R157: the n bytes at the address, little-endian and zero-extended; past the end OutOfBounds. -/
def Obligations.LoadEffect : Prop :=
  (∀ b ∈ [0x06#8, 0x08#8, 0x0A#8, 0x0C#8], FieldsFault [b] [.reg, .addr]) ∧
  ∀ (s : State) (addr : Word), addr.toNat < 65536 →
    (∀ reg : XReg,
      encode (.load reg addr) = 0x06#8 :: idByte reg :: fieldBytes addr ∧
      (addr.toNat + 4 ≤ 65536 → ∃ t, exec (.load reg addr) s = .next t ∧ WritesX s t 6 reg (wordAt s addr.toNat)) ∧
      (65536 < addr.toNat + 4 → FaultsWith s .outOfBounds (exec (.load reg addr) s)) ∧
      encode (.loadByte reg addr) = 0x08#8 :: idByte reg :: fieldBytes addr ∧
      (∃ t, exec (.loadByte reg addr) s = .next t ∧ WritesX s t 6 reg (0#24 ++ s.readByte addr.toNat)) ∧
      encode (.loadHalfWord reg addr) = 0x0A#8 :: idByte reg :: fieldBytes addr ∧
      (addr.toNat + 2 ≤ 65536 → ∃ t, exec (.loadHalfWord reg addr) s = .next t ∧
        WritesX s t 6 reg (0#16 ++ s.readByte (addr.toNat + 1) ++ s.readByte addr.toNat)) ∧
      (65536 < addr.toNat + 2 → FaultsWith s .outOfBounds (exec (.loadHalfWord reg addr) s))) ∧
    (∀ reg : FReg,
      encode (.loadFloat reg addr) = 0x0C#8 :: idByte reg :: fieldBytes addr ∧
      (addr.toNat + 4 ≤ 65536 → ∃ t, exec (.loadFloat reg addr) s = .next t ∧
        WritesF s t 6 reg (fun v => v = wordAt s addr.toNat)) ∧
      (65536 < addr.toNat + 4 → FaultsWith s .outOfBounds (exec (.loadFloat reg addr) s)))

/-- R150, R152, R154, R156, R158: the low n bytes at the address and no other byte; past the end OutOfBounds. -/
def Obligations.StoreEffect : Prop :=
  (∀ b ∈ [0x07#8, 0x09#8, 0x0B#8, 0x0D#8], FieldsFault [b] [.reg, .addr]) ∧
  ∀ (s : State) (addr : Word), addr.toNat < 65536 →
    (∀ reg : XReg,
      encode (.store reg addr) = 0x07#8 :: idByte reg :: fieldBytes addr ∧
      (s.mem.wf = true → addr.toNat + 4 ≤ 65536 → ∃ t, exec (.store reg addr) s = .next t ∧
        Stores s t 6 addr.toNat 4 (sourceX s 6 reg)) ∧
      (65536 < addr.toNat + 4 → FaultsWith s .outOfBounds (exec (.store reg addr) s)) ∧
      encode (.storeByte reg addr) = 0x09#8 :: idByte reg :: fieldBytes addr ∧
      (s.mem.wf = true → ∃ t, exec (.storeByte reg addr) s = .next t ∧
        Stores s t 6 addr.toNat 1 (sourceX s 6 reg)) ∧
      encode (.storeHalfWord reg addr) = 0x0B#8 :: idByte reg :: fieldBytes addr ∧
      (s.mem.wf = true → addr.toNat + 2 ≤ 65536 → ∃ t, exec (.storeHalfWord reg addr) s = .next t ∧
        Stores s t 6 addr.toNat 2 (sourceX s 6 reg)) ∧
      (65536 < addr.toNat + 2 → FaultsWith s .outOfBounds (exec (.storeHalfWord reg addr) s))) ∧
    (∀ reg : FReg,
      encode (.storeFloat reg addr) = 0x0D#8 :: idByte reg :: fieldBytes addr ∧
      (s.mem.wf = true → addr.toNat + 4 ≤ 65536 → ∃ t, exec (.storeFloat reg addr) s = .next t ∧
        Stores s t 6 addr.toNat 4 (s.readF reg)) ∧
      (65536 < addr.toNat + 4 → FaultsWith s .outOfBounds (exec (.storeFloat reg addr) s)))

/-- R159, R160. -/
def Obligations.LoadImmediateEffect : Prop :=
  (∀ b ∈ [0x0E#8, 0x0F#8], FieldsFault [b] [.reg, .imm]) ∧
  ∀ (s : State) (imm : Word),
    (∀ reg : XReg, encode (.loadImmediate reg imm) = 0x0E#8 :: idByte reg :: fieldBytes imm ∧
      ∃ t, exec (.loadImmediate reg imm) s = .next t ∧ WritesX s t 6 reg imm) ∧
    (∀ reg : FReg, encode (.loadImmediateFloat reg imm) = 0x0F#8 :: idByte reg :: fieldBytes imm ∧
      ∃ t, exec (.loadImmediateFloat reg imm) s = .next t ∧ WritesF s t 6 reg (fun v => v = imm))

/-- 20_memory.md R59: a write read back at the same address and width gives the low n bytes. -/
def Obligations.MemoryWriteThenReadReturnsTheBytes : Prop :=
  ∀ (s t : State) (addr v : Word) (n : Nat), s.mem.wf = true → n = 1 ∨ n = 2 ∨ n = 4 → s.memWrite addr n v = .ok t →
    t.memRead addr n = .ok (BitVec.ofNat 32 (v.toNat % 2 ^ (8 * n)))

/-- 20_memory.md R65: after a STORE the bytes the Decoder fetches next are the stored ones wherever the store reached. -/
def Obligations.StoreIsSeenByTheNextFetch : Prop :=
  ∀ (s t : State) (reg : XReg) (addr : Word), s.mem.wf = true → addr.toNat + 4 ≤ 65536 →
    exec (.store reg addr) s = .next t → ∀ (k : Nat) (h : k < t.fetch.length),
      t.fetch[k] = if addr.toNat ≤ t.pc.toNat + k ∧ t.pc.toNat + k < addr.toNat + 4
        then (sourceX s 6 reg).extractLsb' (8 * (t.pc.toNat + k - addr.toNat)) 8
        else s.readByte (t.pc.toNat + k)

/-! ## Integer arithmetic and shifts (R170 to R195) -/

/-- R171, R172, R173. -/
def Obligations.IntegerThreeRegisterEffect : Prop :=
  (∀ b ∈ [0x10#8, 0x11#8, 0x12#8], FieldsFault [b] [.reg, .reg, .reg]) ∧
  ∀ (s : State) (src1 src2 dst : XReg),
    let a := (sourceX s 4 src1).toNat
    let b := (sourceX s 4 src2).toNat
    (encode (.add src1 src2 dst) = [0x10#8, idByte src1, idByte src2, idByte dst] ∧
      ∃ t, exec (.add src1 src2 dst) s = .next t ∧ WritesX s t 4 dst (BitVec.ofNat 32 ((a + b) % 2 ^ 32))) ∧
    (encode (.sub src1 src2 dst) = [0x11#8, idByte src1, idByte src2, idByte dst] ∧
      ∃ t, exec (.sub src1 src2 dst) s = .next t ∧
        WritesX s t 4 dst (BitVec.ofInt 32 (((a : Int) - (b : Int)) % 2 ^ 32))) ∧
    (encode (.mul src1 src2 dst) = [0x12#8, idByte src1, idByte src2, idByte dst] ∧
      ∃ t, exec (.mul src1 src2 dst) s = .next t ∧ WritesX s t 4 dst (BitVec.ofNat 32 ((a * b) % 2 ^ 32)))

/-- R175, R176, R177. -/
def Obligations.IntegerImmediateEffect : Prop :=
  (∀ b ∈ [0x1A#8, 0x1B#8, 0x1C#8], FieldsFault [b] [.reg, .imm, .reg]) ∧
  ∀ (s : State) (src : XReg) (imm : Word) (dst : XReg),
    let a := (sourceX s 7 src).toNat
    (encode (.addImmediate src imm dst) = 0x1A#8 :: idByte src :: (fieldBytes imm ++ [idByte dst]) ∧
      ∃ t, exec (.addImmediate src imm dst) s = .next t ∧
        WritesX s t 7 dst (BitVec.ofNat 32 ((a + imm.toNat) % 2 ^ 32))) ∧
    (encode (.subImmediate src imm dst) = 0x1B#8 :: idByte src :: (fieldBytes imm ++ [idByte dst]) ∧
      ∃ t, exec (.subImmediate src imm dst) s = .next t ∧
        WritesX s t 7 dst (BitVec.ofInt 32 (((a : Int) - (imm.toNat : Int)) % 2 ^ 32))) ∧
    (encode (.mulImmediate src imm dst) = 0x1C#8 :: idByte src :: (fieldBytes imm ++ [idByte dst]) ∧
      ∃ t, exec (.mulImmediate src imm dst) s = .next t ∧
        WritesX s t 7 dst (BitVec.ofNat 32 ((a * imm.toNat) % 2 ^ 32)))

/-- R174, R178, R180: the unsigned quotient, or DivisionByZero with nothing written. -/
def Obligations.DivisionEffect : Prop :=
  FieldsFault [0x13#8] [.reg, .reg, .reg] ∧ FieldsFault [0x1D#8] [.reg, .imm, .reg] ∧
  ∀ s : State,
    (∀ src1 src2 dst : XReg, encode (.div src1 src2 dst) = [0x13#8, idByte src1, idByte src2, idByte dst] ∧
      (sourceX s 4 src2 ≠ 0#32 → ∃ t, exec (.div src1 src2 dst) s = .next t ∧
        WritesX s t 4 dst (BitVec.ofNat 32 ((sourceX s 4 src1).toNat / (sourceX s 4 src2).toNat))) ∧
      (sourceX s 4 src2 = 0#32 → FaultsWith s .divisionByZero (exec (.div src1 src2 dst) s))) ∧
    (∀ (src : XReg) (imm : Word) (dst : XReg),
      encode (.divImmediate src imm dst) = 0x1D#8 :: idByte src :: (fieldBytes imm ++ [idByte dst]) ∧
      (imm ≠ 0#32 → ∃ t, exec (.divImmediate src imm dst) s = .next t ∧
        WritesX s t 7 dst (BitVec.ofNat 32 ((sourceX s 7 src).toNat / imm.toNat))) ∧
      (imm = 0#32 → FaultsWith s .divisionByZero (exec (.divImmediate src imm dst) s)))

/-- R191 to R194, with R190's two functions of the whole amount. -/
def Obligations.ShiftEffect : Prop :=
  (∀ b ∈ [0x14#8, 0x15#8], FieldsFault [b] [.reg, .reg, .reg]) ∧
  (∀ b ∈ [0x1E#8, 0x1F#8], FieldsFault [b] [.reg, .imm, .reg]) ∧
  ∀ s : State,
    (∀ src1 src2 dst : XReg,
      encode (.shl src1 src2 dst) = [0x14#8, idByte src1, idByte src2, idByte dst] ∧
      (∃ t, exec (.shl src1 src2 dst) s = .next t ∧ WritesX s t 4 dst (specShl (sourceX s 4 src1) (sourceX s 4 src2))) ∧
      encode (.shr src1 src2 dst) = [0x15#8, idByte src1, idByte src2, idByte dst] ∧
      (∃ t, exec (.shr src1 src2 dst) s = .next t ∧
        WritesX s t 4 dst (specShr (sourceX s 4 src1) (sourceX s 4 src2)))) ∧
    (∀ (src : XReg) (imm : Word) (dst : XReg),
      encode (.shlImmediate src imm dst) = 0x1E#8 :: idByte src :: (fieldBytes imm ++ [idByte dst]) ∧
      (∃ t, exec (.shlImmediate src imm dst) s = .next t ∧ WritesX s t 7 dst (specShl (sourceX s 7 src) imm)) ∧
      encode (.shrImmediate src imm dst) = 0x1F#8 :: idByte src :: (fieldBytes imm ++ [idByte dst]) ∧
      (∃ t, exec (.shrImmediate src imm dst) s = .next t ∧ WritesX s t 7 dst (specShr (sourceX s 7 src) imm)))

/-! ## Float arithmetic (R200 to R212) -/

/-- R204 to R207: the result of `FloatOps` on the two patterns, any quiet NaN where that is a NaN (its other bits
are free, log entry 3); no fault, no flag. -/
def Obligations.FloatThreeRegisterEffect : Prop :=
  (∀ b ∈ [0x16#8, 0x17#8, 0x18#8, 0x19#8], FieldsFault [b] [.reg, .reg, .reg]) ∧
  ∀ (s : State) (src1 src2 dst : FReg),
    let result (op : FloatOp) := FloatResultOf op (s.readF src1) (s.readF src2)
    (encode (.addFloat src1 src2 dst) = [0x16#8, idByte src1, idByte src2, idByte dst] ∧
      ∃ t, exec (.addFloat src1 src2 dst) s = .next t ∧ WritesF s t 4 dst (result .add)) ∧
    (encode (.subFloat src1 src2 dst) = [0x17#8, idByte src1, idByte src2, idByte dst] ∧
      ∃ t, exec (.subFloat src1 src2 dst) s = .next t ∧ WritesF s t 4 dst (result .sub)) ∧
    (encode (.mulFloat src1 src2 dst) = [0x18#8, idByte src1, idByte src2, idByte dst] ∧
      ∃ t, exec (.mulFloat src1 src2 dst) s = .next t ∧ WritesF s t 4 dst (result .mul)) ∧
    (encode (.divFloat src1 src2 dst) = [0x19#8, idByte src1, idByte src2, idByte dst] ∧
      ∃ t, exec (.divFloat src1 src2 dst) s = .next t ∧ WritesF s t 4 dst (result .div))

/-- R208 to R211: the same with the immediate as the right operand's pattern. -/
def Obligations.FloatImmediateEffect : Prop :=
  (∀ b ∈ [0x20#8, 0x21#8, 0x22#8, 0x23#8], FieldsFault [b] [.reg, .imm, .reg]) ∧
  ∀ (s : State) (src : FReg) (imm : FloatPattern) (dst : FReg),
    let result (op : FloatOp) := FloatResultOf op (s.readF src) imm
    (encode (.addFloatImmediate src imm dst) = 0x20#8 :: idByte src :: (fieldBytes imm ++ [idByte dst]) ∧
      ∃ t, exec (.addFloatImmediate src imm dst) s = .next t ∧ WritesF s t 7 dst (result .add)) ∧
    (encode (.subFloatImmediate src imm dst) = 0x21#8 :: idByte src :: (fieldBytes imm ++ [idByte dst]) ∧
      ∃ t, exec (.subFloatImmediate src imm dst) s = .next t ∧ WritesF s t 7 dst (result .sub)) ∧
    (encode (.mulFloatImmediate src imm dst) = 0x22#8 :: idByte src :: (fieldBytes imm ++ [idByte dst]) ∧
      ∃ t, exec (.mulFloatImmediate src imm dst) s = .next t ∧ WritesF s t 7 dst (result .mul)) ∧
    (encode (.divFloatImmediate src imm dst) = 0x23#8 :: idByte src :: (fieldBytes imm ++ [idByte dst]) ∧
      ∃ t, exec (.divFloatImmediate src imm dst) s = .next t ∧ WritesF s t 7 dst (result .div))

/-- R201: the value of a finite pattern, in units of 2^-149, is the one the format gives it. -/
def Obligations.FinitePatternHasItsFormatValue : Prop :=
  ∀ v : FloatPattern, isFinite v = true →
    (floatUnits v : ℚ) * 2 ^ (-149 : ℤ) =
      (if v.getLsbD 31 then -1 else 1) *
        (if (v.toNat / 2 ^ 23) % 2 ^ 8 = 0 then ((v.toNat % 2 ^ 23 : Nat) : ℚ) * 2 ^ (-149 : ℤ)
         else ((2 ^ 23 + v.toNat % 2 ^ 23 : Nat) : ℚ) * 2 ^ (((v.toNat / 2 ^ 23) % 2 ^ 8 : Nat) - 150 : ℤ))

/-- R201: which patterns are finite, infinities and NaNs; and where infinities stand among the values (R221): each beyond
every finite value on its side. That the model gives an infinity a number of units at all is its own device. -/
def Obligations.NonFinitePatternsOfTheFormat : Prop :=
  ∀ v : FloatPattern,
    (isFinite v = true ↔ v.toNat % 2 ^ 31 < 0x7F800000) ∧
    (isInfinite v = true ↔ v = 0x7F800000#32 ∨ v = 0xFF800000#32) ∧
    (isNaN v = true ↔ 0x7F800000 < v.toNat % 2 ^ 31) ∧
    (∀ w : FloatPattern, isFinite w = true →
      (v = 0x7F800000#32 → floatUnits w < floatUnits v) ∧ (v = 0xFF800000#32 → floatUnits v < floatUnits w))

/-- R202: a sum or difference of finite values that is not exactly zero is correctly rounded; an exact zero is +0 except
(-0) + (-0) and (-0) - (+0). -/
def Obligations.FloatSumIsCorrectlyRounded : Prop :=
  ∀ a b : FloatPattern, isFinite a = true → isFinite b = true →
    (floatUnits a + floatUnits b ≠ 0 → ∃ v, floatArith .add a b = .pattern v ∧
      CorrectlyRounded (decide (floatUnits a + floatUnits b < 0)) (floatUnits a + floatUnits b).natAbs 1 v) ∧
    (floatUnits a + floatUnits b = 0 → floatArith .add a b =
      .pattern (if a = 0x80000000#32 ∧ b = 0x80000000#32 then 0x80000000#32 else 0#32)) ∧
    (floatUnits a - floatUnits b ≠ 0 → ∃ v, floatArith .sub a b = .pattern v ∧
      CorrectlyRounded (decide (floatUnits a - floatUnits b < 0)) (floatUnits a - floatUnits b).natAbs 1 v) ∧
    (floatUnits a - floatUnits b = 0 → floatArith .sub a b =
      .pattern (if a = 0x80000000#32 ∧ b = 0#32 then 0x80000000#32 else 0#32))

/-- R202: a product of finite values is correctly rounded, with the exclusive-or of the signs, zeros included. -/
def Obligations.FloatProductIsCorrectlyRounded : Prop :=
  ∀ a b : FloatPattern, isFinite a = true → isFinite b = true →
    ∃ v, floatArith .mul a b = .pattern v ∧
      CorrectlyRounded (floatSign a != floatSign b) (floatMagnitude a * floatMagnitude b) (2 ^ 149) v

/-- R202: a quotient of finite values with a non-zero divisor is correctly rounded, likewise. -/
def Obligations.FloatQuotientIsCorrectlyRounded : Prop :=
  ∀ a b : FloatPattern, isFinite a = true → isFinite b = true → isZero b = false →
    ∃ v, floatArith .div a b = .pattern v ∧
      CorrectlyRounded (floatSign a != floatSign b) (floatMagnitude a * 2 ^ 149) (floatMagnitude b) v

/-- R202, the special cases: NaN operands, the invalid operations, infinities, zero divisors. Two clauses are the model's
reading, log entry 11: an infinity divided by a zero is the infinity of the exclusive-or of the signs (R202 says it of a finite
non-zero value), and an infinity plus or minus a finite value is the infinity its sign gives. -/
def Obligations.FloatSpecialCases : Prop :=
  ∀ a b : FloatPattern,
    let infinity (neg : Bool) : FloatPattern := if neg then 0xFF800000#32 else 0x7F800000#32
    let zero (neg : Bool) : FloatPattern := if neg then 0x80000000#32 else 0#32
    let sign := floatSign a != floatSign b
    (isNaN a = true ∨ isNaN b = true → ∀ op, floatArith op a b = .nan) ∧
    (isNaN a = false → isNaN b = false →
      (isInfinite a = true → isInfinite b = true → sign = true →
        floatArith .add a b = .nan ∧ floatArith .sub a b = .pattern a) ∧
      (isInfinite a = true → isInfinite b = true → sign = false →
        floatArith .add a b = .pattern a ∧ floatArith .sub a b = .nan) ∧
      (isInfinite a = true → isInfinite b = false →
        floatArith .add a b = .pattern a ∧ floatArith .sub a b = .pattern a) ∧
      (isInfinite a = false → isInfinite b = true →
        floatArith .add a b = .pattern b ∧ floatArith .sub a b = .pattern (infinity (!floatSign b))) ∧
      (isInfinite a = true ∨ isInfinite b = true → isZero a = true ∨ isZero b = true → floatArith .mul a b = .nan) ∧
      (isInfinite a = true ∨ isInfinite b = true → isZero a = false → isZero b = false →
        floatArith .mul a b = .pattern (infinity sign)) ∧
      (isZero a = true → isZero b = true → floatArith .div a b = .nan) ∧
      (isInfinite a = true → isInfinite b = true → floatArith .div a b = .nan) ∧
      (isZero a = false → isZero b = true → floatArith .div a b = .pattern (infinity sign)) ∧
      (isInfinite a = true → isInfinite b = false → floatArith .div a b = .pattern (infinity sign)) ∧
      (isInfinite a = false → isInfinite b = true → floatArith .div a b = .pattern (zero sign)))

/-! ## Compares and jumps (R220 to R244) -/

/-- R220. -/
def Obligations.CompareEffect : Prop :=
  FieldsFault [0x2E#8] [.reg, .reg] ∧
  ∀ (s : State) (reg1 reg2 : XReg),
    encode (.compare reg1 reg2) = [0x2E#8, idByte reg1, idByte reg2] ∧
    ∃ t, exec (.compare reg1 reg2) s = .next t ∧ WritesFlags s t 3 2 ∧
      (sourceX s 3 reg1 = sourceX s 3 reg2 → testFlag t.flags 0 = true ∧ testFlag t.flags 1 = false) ∧
      ((sourceX s 3 reg2).toNat < (sourceX s 3 reg1).toNat → testFlag t.flags 0 = false ∧ testFlag t.flags 1 = true) ∧
      ((sourceX s 3 reg1).toNat < (sourceX s 3 reg2).toNat → testFlag t.flags 0 = false ∧ testFlag t.flags 1 = false)

/-- R221. The bound of OVERFLOW is `FLT_MAX` = (2^24 - 1) * 2^104 in units of 2^-149. The order of infinities is spelled by
their class and sign: each equals itself, +inf is greater and -inf less than every other value. -/
def Obligations.CompareFloatEffect : Prop :=
  FieldsFault [0x2F#8] [.reg, .reg] ∧
  ∀ (s : State) (reg1 reg2 : FReg),
    let a := s.readF reg1
    let b := s.readF reg2
    encode (.compareFloat reg1 reg2) = [0x2F#8, idByte reg1, idByte reg2] ∧
    ∃ t, exec (.compareFloat reg1 reg2) s = .next t ∧ WritesFlags s t 3 3 ∧
      (isNaN a = true ∨ isNaN b = true →
        testFlag t.flags 0 = false ∧ testFlag t.flags 1 = false ∧ testFlag t.flags 2 = false) ∧
      (isNaN a = false → isNaN b = false → floatUnits a = floatUnits b →
        testFlag t.flags 0 = true ∧ testFlag t.flags 1 = false) ∧
      (isNaN a = false → isNaN b = false → floatUnits b < floatUnits a →
        testFlag t.flags 0 = false ∧ testFlag t.flags 1 = true) ∧
      (isNaN a = false → isNaN b = false → floatUnits a < floatUnits b →
        testFlag t.flags 0 = false ∧ testFlag t.flags 1 = false) ∧
      (isInfinite a = true → isInfinite b = true → floatSign a = floatSign b →
        testFlag t.flags 0 = true ∧ testFlag t.flags 1 = false) ∧
      (isInfinite a = true → floatSign a = false → isNaN b = false → ¬(isInfinite b = true ∧ floatSign b = false) →
        testFlag t.flags 0 = false ∧ testFlag t.flags 1 = true) ∧
      (isInfinite b = true → floatSign b = true → isNaN a = false → ¬(isInfinite a = true ∧ floatSign a = true) →
        testFlag t.flags 0 = false ∧ testFlag t.flags 1 = true) ∧
      (isInfinite a = true → floatSign a = true → isNaN b = false → ¬(isInfinite b = true ∧ floatSign b = true) →
        testFlag t.flags 0 = false ∧ testFlag t.flags 1 = false) ∧
      (isInfinite b = true → floatSign b = false → isNaN a = false → ¬(isInfinite a = true ∧ floatSign a = false) →
        testFlag t.flags 0 = false ∧ testFlag t.flags 1 = false) ∧
      (testFlag t.flags 2 = true ↔ isFinite a = true ∧ isFinite b = true ∧
        (2 ^ 24 - 1) * 2 ^ (104 + 149) < |floatUnits a - floatUnits b|)

/-- R232 to R236, with the conditions of R230 spelled over bits 0 (ZERO), 1 (SIGN) and 2 (OVERFLOW) of `x[14]`. -/
def Obligations.AbsoluteJumpEffect : Prop :=
  (∀ b ∈ [0x24#8, 0x25#8, 0x26#8, 0x27#8, 0x28#8], FieldsFault [b] [.addr]) ∧
  ∀ (s : State) (addr : Word), addr.toNat < Config.memorySize →
    let z := testFlag s.flags 0 = true
    let same := testFlag s.flags 1 = testFlag s.flags 2
    (encode (.jump addr) = 0x24#8 :: fieldBytes addr ∧ ∃ t, exec (.jump addr) s = .next t ∧ MovesPc s t addr) ∧
    (encode (.jumpZero addr) = 0x25#8 :: fieldBytes addr ∧
      ∃ t, exec (.jumpZero addr) s = .next t ∧ MovesPc s t (if z then addr else s.pc + 5#32)) ∧
    (encode (.jumpEqual addr) = 0x26#8 :: fieldBytes addr ∧
      ∃ t, exec (.jumpEqual addr) s = .next t ∧ MovesPc s t (if z then addr else s.pc + 5#32)) ∧
    (encode (.jumpLessThan addr) = 0x27#8 :: fieldBytes addr ∧
      ∃ t, exec (.jumpLessThan addr) s = .next t ∧ MovesPc s t (if z ∨ ¬same then addr else s.pc + 5#32)) ∧
    (encode (.jumpGreaterThan addr) = 0x28#8 :: fieldBytes addr ∧
      ∃ t, exec (.jumpGreaterThan addr) s = .next t ∧ MovesPc s t (if z ∧ same then addr else s.pc + 5#32))

/-- R237 to R241: the same conditions on the target in `x[reg]`, which is validated whether or not the jump is taken. -/
def Obligations.RegisterJumpEffect : Prop :=
  (∀ b ∈ [0x29#8, 0x2A#8, 0x2B#8, 0x2C#8, 0x2D#8], FieldsFault [b] [.reg]) ∧
  ∀ (s : State) (reg : XReg),
    let target := sourceX s 2 reg
    let z := testFlag s.flags 0 = true
    let same := testFlag s.flags 1 = testFlag s.flags 2
    encode (.jumpRegister reg) = [0x29#8, idByte reg] ∧ encode (.jumpRegisterZero reg) = [0x2A#8, idByte reg] ∧
    encode (.jumpRegisterEqual reg) = [0x2B#8, idByte reg] ∧ encode (.jumpRegisterLessThan reg) = [0x2C#8, idByte reg] ∧
    encode (.jumpRegisterGreaterThan reg) = [0x2D#8, idByte reg] ∧
    (target.toNat < Config.memorySize →
      (∃ t, exec (.jumpRegister reg) s = .next t ∧ MovesPc s t target) ∧
      (∃ t, exec (.jumpRegisterZero reg) s = .next t ∧ MovesPc s t (if z then target else s.pc + 2#32)) ∧
      (∃ t, exec (.jumpRegisterEqual reg) s = .next t ∧ MovesPc s t (if z then target else s.pc + 2#32)) ∧
      (∃ t, exec (.jumpRegisterLessThan reg) s = .next t ∧
        MovesPc s t (if z ∨ ¬same then target else s.pc + 2#32)) ∧
      (∃ t, exec (.jumpRegisterGreaterThan reg) s = .next t ∧
        MovesPc s t (if z ∧ same then target else s.pc + 2#32))) ∧
    (Config.memorySize ≤ target.toNat →
      FaultsWith s .invalidAddress (exec (.jumpRegister reg) s) ∧
      FaultsWith s .invalidAddress (exec (.jumpRegisterZero reg) s) ∧
      FaultsWith s .invalidAddress (exec (.jumpRegisterEqual reg) s) ∧
      FaultsWith s .invalidAddress (exec (.jumpRegisterLessThan reg) s) ∧
      FaultsWith s .invalidAddress (exec (.jumpRegisterGreaterThan reg) s))

/-- R222, R223, R295: what each absolute conditional jump does after an integer COMPARE, with OVERFLOW clear and set. -/
def Obligations.ConditionalJumpsAfterCompare : Prop :=
  ∀ (s : State) (reg1 reg2 : XReg) (addr : Word), addr.toNat < Config.memorySize →
    let a := (sourceX s 3 reg1).toNat
    let b := (sourceX s 3 reg2).toNat
    let stale := testFlag s.flags 2 = true
    ∃ t, exec (.compare reg1 reg2) s = .next t ∧
      (∃ u, exec (.jumpZero addr) t = .next u ∧ u.pc = if a = b then addr else s.pc + 8#32) ∧
      (∃ u, exec (.jumpEqual addr) t = .next u ∧ u.pc = if a = b then addr else s.pc + 8#32) ∧
      (∃ u, exec (.jumpLessThan addr) t = .next u ∧
        u.pc = if (if stale then a ≤ b else b ≤ a) then addr else s.pc + 8#32) ∧
      (∃ u, exec (.jumpGreaterThan addr) t = .next u ∧ u.pc = if a = b ∧ ¬stale then addr else s.pc + 8#32)

/-! ## The host's commands (R280 to R289) -/

/-- R284: no move while Running; else nothing copied when the buffer is too large, and otherwise its bytes from 0 upward and
nothing else changed. -/
def Obligations.LoadProgramCopiesTheBuffer : Prop :=
  ∀ (s : State) (bytes : List Byte),
    (s.runState = .running → hostCommand (.loadProgram bytes) s = none) ∧
    (s.runState ≠ .running → 65536 < bytes.length →
      hostCommand (.loadProgram bytes) s = some (.failed .programTooLarge, s)) ∧
    (s.runState ≠ .running → bytes.length ≤ 65536 → s.mem.wf = true →
      ∃ t, hostCommand (.loadProgram bytes) s = some (.done, t) ∧
        (∀ a, t.readByte a = if h : a < bytes.length then bytes[a] else s.readByte a) ∧
        (∀ r, t.readX r = s.readX r) ∧ SameFloats s t ∧ SameControl s t)

/-- R285, R287: `start` turns Halted into Running and nothing else; `is_running` tells Running. -/
def Obligations.StartAndIsRunning : Prop :=
  ∀ s : State,
    (s.runState = .halted → hostCommand .start s = some (.done, { s with runState := .running })) ∧
    (s.runState ≠ .halted → hostCommand .start s = some (.done, s)) ∧
    (s.runState = .running → hostCommand .isRunning s = some (.flag true, s)) ∧
    (s.runState ≠ .running → hostCommand .isRunning s = some (.flag false, s))

/-- R286, R298: in Faulted a bounded run does nothing and reports the recorded cause; else it forces Running and repeats
`Step()`, one for each unit of its bound, and reports success in Halted and the recorded cause in Faulted. That a run takes a
bound on its steps, and what it reports when it uses it up, is the model's choice, log entry 9. -/
def Obligations.RunReportsHowItEnds : Prop :=
  ∀ (s : State) (bound : Nat),
    let forced : State := { s with runState := .running }
    (s.runState = .faulted → hostCommand (.run bound) s = some (.report (.fault s.faultCause), s)) ∧
    (s.runState ≠ .faulted → hostCommand (.run 0) s = some (.report .unfinished, forced)) ∧
    (s.runState ≠ .faulted → ∃ t, step forced = .next t ∧
      hostCommand (.run (bound + 1)) s = some (.report (runReport (runSteps bound t)), runSteps bound t)) ∧
    (s.runState ≠ .faulted → ∃ t, hostCommand (.run bound) s = some (.report (runReport t), t) ∧
      t = runSteps bound forced ∧
      (t.runState = .halted → runReport t = .success) ∧
      (t.runState = .faulted → runReport t = .fault t.faultCause))

/-- R121, R286, R298: the loop repeats `Step()` while Running and stops in Halted and Faulted, and a host may bound it
anywhere: `m + n` steps are `m` and then `n`. The bound is the model's choice, log entry 9. -/
def Obligations.RunRepeatsStep : Prop :=
  ∀ (s : State) (n : Nat),
    runSteps 0 s = s ∧
    (∀ t, step s = .next t → runSteps (n + 1) s = runSteps n t) ∧
    (s.runState = .running → ∃ t, step s = .next t ∧ runSteps (n + 1) s = runSteps n t) ∧
    (RunEnded s → runSteps n s = s) ∧
    ∀ m, runSteps (m + n) s = runSteps n (runSteps m s)

/-- R22, R288: while not Running the host reads any register, float register, memory (with the bounds test of `MemRead`),
`run_state` and `fault_cause`, and the reads change nothing. The widths of a memory read are log entry 8. -/
def Obligations.HostReadsTheState : Prop :=
  ∀ s : State, s.runState ≠ .running →
    (∀ id, hostCommand (.readRegister id) s = some (.word (s.readX id), s)) ∧
    hostCommand (.readRegister 12) s = some (.word s.sp, s) ∧
    hostCommand (.readRegister 13) s = some (.word s.pc, s) ∧
    hostCommand (.readRegister 14) s = some (.word s.flags, s) ∧
    (∀ id, hostCommand (.readFloatRegister id) s = some (.pattern (s.readF id), s)) ∧
    hostCommand .readRunState s = some (.runState s.runState, s) ∧
    hostCommand .readFaultCause s = some (.faultCause s.faultCause, s) ∧
    ∀ addr : Word,
      (addr.toNat + 4 ≤ 65536 → hostCommand (.readMemory addr .four) s = some (.word (wordAt s addr.toNat), s)) ∧
      (65536 < addr.toNat + 4 → hostCommand (.readMemory addr .four) s = some (.failed .outOfBounds, s)) ∧
      (addr.toNat + 2 ≤ 65536 → hostCommand (.readMemory addr .two) s =
        some (.word (0#16 ++ s.readByte (addr.toNat + 1) ++ s.readByte addr.toNat), s)) ∧
      (65536 < addr.toNat + 2 → hostCommand (.readMemory addr .two) s = some (.failed .outOfBounds, s)) ∧
      (addr.toNat + 1 ≤ 65536 → hostCommand (.readMemory addr .one) s =
        some (.word (0#24 ++ s.readByte addr.toNat), s)) ∧
      (65536 < addr.toNat + 1 → hostCommand (.readMemory addr .one) s = some (.failed .outOfBounds, s))

/-- R22, R288: while not Running the host writes any register, float register or memory through the State's write
primitives; a register written reads back, a store gives its bytes, and nothing else changes. The widths of a memory write are log entry 8. -/
def Obligations.HostWritesTheState : Prop :=
  ∀ s : State, s.runState ≠ .running →
    (∀ (id : XReg) (v : Word), ∃ t, hostCommand (.writeRegister id v) s = some (.done, t) ∧
      hostCommand (.readRegister id) t = some (.word v, t) ∧ t.readX id = v ∧ (∀ r, r ≠ id → t.readX r = s.readX r) ∧
      SameFloats s t ∧ SameMemory s t ∧ SameControl s t) ∧
    (∀ (id : FReg) (v : FloatPattern), ∃ t, hostCommand (.writeFloatRegister id v) s = some (.done, t) ∧
      hostCommand (.readFloatRegister id) t = some (.pattern v, t) ∧ t.readF id = v ∧
      (∀ r, r ≠ id → t.readF r = s.readF r) ∧ (∀ r, t.readX r = s.readX r) ∧ SameMemory s t ∧ SameControl s t) ∧
    ∀ addr v : Word,
      (s.mem.wf = true → addr.toNat + 4 ≤ 65536 → ∃ t,
        hostCommand (.writeMemory addr .four v) s = some (.done, t) ∧ HostStores s t addr.toNat 4 v) ∧
      (65536 < addr.toNat + 4 → hostCommand (.writeMemory addr .four v) s = some (.failed .outOfBounds, s)) ∧
      (s.mem.wf = true → addr.toNat + 2 ≤ 65536 → ∃ t,
        hostCommand (.writeMemory addr .two v) s = some (.done, t) ∧ HostStores s t addr.toNat 2 v) ∧
      (65536 < addr.toNat + 2 → hostCommand (.writeMemory addr .two v) s = some (.failed .outOfBounds, s)) ∧
      (s.mem.wf = true → addr.toNat + 1 ≤ 65536 → ∃ t,
        hostCommand (.writeMemory addr .one v) s = some (.done, t) ∧ HostStores s t addr.toNat 1 v) ∧
      (65536 < addr.toNat + 1 → hostCommand (.writeMemory addr .one v) s = some (.failed .outOfBounds, s))

/-- R258, R280, R288, R289: in Faulted only `reset`, `load_program` and the host's writes may change anything, and `run_state`
and `fault_cause` leave it by `reset` alone; `reset` gives the reset state; while Running the host may not reset, load, read or
write. That `reset` is no move while Running although R280 names any run state, and that `start`, `run` and `is_running` are
moves then, is the model's reading, log entry 7. -/
def Obligations.HostCommandLegality : Prop :=
  ∀ (s : State) (c : HostCommand),
    (s.runState = .faulted → hostWrites c = false → ∀ r t, hostCommand c s = some (r, t) → t = s) ∧
    (s.runState = .faulted → c ≠ .reset → ∀ r t, hostCommand c s = some (r, t) →
      t.runState = .faulted ∧ t.faultCause = s.faultCause) ∧
    (s.runState ≠ .running → ∃ t, hostCommand .reset s = some (.done, t) ∧ SameSpecState State.reset t) ∧
    (s.runState = .running →
      (hostCommand c s = none ↔ c ≠ .start ∧ c ≠ .isRunning ∧ ∀ bound, c ≠ .run bound)) ∧
    (s.runState ≠ .running → hostCommand c s ≠ none)

/-- 60_exceptions.md R260: `ProgramTooLarge` is never recorded, whatever the host and the machine do.
The memory's canonical form is the model's choice (log entry 6), and so is which commands are legal (log entry 7). -/
def Obligations.HostCommandsKeepTheInvariant : Prop :=
  ∀ (s t : State) (c : HostCommand) (r : HostReply), Machine.Inv s → hostCommand c s = some (r, t) → Machine.Inv t
end

