-- ==== Sys2Proof/Laws/Decode.lean ====
section
/-! SUPPORT. Lemmas about the little-endian helpers, the opcode map and the operand fields: each says once what its
function gives, so that a proof about `decode` or `encode` cites it. -/

namespace Sys2Proof

/-! ## Byte order (20_memory.md R57) -/

theorem leBytes_length (n v : Nat) : (leBytes n v).length = n := by
  induction n generalizing v with
  | zero => rfl
  | succ n ih => simp [leBytes, ih]

theorem leValue_lt (bs : List Byte) : leValue bs < 256 ^ bs.length := by
  induction bs with
  | nil => simp [leValue]
  | cons b bs ih =>
    have hb := b.isLt
    simp only [leValue, List.length_cons, Nat.pow_succ]
    omega

/-- Writing out a value and reading it back gives its low bytes. -/
theorem leValue_leBytes (n v : Nat) : leValue (leBytes n v) = v % 256 ^ n := by
  induction n generalizing v with
  | zero => simp [leBytes, leValue, Nat.mod_one]
  | succ n ih =>
    rw [leBytes, leValue, ih, BitVec.toNat_ofNat, show 256 ^ (n + 1) = 256 * 256 ^ n from Nat.pow_succ', Nat.mod_mul]

/-- Reading bytes and writing the value out gives the bytes. -/
theorem leBytes_leValue (bs : List Byte) : leBytes bs.length (leValue bs) = bs := by
  induction bs with
  | nil => rfl
  | cons b bs ih =>
    have hb := b.isLt
    have hdiv : leValue (b :: bs) / 256 = leValue bs := by simp only [leValue]; omega
    have hlow : BitVec.ofNat 8 (leValue (b :: bs)) = b := by
      apply BitVec.eq_of_toNat_eq
      rw [BitVec.toNat_ofNat]
      simp only [leValue]
      omega
    rw [List.length_cons, leBytes, hdiv, ih, hlow]

/-- Byte `k` of a written-out value is bits `8k+7:8k` of it (20_memory.md R55). -/
theorem leBytes_getElem (n v k : Nat) (h : k < (leBytes n v).length) :
    (leBytes n v)[k] = BitVec.ofNat 8 (v / 256 ^ k) := by
  induction n generalizing v k with
  | zero => simp [leBytes] at h
  | succ n ih =>
    cases k with
    | zero => simp [leBytes]
    | succ k =>
      simp only [leBytes, List.getElem_cons_succ]
      rw [ih, Nat.div_div_eq_div_mul, Nat.pow_succ, Nat.mul_comm (256 ^ k) 256]

/-- The byte at bits `8k+7:8k` of a word (20_memory.md R55). -/
theorem byte_of_word {w : Nat} (v : BitVec w) (k : Nat) : BitVec.ofNat 8 (v.toNat / 256 ^ k) = v.extractLsb' (8 * k) 8 := by
  apply BitVec.eq_of_toNat_eq
  rw [BitVec.toNat_ofNat, BitVec.extractLsb'_toNat, Nat.shiftRight_eq_div_pow, Nat.pow_mul]

/-- The bound of a word, and of a float pattern, as a numeral (00_scope.md R8). -/
theorem word_lt (v : Word) : v.toNat < 4294967296 := v.isLt

/-! ## The opcode map (30_encoding.md R86, R89) -/

/-- The number of an opcode names that opcode and no other: no two rows of R86 overlap. -/
theorem ofByte_byte (o : Opcode) : Opcode.ofByte o.byte = some o := by
  cases o <;> decide

/-- A byte that names an opcode is that opcode's byte. -/
theorem byte_of_ofByte {b : Byte} {o : Opcode} (h : Opcode.ofByte b = some o) : o.byte = b := by
  have hp := List.find?_some h
  simp only [beq_iff_eq] at hp
  apply BitVec.eq_of_toNat_eq
  rw [Opcode.byte, hp, BitVec.ofNat_toNat, BitVec.setWidth_eq]

/-- The length of the longest instruction, as a numeral (30_encoding.md R92). -/
@[simp] theorem maxLength_eq : maxLength = 7 := rfl

/-! ## A field of any width (30_encoding.md R81, 40_fetch_decode_dispatch.md R113) -/

/-- A written-out value is read back, modulo what its bytes hold. -/
theorem takeField_leBytes (n v : Nat) (rest : List Byte) :
    takeField n (leBytes n v ++ rest) = .ok (v % 256 ^ n, rest) := by
  have hl := leBytes_length n v
  rw [takeField, if_neg (by rw [List.length_append]; omega), List.take_left' hl, List.drop_left' hl, leValue_leBytes]

/-- A field that is read is the bytes of its value. -/
theorem takeField_ok {n v : Nat} {bs rest : List Byte} (h : takeField n bs = .ok (v, rest)) :
    bs = leBytes n v ++ rest ∧ v < 256 ^ n := by
  unfold takeField at h
  split at h
  · simp at h
  · next hn =>
    simp only [Except.ok.injEq, Prod.mk.injEq] at h
    obtain ⟨rfl, rfl⟩ := h
    have hl : (bs.take n).length = n := by rw [List.length_take]; omega
    have hb := leBytes_leValue (bs.take n)
    have hv := leValue_lt (bs.take n)
    rw [hl] at hb hv
    rw [hb, List.take_append_drop]
    exact ⟨rfl, hv⟩

/-- A field is cut off exactly when fewer bytes are left than it has (R113). -/
theorem takeField_short {n : Nat} {bs : List Byte} (h : bs.length < n) :
    takeField n bs = .error .truncatedInstruction := if_pos h

theorem takeField_error {n : Nat} {bs : List Byte} {k : FaultKind} (h : takeField n bs = .error k) :
    k = .truncatedInstruction := by
  unfold takeField at h
  split at h
  · simpa using h.symm
  · simp at h

/-! ## Operand fields (30_encoding.md R83 to R85) -/

@[simp] theorem takeReg_nil (n : Nat) : takeReg n [] = .error .truncatedInstruction := rfl

/-- A register field, spelled over its one byte. -/
theorem takeReg_cons (n : Nat) (b : Byte) (rest : List Byte) :
    takeReg n (b :: rest) = if h : b.toNat < n then .ok (⟨b.toNat, h⟩, rest) else .error .invalidRegisterId := rfl

theorem takeReg_cons_bad {n : Nat} {b : Byte} (rest : List Byte) (h : n ≤ b.toNat) :
    takeReg n (b :: rest) = .error .invalidRegisterId := by
  rw [takeReg_cons, dif_neg (Nat.not_lt.2 h)]

/-- A register field holds any id of a file of at most 256 registers. -/
@[simp] theorem takeReg_registerBytes {n : Nat} (hn : n ≤ 256) (r : Fin n) (rest : List Byte) :
    takeReg n (registerBytes r ++ rest) = .ok (r, rest) := by
  have hr : r.val % 256 ^ Config.registerIdWidth = r.val := Nat.mod_eq_of_lt (Nat.lt_of_lt_of_le r.isLt hn)
  simp only [takeReg, registerBytes, takeField_leBytes, hr, r.isLt, dite_true]

/-- A register field that is read is the bytes of its id (30_encoding.md R83). -/
theorem takeReg_ok {n : Nat} {bs rest : List Byte} {r : Fin n} (h : takeReg n bs = .ok (r, rest)) :
    bs = registerBytes r ++ rest := by
  unfold takeReg at h
  split at h
  · simp at h
  · next v rest' hf =>
    split at h
    · simp only [Except.ok.injEq, Prod.mk.injEq] at h
      obtain ⟨rfl, rfl⟩ := h
      exact (takeField_ok hf).1
    · simp at h

/-- The faults a register field can give (40_fetch_decode_dispatch.md R118). -/
theorem takeReg_error {n : Nat} {bs : List Byte} {k : FaultKind} (h : takeReg n bs = .error k) :
    k = .truncatedInstruction ∨ k = .invalidRegisterId := by
  unfold takeReg at h
  split at h
  · next hf => cases h; exact .inl (takeField_error hf)
  · split at h
    · simp at h
    · right; simpa using h.symm

/-- Both immediates fill their four-byte field exactly (30_encoding.md R85). -/
theorem immediate_width (imm : Immediate) : imm.width = 4 := by cases imm <;> rfl

/-- An immediate that fits its field is read back from it. -/
@[simp] theorem takeImmediate_immediateBytes {w : Nat} (hw : w ≤ 32) (imm : Immediate) (v : BitVec w) (rest : List Byte) :
    takeImmediate w imm (immediateBytes imm v ++ rest) = .ok (v, rest) := by
  have hv : v.toNat % 256 ^ imm.width = v.toNat := by
    rw [immediate_width]
    exact Nat.mod_eq_of_lt (Nat.lt_of_lt_of_le v.isLt (Nat.pow_le_pow_right (by omega) hw))
  simp only [takeImmediate, immediateBytes, takeField_leBytes, hv, BitVec.ofNat_toNat, BitVec.setWidth_eq]

/-- An immediate field that is read is its bytes (30_encoding.md R85). -/
theorem takeImmediate_ok {w : Nat} (hw : 32 ≤ w) {imm : Immediate} {bs rest : List Byte} {v : BitVec w}
    (h : takeImmediate w imm bs = .ok (v, rest)) : bs = immediateBytes imm v ++ rest := by
  unfold takeImmediate at h
  split at h
  · simp at h
  · next u rest' hf =>
    simp only [Except.ok.injEq, Prod.mk.injEq] at h
    obtain ⟨rfl, rfl⟩ := h
    obtain ⟨hb, hu⟩ := takeField_ok hf
    rw [immediate_width] at hu
    rw [immediateBytes, BitVec.toNat_ofNat, Nat.mod_eq_of_lt (Nat.lt_of_lt_of_le hu (Nat.pow_le_pow_right (n := 2) (by omega) hw)), hb]

theorem takeImmediate_error {w : Nat} {imm : Immediate} {bs : List Byte} {k : FaultKind}
    (h : takeImmediate w imm bs = .error k) : k = .truncatedInstruction := by
  unfold takeImmediate at h
  split at h
  · next hf => cases h; exact takeField_error hf
  · simp at h

/-- An immediate field is cut off exactly when fewer than four bytes are left (40_fetch_decode_dispatch.md R113). -/
theorem takeImmediate_short {w : Nat} {imm : Immediate} {bs : List Byte} (h : bs.length < 4) :
    takeImmediate w imm bs = .error .truncatedInstruction := by
  rw [takeImmediate, takeField_short (by rwa [immediate_width])]

/-- What an address field gives on the bytes of any word: the word, or InvalidAddress (R84, R116). -/
theorem takeAddr_addressBytes_eq (v : Word) (rest : List Byte) :
    takeAddr (addressBytes v ++ rest) = if addressLegal v then .ok (v, rest) else .error .invalidAddress := by
  have hv : v.toNat % 256 ^ Config.addressWidth = v.toNat := Nat.mod_eq_of_lt v.isLt
  simp only [takeAddr, addressBytes, takeField_leBytes, hv, BitVec.ofNat_toNat, BitVec.setWidth_eq, addressLegal,
    decide_eq_true_eq]

@[simp] theorem takeAddr_addressBytes {v : Word} (h : addressLegal v = true) (rest : List Byte) :
    takeAddr (addressBytes v ++ rest) = .ok (v, rest) := by
  rw [takeAddr_addressBytes_eq, if_pos h]

/-- An address field that is read is its four bytes, and legal (30_encoding.md R84). -/
theorem takeAddr_ok {bs rest : List Byte} {v : Word} (h : takeAddr bs = .ok (v, rest)) :
    bs = addressBytes v ++ rest ∧ addressLegal v = true := by
  unfold takeAddr at h
  split at h
  · simp at h
  · next u rest' hf =>
    split at h
    · next hu =>
      simp only [Except.ok.injEq, Prod.mk.injEq] at h
      obtain ⟨rfl, rfl⟩ := h
      obtain ⟨hb, hlt⟩ := takeField_ok hf
      have hn : (BitVec.ofNat Config.xlen u).toNat = u := by rw [BitVec.toNat_ofNat]; exact Nat.mod_eq_of_lt hlt
      rw [addressBytes, addressLegal, hn]
      exact ⟨hb, by simpa using hu⟩
    · simp at h

theorem takeAddr_error {bs : List Byte} {k : FaultKind} (h : takeAddr bs = .error k) :
    k = .truncatedInstruction ∨ k = .invalidAddress := by
  unfold takeAddr at h
  split at h
  · next hf => cases h; exact .inl (takeField_error hf)
  · split at h
    · simp at h
    · right; simpa using h.symm

/-- An address field is cut off exactly when fewer than four bytes are left (40_fetch_decode_dispatch.md R113). -/
theorem takeAddr_short {bs : List Byte} (h : bs.length < 4) : takeAddr bs = .error .truncatedInstruction := by
  rw [takeAddr, takeField_short h]

end Sys2Proof
end

