-- ==== Sys2Proof/Laws/Float.lean ====
section
/-! SUPPORT. Lemmas about the binary32 format and its one rounding (45_float_arithmetic.md R201, R202): what the fields of a
pattern are, and everything `roundMagnitude`, `negateBinary32` and `quietNaN` can give. -/

namespace Sys2Proof.Machine

/-- The biased exponent as a quotient of the pattern (R201). -/
theorem floatExponent_eq (v : FloatPattern) : floatExponent v = v.toNat / 2^23 % 2^8 := by
  simp [floatExponent, BitVec.extractLsb'_toNat, Nat.shiftRight_eq_div_pow]
/-- The fraction as a remainder of the pattern (R201). -/
theorem floatFraction_eq (v : FloatPattern) : floatFraction v = v.toNat % 2^23 := by
  simp [floatFraction, BitVec.extractLsb'_toNat]
/-- The sign as the upper half of the patterns (R201). -/
theorem floatSign_eq (v : FloatPattern) : floatSign v = decide (2^31 ≤ v.toNat) := by
  simp only [floatSign]; exact BitVec.msb_eq_decide v

/-- The magnitude, in units of 2^-149, of the pattern with the 31 low bits `p`, read without an upper end. -/
def patternMagnitude (p : Nat) : Nat := if p / 2^23 = 0 then p % 2^23 else (2^23 + p % 2^23) * 2^(p / 2^23 - 1)

/-- The pattern that `roundMagnitude` writes for `r` units of 2^k has that magnitude, a carry to 2^24 included. -/
theorem patternMagnitude_scaled (k r : Nat) (hr : r ≤ 2^24) (hk : 0 < k → 2^23 ≤ r) :
    patternMagnitude (k * 2^23 + r) = r * 2^k := by
  unfold patternMagnitude
  rcases Nat.lt_or_ge r (2^23) with h | h
  · have : k = 0 := by omega
    subst this
    rw [if_pos (by omega), Nat.zero_mul, Nat.zero_add, pow_zero, Nat.mul_one]; exact Nat.mod_eq_of_lt h
  · rcases Nat.lt_or_ge r (2^24) with h2 | h2
    · have e1 : (k * 2^23 + r) / 2^23 = k + 1 := by omega
      have e2 : (k * 2^23 + r) % 2^23 = r - 2^23 := by omega
      rw [e1, e2, if_neg (by omega)]
      rw [show k + 1 - 1 = k by omega, Nat.add_sub_of_le h]
    · have hr' : r = 2^24 := by omega
      have e1 : (k * 2^23 + r) / 2^23 = k + 2 := by omega
      have e2 : (k * 2^23 + r) % 2^23 = 0 := by omega
      rw [e1, e2, if_neg (by omega)]
      rw [show k + 2 - 1 = k + 1 by omega, pow_succ, Nat.add_zero, hr', show (2:Nat)^24 = 2^23 * 2 from by norm_num]; ring

/-- No magnitude lies strictly between two neighbours `low` and `low + 1` of the scale 2^k. -/
theorem patternMagnitude_grid (p k low : Nat) (hk : 0 < k → 2^23 ≤ low) :
    patternMagnitude p ≤ low * 2^k ∨ (low + 1) * 2^k ≤ patternMagnitude p := by
  have hm : ∃ f j, patternMagnitude p = f * 2^j ∧ f < 2^24 := by
    unfold patternMagnitude
    split
    · exact ⟨p % 2^23, 0, by simp, by omega⟩
    · exact ⟨2^23 + p % 2^23, p/2^23 - 1, rfl, by omega⟩
  obtain ⟨f, j, h, hf⟩ := hm
  rw [h]
  rcases Nat.lt_or_ge j k with hj | hj
  · left
    have h1 : f * 2^j ≤ 2^24 * 2^j := Nat.mul_le_mul_right _ (by omega)
    have h2 : 2^24 * 2^j = 2^23 * 2^(j+1) := by rw [pow_succ]; ring
    have h3 : 2^(j+1) ≤ 2^k := Nat.pow_le_pow_right (by omega) hj
    calc f * 2^j ≤ 2^23 * 2^(j+1) := by omega
      _ ≤ 2^23 * 2^k := Nat.mul_le_mul_left _ h3
      _ ≤ low * 2^k := Nat.mul_le_mul_right _ (hk (by omega))
  · obtain ⟨d, rfl⟩ := Nat.exists_eq_add_of_le hj
    rw [pow_add, show f * (2^k * 2^d) = (f * 2^d) * 2^k by ring]
    rcases Nat.lt_or_ge low (f * 2^d) with h | h
    · right; exact Nat.mul_le_mul_right _ h
    · left; exact Nat.mul_le_mul_right _ h

/-- What `roundMagnitude` computes on the way: the scale, the two neighbours and the choice between them. -/
structure Rounding (num den k low rest r : Nat) : Prop where
  split : num = low * (den * 2^k) + rest
  restLt : rest < den * 2^k
  lowLt : low < 2^24
  lo : 0 < k → 2^23 ≤ low
  r : r = if 2 * rest > den * 2^k ∨ (2 * rest = den * 2^k ∧ low % 2 = 1) then low + 1 else low

/-- Everything `roundMagnitude` does. -/
theorem exists_rounding (num den : Nat) (hd : 0 < den) :
    ∃ k low rest r, Rounding num den k low rest r ∧ roundMagnitude num den = min (k * 2^23 + r) infinityMagnitude := by
  refine ⟨(num / den).log2 - 23, num / (den * 2^((num / den).log2 - 23)), num % (den * 2^((num / den).log2 - 23)), _, ⟨?_, ?_, ?_, ?_, rfl⟩, rfl⟩
  · rw [Nat.mul_comm, Nat.div_add_mod]
  · exact Nat.mod_lt _ (by positivity)
  · rw [← Nat.div_div_eq_div_mul]
    rw [Nat.div_lt_iff_lt_mul (by positivity), ← pow_add]
    have := Nat.lt_log2_self (n := num / den)
    exact lt_of_lt_of_le this (Nat.pow_le_pow_right (by omega) (by omega))
  · intro hk
    rw [← Nat.div_div_eq_div_mul, Nat.le_div_iff_mul_le (by positivity), ← pow_add]
    have h0 : num / den ≠ 0 := by intro h; rw [h] at hk; simp at hk
    have := Nat.log2_self_le h0
    rwa [show 23 + ((num/den).log2 - 23) = (num/den).log2 by omega]

/-- The rounded pattern reaches infinity exactly from half a last place above `FLT_MAX` upward. -/
theorem rounding_overflow (num den k low rest r : Nat) (hd : 0 < den) (h : Rounding num den k low rest r) :
   ((2 ^ 25 - 1) * 2 ^ 252 * den ≤ num → 255 * 2^23 ≤ k * 2^23 + r) ∧ (num < (2 ^ 25 - 1) * 2 ^ 252 * den → k * 2^23 + r < 255 * 2^23) := by
  have hr : low ≤ r ∧ r ≤ low + 1 := by rw [h.r]; split <;> omega
  have hl := h.lowLt
  have hlo := h.lo
  have hrest := h.restLt
  have hs := h.split
  constructor
  · intro hn
    rcases Nat.lt_or_ge k 253 with hk | hk
    · exfalso
      have h1 : num < 2^24 * (den * 2^k) := by
        calc num < (low + 1) * (den * 2^k) := by rw [hs]; linarith
          _ ≤ _ := Nat.mul_le_mul_right _ (by omega)
      have h2 : den * 2^k ≤ den * 2^252 := Nat.mul_le_mul_left _ (Nat.pow_le_pow_right (by omega) (by omega))
      generalize den * 2^k = a at *
      rw [show (2 ^ 25 - 1) * 2 ^ 252 * den = (2^25 - 1) * (den * 2^252) by ring] at hn
      generalize den * 2^252 = b at *
      omega
    · rcases Nat.lt_or_ge 253 k with hk2 | hk2
      · have := hlo (by omega); omega
      · have hk3 : k = 253 := by omega
        subst hk3
        rw [show (2 ^ 25 - 1) * 2 ^ 252 * den = (2^25 - 1) * (den * 2^252) by ring] at hn
        have e : den * 2^253 = 2 * (den * 2^252) := by ring
        have hb : 0 < den * 2^252 := by positivity
        have hr2 := h.r
        rw [e] at hs hrest hr2
        clear e h
        obtain ⟨b, hbd⟩ : ∃ b, b = den * 2^252 := ⟨_, rfl⟩
        rw [← hbd] at hn hs hrest hr2 hb
        clear hbd
        have : low = 2^24 - 1 := by
          by_contra hne
          have h3 : low + 1 ≤ 2^24 - 1 := by omega
          have := Nat.mul_le_mul_right (2*b) h3
          rw [Nat.add_mul] at this
          omega
        rw [this] at hs
        have h4 : b ≤ rest := by omega
        rw [if_pos (by omega)] at hr2
        omega
  · intro hn
    rcases Nat.lt_or_ge k 253 with hk | hk
    · omega
    · have hk' : k = 253 := by
        by_contra hne
        have h3 := hlo (by omega)
        have h2 : den * 2^254 ≤ den * 2^k := Nat.mul_le_mul_left _ (Nat.pow_le_pow_right (by omega) (by omega))
        have h4 := Nat.mul_le_mul_right (den * 2^k) h3
        rw [show (2 ^ 25 - 1) * 2 ^ 252 * den = (2^25 - 1) * (den * 2^252) by ring] at hn
        rw [show den * 2^254 = 4 * (den * 2^252) by ring] at h2
        generalize den * 2^k = a at *
        generalize den * 2^252 = b at *
        omega
      subst hk'
      by_contra hc
      have h5 : r = 2^24 := by omega
      have h6 : low = 2^24 - 1 := by omega
      have hr2 := h.r
      rw [show (2 ^ 25 - 1) * 2 ^ 252 * den = (2^25 - 1) * (den * 2^252) by ring] at hn
      have e : den * 2^253 = 2 * (den * 2^252) := by ring
      rw [e] at hs hrest hr2
      clear e h
      obtain ⟨b, hbd⟩ : ∃ b, b = den * 2^252 := ⟨_, rfl⟩
      rw [← hbd] at hn hs hrest hr2
      clear hbd
      rw [h6] at hs
      rw [if_neg (by omega)] at hr2
      omega

/-- The magnitude of a finite pattern is that of its 31 low bits. -/
theorem floatMagnitude_eq (v : FloatPattern) (h : isFinite v = true) :
    floatMagnitude v = patternMagnitude (v.toNat % 2^31) ∧ v.toNat % 2^31 < 255 * 2^23 := by
  simp only [isFinite, floatExponent_eq, bne_iff_ne, ne_eq] at h
  constructor
  · unfold floatMagnitude patternMagnitude
    rw [floatExponent_eq, floatFraction_eq]
    have h1 : v.toNat / 2^23 % 2^8 = v.toNat % 2^31 / 2^23 := by omega
    have h2 : v.toNat % 2^23 = v.toNat % 2^31 % 2^23 := by omega
    rw [h1, h2]
  · omega

/-- `roundMagnitude` rounds to nearest, ties to even, and overflows to infinity (R202). -/
theorem correctlyRounded_pack (neg : Bool) (num den : Nat) (hd : 0 < den) :
    CorrectlyRounded neg num den (packFloat neg (roundMagnitude num den)) := by
  obtain ⟨k, low, rest, r, h, hm⟩ := exists_rounding num den hd
  obtain ⟨ho, hf⟩ := rounding_overflow _ _ _ _ _ _ hd h
  have hr : low ≤ r ∧ r ≤ low + 1 := by rw [h.r]; split <;> omega
  have hl := h.lowLt
  have hP : (packFloat neg (roundMagnitude num den)).toNat = min (k * 2^23 + r) infinityMagnitude + if neg then 2^31 else 0 := by
    rw [packFloat, BitVec.toNat_ofNat, hm]
    have : min (k * 2^23 + r) infinityMagnitude ≤ infinityMagnitude := Nat.min_le_right ..
    simp only [infinityMagnitude, Config.flen] at *
    split <;> omega
  have hinf : infinityMagnitude = 255 * 2^23 := rfl
  generalize packFloat neg (roundMagnitude num den) = v at *
  have hmag : num < (2 ^ 25 - 1) * 2 ^ 252 * den → isFinite v = true ∧ floatMagnitude v = r * 2^k ∧ v.toNat % 2 = r % 2 := by
    intro hn
    have := hf hn
    rw [Nat.min_eq_left (by omega)] at hP
    have hfin : isFinite v = true := by
      simp only [isFinite, floatExponent_eq, bne_iff_ne, ne_eq, hP]
      split <;> omega
    refine ⟨hfin, ?_, ?_⟩
    · rw [(floatMagnitude_eq v hfin).1, hP]
      have : (k * 2^23 + r + if neg = true then 2^31 else 0) % 2^31 = k * 2^23 + r := by split <;> omega
      rw [this]
      exact patternMagnitude_scaled k r (by omega) (fun hk => by have := h.lo hk; omega)
    · rw [hP]; split <;> omega
  constructor
  · rw [floatSign_eq, hP]
    have : min (k * 2^23 + r) infinityMagnitude ≤ infinityMagnitude := Nat.min_le_right ..
    cases neg
    · simp; omega
    · simp
  · intro hn
    have := ho hn
    rw [Nat.min_eq_right (by omega)] at hP
    simp only [isInfinite, floatExponent_eq, floatFraction_eq, Bool.and_eq_true, beq_iff_eq, hP]
    split <;> omega
  · exact fun hn => (hmag hn).1
  · intro hn w hw
    obtain ⟨h1, h2, h3⟩ := hmag hn
    unfold roundingError
    rw [h2, (floatMagnitude_eq w hw).1]
    have hs := h.split
    have hre := h.restLt
    have hr2 := h.r
    have e1 : r * 2^k * den = r * (den * 2^k) := by ring
    rw [e1]
    rcases patternMagnitude_grid (w.toNat % 2^31) k low h.lo with hg | hg
    · have hg2 : patternMagnitude (w.toNat % 2^31) * den ≤ low * (den * 2^k) := by
        have := Nat.mul_le_mul_right den hg
        rwa [show low * 2^k * den = low * (den * 2^k) by ring] at this
      generalize patternMagnitude (w.toNat % 2^31) * den = m at *
      split at hr2
      · rw [hr2, Nat.add_mul, Nat.one_mul]
        generalize den * 2^k = u at *
        generalize low * u = lu at *
        omega
      · rw [hr2]
        generalize den * 2^k = u at *
        generalize low * u = lu at *
        omega
    · have hg2 : low * (den * 2^k) + den * 2^k ≤ patternMagnitude (w.toNat % 2^31) * den := by
        have := Nat.mul_le_mul_right den hg
        rwa [show (low + 1) * 2^k * den = low * (den * 2^k) + den * 2^k by ring] at this
      generalize patternMagnitude (w.toNat % 2^31) * den = m at *
      split at hr2
      · rw [hr2, Nat.add_mul, Nat.one_mul]
        generalize den * 2^k = u at *
        generalize low * u = lu at *
        omega
      · rw [hr2]
        generalize den * 2^k = u at *
        generalize low * u = lu at *
        omega
  · intro hn w hw heq hne
    obtain ⟨h1, h2, h3⟩ := hmag hn
    unfold roundingError at heq
    rw [h2, (floatMagnitude_eq w hw).1] at heq
    rw [h2, (floatMagnitude_eq w hw).1] at hne
    have hs := h.split
    have hre := h.restLt
    have hr2 := h.r
    have e1 : r * 2^k * den = r * (den * 2^k) := by ring
    rw [e1] at heq
    have hne2 : patternMagnitude (w.toNat % 2^31) * den ≠ r * (den * 2^k) := by
      intro e; rw [← e1] at e; exact hne (Nat.eq_of_mul_eq_mul_right hd e)
    have goal : r % 2 = 0 → v.getLsbD 0 = false := by
      intro hr0
      have : v.getLsbD 0 = v.toNat.testBit 0 := rfl
      rw [this, Nat.testBit_zero, h3, hr0]; rfl
    apply goal
    rcases patternMagnitude_grid (w.toNat % 2^31) k low h.lo with hg | hg
    · have hg2 : patternMagnitude (w.toNat % 2^31) * den ≤ low * (den * 2^k) := by
        have := Nat.mul_le_mul_right den hg
        rwa [show low * 2^k * den = low * (den * 2^k) by ring] at this
      generalize patternMagnitude (w.toNat % 2^31) * den = m at *
      split at hr2
      · rw [hr2, Nat.add_mul, Nat.one_mul] at heq hne2
        generalize den * 2^k = u at *
        generalize low * u = lu at *
        omega
      · rw [hr2] at heq hne2
        generalize den * 2^k = u at *
        generalize low * u = lu at *
        omega
    · have hg2 : low * (den * 2^k) + den * 2^k ≤ patternMagnitude (w.toNat % 2^31) * den := by
        have := Nat.mul_le_mul_right den hg
        rwa [show (low + 1) * 2^k * den = low * (den * 2^k) + den * 2^k by ring] at this
      generalize patternMagnitude (w.toNat % 2^31) * den = m at *
      split at hr2
      · rw [hr2, Nat.add_mul, Nat.one_mul] at heq hne2
        generalize den * 2^k = u at *
        generalize low * u = lu at *
        omega
      · rw [hr2] at heq hne2
        generalize den * 2^k = u at *
        generalize low * u = lu at *
        omega

/-- A finite pattern is neither a NaN nor an infinity (R201). -/
theorem finite_cases (v : FloatPattern) (h : isFinite v = true) : isNaN v = false ∧ isInfinite v = false := by
  simp [isFinite, isNaN, isInfinite] at *; simp [h]

/-- A finite pattern of value zero is one of the two zeros (R201). -/
theorem zero_pattern (a : FloatPattern) (h : floatUnits a = 0) : a = if floatSign a then 0x80000000#32 else 0#32 := by
  have hm : floatMagnitude a = 0 := by unfold floatUnits at h; split at h <;> omega
  unfold floatMagnitude at hm
  split at hm
  · next he =>
    rw [floatExponent_eq] at he; rw [floatFraction_eq] at hm; rw [floatSign_eq]
    have := word_lt a
    apply BitVec.eq_of_toNat_eq
    by_cases h2 : 2^31 ≤ a.toNat
    · simp only [h2, decide_true, if_true]; show _ = 0x80000000; omega
    · simp only [h2, decide_false]; show _ = 0; omega
  · have : 0 < (2^23 + floatFraction a) * 2^(floatExponent a - 1) := by positivity
    omega
/-- Inverting the sign bit negates the value and changes neither exponent nor fraction (R202). -/
theorem negateBinary32_spec (b : FloatPattern) :
    floatUnits (negateBinary32 b) = - floatUnits b ∧ isFinite (negateBinary32 b) = isFinite b ∧ floatSign (negateBinary32 b) = !floatSign b := by
    have h1 : floatExponent (negateBinary32 b) = floatExponent b := by
      unfold floatExponent negateBinary32
      congr 1
      apply BitVec.eq_of_getLsbD_eq; intro i hi
      simp only [BitVec.getLsbD_extractLsb', BitVec.getLsbD_xor]
      interval_cases i <;> simp
    have h2 : floatFraction (negateBinary32 b) = floatFraction b := by
      unfold floatFraction negateBinary32
      congr 1
      apply BitVec.eq_of_getLsbD_eq; intro i hi
      simp only [BitVec.getLsbD_extractLsb', BitVec.getLsbD_xor]
      interval_cases i <;> simp
    have h3 : floatSign (negateBinary32 b) = !floatSign b := by simp [floatSign, negateBinary32]
    refine ⟨?_, by simp only [isFinite, h1], h3⟩
    unfold floatUnits floatMagnitude
    rw [h1, h2, h3]
    cases floatSign b <;> simp
/-- A drawn NaN is quiet, whatever the draw (R202). -/
theorem quietNaN_quiet (b : BitVec 23) : QuietNaN (quietNaN b) := by
  have bits : ∀ i, (quietNaN b).getLsbD i = (BitVec.extractLsb' 22 1 b ++ 255#8 ++ 1#1 ++ BitVec.extractLsb' 0 22 b : BitVec (1+8+1+22)).getLsbD i := fun _ => rfl
  constructor
  · unfold floatExponent
    have : BitVec.extractLsb' 23 8 (quietNaN b) = 255#8 := by
      apply BitVec.eq_of_getLsbD_eq
      intro i hi
      rw [BitVec.getLsbD_extractLsb', bits]
      interval_cases i <;> simp only [BitVec.getLsbD_append] <;> simp
    exact congrArg BitVec.toNat this
  · rw [bits]; simp only [BitVec.getLsbD_append]; simp

end Sys2Proof.Machine
end

