-- ==== Sys2Proof/Laws/Memory.lean ====
section
/-! SUPPORT. The laws of the memory: read after write, what a write leaves alone, and that every memory operation keeps
the canonical form (20_memory.md R54, R55, R59). -/

namespace Sys2Proof.Machine

/-! ## The canonical form -/

theorem Memory.wfFrom_cons (lo a : Nat) (v : Byte) (rest : Memory) :
    Memory.wfFrom lo ((a, v) :: rest) = true ↔
      lo ≤ a ∧ a < Config.memorySize ∧ v ≠ unlistedByte ∧ Memory.wfFrom (a + 1) rest = true := by
  simp [Memory.wfFrom, and_assoc]

theorem Memory.wfFrom_mono {lo lo' : Nat} {m : Memory} (h : Memory.wfFrom lo m = true) (hl : lo' ≤ lo) :
    Memory.wfFrom lo' m = true := by
  cases m with
  | nil => rfl
  | cons c rest =>
    obtain ⟨a, v⟩ := c
    rw [Memory.wfFrom_cons] at h ⊢
    exact ⟨by omega, h.2⟩

/-- Below its first address a canonical memory reads as unlisted. -/
theorem Memory.get_below {lo a : Nat} {m : Memory} (h : Memory.wfFrom lo m = true) (ha : a < lo) :
    m.get a = unlistedByte := by
  induction m generalizing lo with
  | nil => rfl
  | cons c rest ih =>
    obtain ⟨b, v⟩ := c
    rw [Memory.wfFrom_cons] at h
    have hne : a ≠ b := by omega
    simp only [Memory.get, hne, if_false]
    exact ih h.2.2.2 (by omega)

theorem Memory.wfFrom_set {lo a : Nat} {m : Memory} (v : Byte) (h : Memory.wfFrom lo m = true) (hlo : lo ≤ a)
    (ha : a < Config.memorySize) : Memory.wfFrom lo (m.set a v) = true := by
  induction m generalizing lo with
  | nil =>
    unfold Memory.set
    split
    · rfl
    · next hv => exact (Memory.wfFrom_cons ..).2 ⟨hlo, ha, hv, rfl⟩
  | cons c rest ih =>
    obtain ⟨b, w⟩ := c
    have hc := (Memory.wfFrom_cons ..).1 h
    unfold Memory.set
    split
    · next hab =>
      split
      · exact h
      · next hv =>
        exact (Memory.wfFrom_cons ..).2 ⟨hlo, ha, hv, (Memory.wfFrom_cons ..).2 ⟨by omega, hc.2⟩⟩
    · next hab =>
      split
      · next heq =>
        split
        · exact Memory.wfFrom_mono hc.2.2.2 (by omega)
        · next hv => exact (Memory.wfFrom_cons ..).2 ⟨hlo, ha, hv, heq ▸ hc.2.2.2⟩
      · next hne => exact (Memory.wfFrom_cons ..).2 ⟨hc.1, hc.2.1, hc.2.2.1, ih hc.2.2.2 (by omega)⟩

/-- A byte write keeps the canonical form. -/
theorem Memory.wf_set {a : Nat} {m : Memory} (v : Byte) (h : m.wf = true) (ha : a < Config.memorySize) :
    (m.set a v).wf = true :=
  Memory.wfFrom_set v h (Nat.zero_le a) ha

/-! ## Read after write -/

theorem Memory.get_set_from {lo a : Nat} {m : Memory} (v : Byte) (h : Memory.wfFrom lo m = true) (b : Nat) :
    (m.set a v).get b = if b = a then v else m.get b := by
  induction m generalizing lo with
  | nil =>
    unfold Memory.set
    split
    · next hv => simp [Memory.get, hv]
    · simp [Memory.get]
  | cons c rest ih =>
    obtain ⟨d, w⟩ := c
    have hc := (Memory.wfFrom_cons ..).1 h
    unfold Memory.set
    split
    · next had =>
      split
      · next hv =>
        by_cases hba : b = a
        · subst hba
          have : Memory.get ((d, w) :: rest) b = unlistedByte :=
            Memory.get_below ((Memory.wfFrom_cons ..).2 ⟨Nat.le_refl d, hc.2⟩) had
          simp [this, hv]
        · simp [hba]
      · simp [Memory.get]
    · next had =>
      split
      · next heq =>
        subst heq
        split
        · next hv =>
          by_cases hba : b = a
          · subst hba
            rw [Memory.get_below hc.2.2.2 (by omega)]
            simp [hv]
          · simp [Memory.get, hba]
        · by_cases hba : b = a <;> simp [Memory.get, hba]
      · next hne =>
        by_cases hbd : b = d
        · subst hbd
          have : b ≠ a := fun e => hne e.symm
          simp [Memory.get, this]
        · simp [Memory.get, hbd, ih hc.2.2.2]

/-- What a byte write reads back as, at every address. -/
theorem Memory.get_set {m : Memory} (h : m.wf = true) (a : Nat) (v : Byte) (b : Nat) :
    (m.set a v).get b = if b = a then v else m.get b :=
  Memory.get_set_from v h b

/-! ## Blocks of bytes -/

/-- A block write inside the memory keeps the canonical form. -/
theorem Memory.wf_writeBytes {a : Nat} {m : Memory} (bs : List Byte) (h : m.wf = true)
    (ha : a + bs.length ≤ Config.memorySize) : (m.writeBytes a bs).wf = true := by
  induction bs generalizing a m with
  | nil => exact h
  | cons b bs ih =>
    rw [List.length_cons] at ha
    exact ih (Memory.wf_set b h (by omega)) (by omega)

/-- What a block write reads back as, at every address: the written byte inside the block, the old one outside. -/
theorem Memory.get_writeBytes {a : Nat} {m : Memory} (bs : List Byte) (h : m.wf = true)
    (ha : a + bs.length ≤ Config.memorySize) (b : Nat) :
    (m.writeBytes a bs).get b = if hb : a ≤ b ∧ b < a + bs.length then bs[b - a]'(by omega) else m.get b := by
  induction bs generalizing a m with
  | nil =>
    rw [dif_neg (by simp)]
    rfl
  | cons c bs ih =>
    rw [List.length_cons] at ha
    show (Memory.writeBytes (m.set a c) (a + 1) bs).get b = _
    rw [ih (Memory.wf_set c h (by omega)) (by omega)]
    by_cases hb : a + 1 ≤ b ∧ b < a + 1 + bs.length
    · have hb' : a ≤ b ∧ b < a + (c :: bs).length := by simp; omega
      have hi : b - a = b - (a + 1) + 1 := by omega
      rw [dif_pos hb, dif_pos hb']
      simp [hi]
    · rw [dif_neg hb, Memory.get_set h]
      by_cases hba : b = a
      · subst hba
        simp
      · have hb' : ¬(a ≤ b ∧ b < a + (c :: bs).length) := by rw [List.length_cons]; omega
        rw [if_neg hba, dif_neg hb']

/-- A byte write leaves every other address alone, whatever the form of the memory. -/
theorem Memory.get_set_ne (m : Memory) {a b : Nat} (v : Byte) (h : b ≠ a) : (m.set a v).get b = m.get b := by
  induction m with
  | nil =>
    unfold Memory.set
    split
    · rfl
    · simp [Memory.get, h]
  | cons c rest ih =>
    obtain ⟨d, w⟩ := c
    unfold Memory.set
    split
    · split
      · rfl
      · simp [Memory.get, h]
    · split
      · next heq =>
        subst heq
        split <;> simp [Memory.get, h]
      · simp [Memory.get, ih]

/-- A block write leaves every address outside the block alone, whatever the form of the memory. -/
theorem Memory.get_writeBytes_outside (m : Memory) {a b : Nat} (bs : List Byte) (h : b < a ∨ a + bs.length ≤ b) :
    (m.writeBytes a bs).get b = m.get b := by
  induction bs generalizing a m with
  | nil => rfl
  | cons c bs ih =>
    rw [List.length_cons] at h
    show (Memory.writeBytes (m.set a c) (a + 1) bs).get b = _
    rw [ih _ (by omega), Memory.get_set_ne m c (by omega)]

/-- A block read has as many bytes as were asked for. -/
theorem Memory.readBytes_length (m : Memory) (a n : Nat) : (m.readBytes a n).length = n := by
  induction n generalizing a with
  | zero => rfl
  | succ n ih => simp [Memory.readBytes, ih]

/-- Byte `k` of a block read is the byte at `a + k` (20_memory.md R54). -/
theorem Memory.readBytes_getElem (m : Memory) (a n k : Nat) (h : k < (m.readBytes a n).length) :
    (m.readBytes a n)[k] = m.get (a + k) := by
  induction n generalizing a k with
  | zero => simp [Memory.readBytes] at h
  | succ n ih =>
    cases k with
    | zero => simp [Memory.readBytes]
    | succ k => simp [Memory.readBytes, ih, Nat.add_assoc, Nat.add_comm 1 k]

/-- A block read splits. -/
theorem Memory.readBytes_add (m : Memory) (a n k : Nat) :
    m.readBytes a (n + k) = m.readBytes a n ++ m.readBytes (a + n) k := by
  induction n generalizing a with
  | zero => simp [Memory.readBytes]
  | succ n ih =>
    rw [Nat.add_right_comm n 1 k]
    simp [Memory.readBytes, ih, Nat.add_assoc, Nat.add_comm 1 n]

/-- Two canonical memories that read alike are one and the same list. -/
theorem Memory.ext_from {lo : Nat} {m n : Memory} (hm : Memory.wfFrom lo m = true) (hn : Memory.wfFrom lo n = true)
    (h : ∀ a, m.get a = n.get a) : m = n := by
  induction m generalizing lo n with
  | nil =>
    cases n with
    | nil => rfl
    | cons c rest =>
      obtain ⟨b, w⟩ := c
      have hb := (Memory.wfFrom_cons ..).1 hn
      have := h b
      simp [Memory.get] at this
      exact absurd this.symm hb.2.2.1
  | cons c rest ih =>
    obtain ⟨a, v⟩ := c
    have ha := (Memory.wfFrom_cons ..).1 hm
    cases n with
    | nil =>
      have := h a
      simp [Memory.get] at this
      exact absurd this ha.2.2.1
    | cons d rest' =>
      obtain ⟨b, w⟩ := d
      have hb := (Memory.wfFrom_cons ..).1 hn
      have hab : a = b := by
        rcases Nat.lt_trichotomy a b with hlt | heq | hgt
        · have h1 := h a
          rw [Memory.get_below (m := (b, w) :: rest') ((Memory.wfFrom_cons ..).2 ⟨Nat.le_refl b, hb.2⟩) hlt] at h1
          simp [Memory.get] at h1
          exact absurd h1 ha.2.2.1
        · exact heq
        · have h1 := h b
          rw [Memory.get_below (m := (a, v) :: rest) ((Memory.wfFrom_cons ..).2 ⟨Nat.le_refl a, ha.2⟩) hgt] at h1
          simp [Memory.get] at h1
          exact absurd h1.symm hb.2.2.1
      subst hab
      have hv : v = w := by simpa [Memory.get] using h a
      subst hv
      congr 1
      refine ih ha.2.2.2 hb.2.2.2 fun e => ?_
      by_cases he : e = a
      · subst he
        rw [Memory.get_below ha.2.2.2 (Nat.lt_succ_self e), Memory.get_below hb.2.2.2 (Nat.lt_succ_self e)]
      · simpa [Memory.get, he] using h e

/-- The memory after reset is in the canonical form (10_state.md R41). -/
theorem reset_memory_wf : State.reset.mem.wf = true := rfl

end Sys2Proof.Machine
end

