-- ==== Sys2Proof/Laws/State.lean ====
section
/-! SUPPORT. One lemma per field per update of the state, true by `rfl`, and the read-after-write laws of the two
register files, so that no later proof unfolds a record update. -/

namespace Sys2Proof.Machine

/-! ## What a register write reads back as (10_state.md R22) -/

theorem readX_writeX (s : State) (r q : XReg) (v : Word) :
    (s.writeX r v).readX q = if q = r then v else s.readX q := by
  simp only [State.readX, State.writeX, Vector.get_eq_getElem, Vector.getElem_set, Fin.ext_iff, eq_comm]

@[simp] theorem readX_writeX_same (s : State) (r : XReg) (v : Word) : (s.writeX r v).readX r = v := by
  simp [readX_writeX]

theorem readX_writeX_ne (s : State) {r q : XReg} (v : Word) (h : q ≠ r) : (s.writeX r v).readX q = s.readX q := by
  simp [readX_writeX, h]

theorem readF_writeF (s : State) (r q : FReg) (v : FloatPattern) :
    (s.writeF r v).readF q = if q = r then v else s.readF q := by
  simp only [State.readF, State.writeF, Vector.get_eq_getElem, Vector.getElem_set, Fin.ext_iff, eq_comm]

@[simp] theorem readF_writeF_same (s : State) (r : FReg) (v : FloatPattern) : (s.writeF r v).readF r = v := by
  simp [readF_writeF]

theorem readF_writeF_ne (s : State) {r q : FReg} (v : FloatPattern) (h : q ≠ r) : (s.writeF r v).readF q = s.readF q := by
  simp [readF_writeF, h]

/-! ## The fields an update writes -/

@[simp] theorem withMem_mem (s : State) (m : Memory) : (s.withMem m).mem = m := rfl
@[simp] theorem withRunState_runState (s : State) (r : RunState) : (s.withRunState r).runState = r := rfl
@[simp] theorem countDraw_draws (s : State) : s.countDraw.draws = s.draws + 1 := rfl
@[simp] theorem raise_runState (s : State) (k : FaultKind) : (s.raise k).runState = .faulted := rfl
@[simp] theorem raise_faultCause (s : State) (k : FaultKind) : (s.raise k).faultCause = some k := rfl
@[simp] theorem haltRun_runState (s : State) : s.haltRun.runState = .halted := rfl

/-! ## The fields an update keeps -/

@[simp] theorem writeX_f (s : State) (r : XReg) (v : Word) : (s.writeX r v).f = s.f := rfl
@[simp] theorem writeX_mem (s : State) (r : XReg) (v : Word) : (s.writeX r v).mem = s.mem := rfl
@[simp] theorem writeX_runState (s : State) (r : XReg) (v : Word) : (s.writeX r v).runState = s.runState := rfl
@[simp] theorem writeX_faultCause (s : State) (r : XReg) (v : Word) : (s.writeX r v).faultCause = s.faultCause := rfl
@[simp] theorem writeX_draws (s : State) (r : XReg) (v : Word) : (s.writeX r v).draws = s.draws := rfl

@[simp] theorem writeF_x (s : State) (r : FReg) (v : FloatPattern) : (s.writeF r v).x = s.x := rfl
@[simp] theorem writeF_mem (s : State) (r : FReg) (v : FloatPattern) : (s.writeF r v).mem = s.mem := rfl
@[simp] theorem writeF_runState (s : State) (r : FReg) (v : FloatPattern) : (s.writeF r v).runState = s.runState := rfl
@[simp] theorem writeF_faultCause (s : State) (r : FReg) (v : FloatPattern) : (s.writeF r v).faultCause = s.faultCause := rfl
@[simp] theorem writeF_draws (s : State) (r : FReg) (v : FloatPattern) : (s.writeF r v).draws = s.draws := rfl

@[simp] theorem withMem_x (s : State) (m : Memory) : (s.withMem m).x = s.x := rfl
@[simp] theorem withMem_f (s : State) (m : Memory) : (s.withMem m).f = s.f := rfl
@[simp] theorem withMem_runState (s : State) (m : Memory) : (s.withMem m).runState = s.runState := rfl
@[simp] theorem withMem_faultCause (s : State) (m : Memory) : (s.withMem m).faultCause = s.faultCause := rfl
@[simp] theorem withMem_draws (s : State) (m : Memory) : (s.withMem m).draws = s.draws := rfl

@[simp] theorem withRunState_x (s : State) (r : RunState) : (s.withRunState r).x = s.x := rfl
@[simp] theorem withRunState_f (s : State) (r : RunState) : (s.withRunState r).f = s.f := rfl
@[simp] theorem withRunState_mem (s : State) (r : RunState) : (s.withRunState r).mem = s.mem := rfl
@[simp] theorem withRunState_faultCause (s : State) (r : RunState) : (s.withRunState r).faultCause = s.faultCause := rfl
@[simp] theorem withRunState_draws (s : State) (r : RunState) : (s.withRunState r).draws = s.draws := rfl

@[simp] theorem countDraw_x (s : State) : s.countDraw.x = s.x := rfl
@[simp] theorem countDraw_f (s : State) : s.countDraw.f = s.f := rfl
@[simp] theorem countDraw_mem (s : State) : s.countDraw.mem = s.mem := rfl
@[simp] theorem countDraw_runState (s : State) : s.countDraw.runState = s.runState := rfl
@[simp] theorem countDraw_faultCause (s : State) : s.countDraw.faultCause = s.faultCause := rfl

@[simp] theorem raise_x (s : State) (k : FaultKind) : (s.raise k).x = s.x := rfl
@[simp] theorem raise_f (s : State) (k : FaultKind) : (s.raise k).f = s.f := rfl
@[simp] theorem raise_mem (s : State) (k : FaultKind) : (s.raise k).mem = s.mem := rfl
@[simp] theorem raise_draws (s : State) (k : FaultKind) : (s.raise k).draws = s.draws := rfl

@[simp] theorem advance_f (s : State) (fmt : Format) : (s.advance fmt).f = s.f := rfl
@[simp] theorem advance_mem (s : State) (fmt : Format) : (s.advance fmt).mem = s.mem := rfl
@[simp] theorem advance_runState (s : State) (fmt : Format) : (s.advance fmt).runState = s.runState := rfl
@[simp] theorem advance_faultCause (s : State) (fmt : Format) : (s.advance fmt).faultCause = s.faultCause := rfl
@[simp] theorem advance_draws (s : State) (fmt : Format) : (s.advance fmt).draws = s.draws := rfl

@[simp] theorem haltRun_x (s : State) : s.haltRun.x = s.x := rfl
@[simp] theorem haltRun_f (s : State) : s.haltRun.f = s.f := rfl
@[simp] theorem haltRun_mem (s : State) : s.haltRun.mem = s.mem := rfl
@[simp] theorem haltRun_faultCause (s : State) : s.haltRun.faultCause = s.faultCause := rfl
@[simp] theorem haltRun_draws (s : State) : s.haltRun.draws = s.draws := rfl

/-! ## What the reads see after an update -/

@[simp] theorem readF_writeX (s : State) (r : XReg) (v : Word) (q : FReg) : (s.writeX r v).readF q = s.readF q := rfl
@[simp] theorem readByte_writeX (s : State) (r : XReg) (v : Word) (i : Nat) : (s.writeX r v).readByte i = s.readByte i := rfl

@[simp] theorem readX_writeF (s : State) (r : FReg) (v : FloatPattern) (q : XReg) : (s.writeF r v).readX q = s.readX q := rfl
@[simp] theorem readByte_writeF (s : State) (r : FReg) (v : FloatPattern) (i : Nat) : (s.writeF r v).readByte i = s.readByte i := rfl
@[simp] theorem pc_writeF (s : State) (r : FReg) (v : FloatPattern) : (s.writeF r v).pc = s.pc := rfl
@[simp] theorem sp_writeF (s : State) (r : FReg) (v : FloatPattern) : (s.writeF r v).sp = s.sp := rfl
@[simp] theorem flags_writeF (s : State) (r : FReg) (v : FloatPattern) : (s.writeF r v).flags = s.flags := rfl

@[simp] theorem readX_withMem (s : State) (m : Memory) (q : XReg) : (s.withMem m).readX q = s.readX q := rfl
@[simp] theorem readF_withMem (s : State) (m : Memory) (q : FReg) : (s.withMem m).readF q = s.readF q := rfl
@[simp] theorem pc_withMem (s : State) (m : Memory) : (s.withMem m).pc = s.pc := rfl
@[simp] theorem sp_withMem (s : State) (m : Memory) : (s.withMem m).sp = s.sp := rfl
@[simp] theorem flags_withMem (s : State) (m : Memory) : (s.withMem m).flags = s.flags := rfl

@[simp] theorem readX_withRunState (s : State) (r : RunState) (q : XReg) : (s.withRunState r).readX q = s.readX q := rfl
@[simp] theorem readF_withRunState (s : State) (r : RunState) (q : FReg) : (s.withRunState r).readF q = s.readF q := rfl
@[simp] theorem readByte_withRunState (s : State) (r : RunState) (i : Nat) : (s.withRunState r).readByte i = s.readByte i := rfl
@[simp] theorem pc_withRunState (s : State) (r : RunState) : (s.withRunState r).pc = s.pc := rfl
@[simp] theorem sp_withRunState (s : State) (r : RunState) : (s.withRunState r).sp = s.sp := rfl
@[simp] theorem flags_withRunState (s : State) (r : RunState) : (s.withRunState r).flags = s.flags := rfl

@[simp] theorem readX_countDraw (s : State) (q : XReg) : s.countDraw.readX q = s.readX q := rfl
@[simp] theorem readF_countDraw (s : State) (q : FReg) : s.countDraw.readF q = s.readF q := rfl
@[simp] theorem readByte_countDraw (s : State) (i : Nat) : s.countDraw.readByte i = s.readByte i := rfl
@[simp] theorem pc_countDraw (s : State) : s.countDraw.pc = s.pc := rfl
@[simp] theorem sp_countDraw (s : State) : s.countDraw.sp = s.sp := rfl
@[simp] theorem flags_countDraw (s : State) : s.countDraw.flags = s.flags := rfl

@[simp] theorem readX_raise (s : State) (k : FaultKind) (q : XReg) : (s.raise k).readX q = s.readX q := rfl
@[simp] theorem readF_raise (s : State) (k : FaultKind) (q : FReg) : (s.raise k).readF q = s.readF q := rfl
@[simp] theorem readByte_raise (s : State) (k : FaultKind) (i : Nat) : (s.raise k).readByte i = s.readByte i := rfl
@[simp] theorem pc_raise (s : State) (k : FaultKind) : (s.raise k).pc = s.pc := rfl
@[simp] theorem sp_raise (s : State) (k : FaultKind) : (s.raise k).sp = s.sp := rfl
@[simp] theorem flags_raise (s : State) (k : FaultKind) : (s.raise k).flags = s.flags := rfl

@[simp] theorem readF_advance (s : State) (fmt : Format) (q : FReg) : (s.advance fmt).readF q = s.readF q := rfl
@[simp] theorem readByte_advance (s : State) (fmt : Format) (i : Nat) : (s.advance fmt).readByte i = s.readByte i := rfl

@[simp] theorem readX_haltRun (s : State) (q : XReg) : s.haltRun.readX q = s.readX q := rfl
@[simp] theorem readF_haltRun (s : State) (q : FReg) : s.haltRun.readF q = s.readF q := rfl
@[simp] theorem readByte_haltRun (s : State) (i : Nat) : s.haltRun.readByte i = s.readByte i := rfl
@[simp] theorem pc_haltRun (s : State) : s.haltRun.pc = s.pc := rfl
@[simp] theorem sp_haltRun (s : State) : s.haltRun.sp = s.sp := rfl
@[simp] theorem flags_haltRun (s : State) : s.haltRun.flags = s.flags := rfl

@[simp] theorem readByte_withMem (s : State) (m : Memory) (i : Nat) : (s.withMem m).readByte i = m.get i := rfl

/-- What the handler reads after the Decoder's advance: the next instruction's address from `x[13]`, every other register
as it was (10_state.md R26, 40_fetch_decode_dispatch.md R117). -/
theorem readX_advance (s : State) (fmt : Format) (q : XReg) :
    (s.advance fmt).readX q = if q = Config.pcId then s.pc + BitVec.ofNat Config.xlen fmt.length else s.readX q := by
  simp [State.advance, readX_writeX]

@[simp] theorem pc_advance (s : State) (fmt : Format) : (s.advance fmt).pc = s.pc + BitVec.ofNat Config.xlen fmt.length := by
  simp [State.pc, readX_advance]

@[simp] theorem sp_advance (s : State) (fmt : Format) : (s.advance fmt).sp = s.sp :=
  readX_writeX_ne s _ (by decide)

@[simp] theorem flags_advance (s : State) (fmt : Format) : (s.advance fmt).flags = s.flags :=
  readX_writeX_ne s _ (by decide)

end Sys2Proof.Machine
end

