-- ==== Sys2Proof/Laws/Ops.lean ====
section
/-! SUPPORT. One lemma per shared operation of Machine/Ops.lean, Machine/Operands.lean and Machine/Stack.lean that says
once everything it can do; a proof about an instruction cites these instead of unfolding the operations. -/

namespace Sys2Proof.Machine

/-! ## Memory access (20_memory.md R54, R55) -/

theorem memRead_ok_iff {w : Nat} {s : State} {addr : Word} {n : Nat} {v : BitVec w} :
    s.memRead addr n = .ok v ↔
      addr.toNat + n ≤ Config.memorySize ∧ v = BitVec.ofNat w (leValue (s.mem.readBytes addr.toNat n)) := by
  unfold State.memRead
  split
  · next h =>
    simp only [reduceCtorEq, false_iff]
    exact fun hc => absurd hc.1 (Nat.not_le.2 h)
  · next h => simp only [Except.ok.injEq, Nat.not_lt.1 h, true_and, eq_comm]

theorem memRead_error_iff {w : Nat} {s : State} {addr : Word} {n : Nat} {k : FaultKind} :
    s.memRead (w := w) addr n = .error k ↔ Config.memorySize < addr.toNat + n ∧ k = .outOfBounds := by
  unfold State.memRead
  split
  · next h => simp only [Except.error.injEq, h, true_and, eq_comm]
  · next h =>
    simp only [reduceCtorEq, false_iff]
    exact fun hc => h hc.1

theorem memWrite_ok_iff {w : Nat} {s t : State} {addr : Word} {n : Nat} {v : BitVec w} :
    s.memWrite addr n v = .ok t ↔
      addr.toNat + n ≤ Config.memorySize ∧ t = s.withMem (s.mem.writeBytes addr.toNat (leBytes n v.toNat)) := by
  unfold State.memWrite
  split
  · next h =>
    simp only [reduceCtorEq, false_iff]
    exact fun hc => absurd hc.1 (Nat.not_le.2 h)
  · next h => simp only [Except.ok.injEq, Nat.not_lt.1 h, true_and, eq_comm]

theorem memWrite_error_iff {w : Nat} {s : State} {addr : Word} {n : Nat} {v : BitVec w} {k : FaultKind} :
    s.memWrite addr n v = .error k ↔ Config.memorySize < addr.toNat + n ∧ k = .outOfBounds := by
  unfold State.memWrite
  split
  · next h => simp only [Except.error.injEq, h, true_and, eq_comm]
  · next h =>
    simp only [reduceCtorEq, false_iff]
    exact fun hc => h hc.1

/-- The bytes a memory write leaves: those of the value inside the block, the old ones outside (20_memory.md R55). -/
theorem readByte_memWrite {w : Nat} {s t : State} {addr : Word} {n : Nat} {v : BitVec w} (hm : s.mem.wf = true)
    (h : s.memWrite addr n v = .ok t) (b : Nat) :
    t.readByte b =
      if addr.toNat ≤ b ∧ b < addr.toNat + n then v.extractLsb' (8 * (b - addr.toNat)) 8 else s.readByte b := by
  obtain ⟨hb, rfl⟩ := memWrite_ok_iff.1 h
  rw [readByte_withMem, Memory.get_writeBytes _ hm (by rw [leBytes_length]; exact hb)]
  simp only [leBytes_length, leBytes_getElem, byte_of_word]
  split <;> rfl

/-! ## The stack (41_stack.md R140, R141) -/

theorem pushValue_ok_iff {w : Nat} {s t : State} {v : BitVec w} :
    s.pushValue v = .ok t ↔
      0 < s.sp.toNat ∧ s.sp.toNat + 4 ≤ Config.memorySize ∧
        t = (s.withMem (s.mem.writeBytes s.sp.toNat (leBytes 4 v.toNat))).writeX Config.spId (s.sp - 4#32) := by
  unfold State.pushValue
  split
  · next h => simp at h; simp [h]
  · next h =>
    have hp : 0 < s.sp.toNat := by simpa [Nat.pos_iff_ne_zero] using h
    split
    · next k hk =>
      have := memWrite_error_iff.1 hk
      simp only [reduceCtorEq, false_iff]
      exact fun hc => absurd hc.2.1 (Nat.not_le.2 this.1)
    · next u hu =>
      obtain ⟨hb, rfl⟩ := memWrite_ok_iff.1 hu
      simp only [Except.ok.injEq, hp, true_and]
      exact ⟨fun e => ⟨hb, e.symm⟩, fun e => e.2.symm⟩

theorem pushValue_error_iff {w : Nat} {s : State} {v : BitVec w} {k : FaultKind} :
    s.pushValue v = .error k ↔
      (s.sp.toNat = 0 ∧ k = .stackUnderflow) ∨ (Config.memorySize < s.sp.toNat + 4 ∧ k = .outOfBounds) := by
  unfold State.pushValue
  split
  · next h =>
    have h0 : s.sp.toNat = 0 := by simpa using h
    simp only [Except.error.injEq, h0, true_and]
    exact ⟨fun e => .inl e.symm, fun e => e.elim Eq.symm fun c => absurd c.1 (by decide)⟩
  · next h =>
    have h0 : s.sp.toNat ≠ 0 := by simpa using h
    simp only [h0, false_and, false_or]
    split
    · next k' hk =>
      have := memWrite_error_iff.1 hk
      simp only [Except.error.injEq, this.2]
      exact ⟨fun e => ⟨this.1, e.symm⟩, fun e => e.2.symm⟩
    · next u hu =>
      have := (memWrite_ok_iff.1 hu).1
      simp only [reduceCtorEq, false_iff]
      exact fun hc => absurd hc.1 (Nat.not_lt.2 this)

/-- Below the stack's top the slot above sp lies in memory and sp + 4 does not wrap (41_stack.md R142). -/
theorem sp_add_slot {s : State} (h : s.sp.toNat < Config.stackTop) : (s.sp + 4#32).toNat = s.sp.toNat + 4 := by
  rw [BitVec.toNat_add]
  show (s.sp.toNat + 4) % 2 ^ 32 = _
  simp only [Config.stackTop] at h
  omega

theorem popValue_ok_iff {w : Nat} {s t : State} {v : BitVec w} :
    s.popValue = .ok (v, t) ↔
      s.sp.toNat < Config.stackTop ∧ v = BitVec.ofNat w (leValue (s.mem.readBytes (s.sp.toNat + 4) 4)) ∧
        t = s.writeX Config.spId (s.sp + 4#32) := by
  unfold State.popValue
  split
  · next h => simp; intro hc; simp at h; omega
  · next h =>
    have hs : s.sp.toNat < Config.stackTop := Nat.not_le.1 h
    have ha := sp_add_slot hs
    split
    · next k hk =>
      have := (memRead_error_iff.1 hk).1
      change Config.memorySize < (s.sp + 4#32).toNat + 4 at this
      rw [ha] at this
      simp only [Config.memorySize, Config.stackTop] at this hs
      omega
    · next u hu =>
      obtain ⟨-, rfl⟩ := memRead_ok_iff.1 hu
      change (Except.ok (BitVec.ofNat w (leValue (s.mem.readBytes (s.sp + 4#32).toNat 4)), _) : Except FaultKind _) = _ ↔ _
      rw [ha]
      simp only [Except.ok.injEq, Prod.mk.injEq, hs, true_and]
      exact ⟨fun e => ⟨e.1.symm, e.2.symm⟩, fun e => ⟨e.1.symm, e.2.symm⟩⟩

theorem popValue_error_iff {w : Nat} {s : State} {k : FaultKind} :
    s.popValue (w := w) = .error k ↔ Config.stackTop ≤ s.sp.toNat ∧ k = .stackOverflow := by
  unfold State.popValue
  split
  · next h =>
    have h' : Config.stackTop ≤ s.sp.toNat := h
    simp only [Except.error.injEq, h', true_and, eq_comm]
  · next h =>
    have hs : s.sp.toNat < Config.stackTop := Nat.not_le.1 h
    have ha := sp_add_slot hs
    split
    · next k' hk =>
      have := (memRead_error_iff.1 hk).1
      change Config.memorySize < (s.sp + 4#32).toNat + 4 at this
      rw [ha] at this
      simp only [Config.memorySize, Config.stackTop] at this hs
      omega
    · simp only [reduceCtorEq, false_iff]
      exact fun hc => h hc.1

/-! ## Words in memory (00_scope.md R12) -/

/-- The value of four bytes laid side by side. -/
theorem toNat_four_bytes (a b c d : Byte) :
    (d ++ c ++ b ++ a : BitVec (8 + 8 + 8 + 8)).toNat = a.toNat + 256 * (b.toNat + 256 * (c.toNat + 256 * d.toNat)) := by
  have ha := a.isLt
  have hb := b.isLt
  have hc := c.isLt
  rw [BitVec.toNat_append, BitVec.toNat_append, BitVec.toNat_append, ← Nat.shiftLeft_add_eq_or_of_lt ha,
    ← Nat.shiftLeft_add_eq_or_of_lt hb, ← Nat.shiftLeft_add_eq_or_of_lt hc]
  simp only [Nat.shiftLeft_eq]
  omega

/-- A four-byte read is the word at the address (20_memory.md R54). -/
theorem readBytes_wordAt (s : State) (a : Nat) : BitVec.ofNat Config.xlen (leValue (s.mem.readBytes a 4)) = wordAt s a := by
  have h0 := (s.mem.get a).isLt
  have h1 := (s.mem.get (a + 1)).isLt
  have h2 := (s.mem.get (a + 2)).isLt
  have h3 := (s.mem.get (a + 3)).isLt
  simp only [Memory.readBytes, leValue, Nat.add_assoc, Nat.reduceAdd]
  apply BitVec.eq_of_toNat_eq
  rw [BitVec.toNat_ofNat]
  refine Eq.trans ?_ (toNat_four_bytes _ _ _ _).symm
  simp only [State.readByte, Config.xlen]
  omega

/-- A word is its four bytes, laid side by side. -/
theorem word_of_bytes (v : Word) :
    v.extractLsb' 24 8 ++ v.extractLsb' 16 8 ++ v.extractLsb' 8 8 ++ v.extractLsb' 0 8 = v := by
  apply BitVec.eq_of_toNat_eq
  refine (toNat_four_bytes _ _ _ _).trans ?_
  simp only [BitVec.extractLsb'_toNat, Nat.shiftRight_eq_div_pow]
  have := word_lt v
  omega

/-! ## Running a handler (00_scope.md R14, 60_exceptions.md R256) -/

/-- Everything a decoded instruction can do: its handler completes on the advanced state, or the fault-entry state of the
start of the step results. -/
theorem runHandler_cases (fmt : Format) (h : State → Except FaultKind State) (s : State) :
    (∃ t, h (s.advance fmt) = .ok t ∧ runHandler fmt h s = .next t) ∨
      (∃ k, h (s.advance fmt) = .error k ∧ runHandler fmt h s = .next (s.raise k)) := by
  unfold runHandler
  cases h (s.advance fmt) with
  | ok t => exact .inl ⟨t, rfl, rfl⟩
  | error k => exact .inr ⟨k, rfl, rfl⟩

theorem runHandler_ok {fmt : Format} {h : State → Except FaultKind State} {s t : State}
    (ht : h (s.advance fmt) = .ok t) : runHandler fmt h s = .next t := by
  simp [runHandler, ht]

theorem runHandler_error {fmt : Format} {h : State → Except FaultKind State} {s : State} {k : FaultKind}
    (hk : h (s.advance fmt) = .error k) : runHandler fmt h s = .next (s.raise k) := by
  simp [runHandler, hk]

/-! ## Operand forms -/

/-- What an integer source reads on the advanced state (10_state.md R26). -/
theorem readX_advance_source (s : State) (fmt : Format) (r : XReg) :
    (s.advance fmt).readX r = sourceX s fmt.length r := by
  simp [readX_advance, sourceX]

/-- An integer register write after the advance is the whole effect `x[dst] <- v`. -/
theorem writesX_advance (s : State) (fmt : Format) (dst : XReg) (v : Word) :
    WritesX s ((s.advance fmt).writeX dst v) fmt.length dst v where
  value := by simp
  pc := fun h => by
    rw [State.pc, readX_writeX_ne _ _ (Ne.symm h)]
    exact pc_advance s fmt
  others := fun r hd hp => by rw [readX_writeX_ne _ _ hd, readX_advance, if_neg hp]
  floats := fun _ => rfl
  memory := fun _ => rfl
  control := ⟨rfl, rfl⟩

/-- A write of the pc after the advance is the whole effect `pc <- target`. -/
theorem movesPc_write (s : State) (fmt : Format) (target : Word) :
    MovesPc s ((s.advance fmt).writeX Config.pcId target) target where
  pc := readX_writeX_same ..
  integers := fun r _ hp => by rw [readX_writeX_ne _ _ hp, readX_advance, if_neg hp]
  floats := fun _ => rfl
  memory := fun _ => rfl
  control := ⟨rfl, rfl⟩

/-- The advance alone moves only the pc. -/
theorem movesPc_advance (s : State) (fmt : Format) :
    MovesPc s (s.advance fmt) (s.pc + BitVec.ofNat Config.xlen fmt.length) where
  pc := pc_advance s fmt
  integers := fun r _ hp => by rw [readX_advance, if_neg hp]
  floats := fun _ => rfl
  memory := fun _ => rfl
  control := ⟨rfl, rfl⟩

/-- A float register write after the advance is the whole effect `f[dst] <- v`. -/
theorem writesF_advance (s : State) (fmt : Format) (dst : FReg) (v : FloatPattern) {P : FloatPattern → Prop} (h : P v) :
    WritesF s ((s.advance fmt).writeF dst v) fmt.length dst P where
  value := by simpa using h
  others := fun r hr => by rw [readF_writeF_ne _ _ hr, readF_advance]
  pc := by simp
  integers := fun r _ hp => by rw [readX_writeF, readX_advance, if_neg hp]
  memory := fun _ => rfl
  control := ⟨rfl, rfl⟩

/-- `WritesF` does not see the draw counter. -/
theorem writesF_countDraw {s t : State} {len : Nat} {dst : FReg} {P : FloatPattern → Prop} (h : WritesF s t len dst P) :
    WritesF s t.countDraw len dst P where
  value := h.value
  others := h.others
  pc := h.pc
  integers := h.integers
  memory := h.memory
  control := h.control

/-- Everything a float result can be: the pattern of the operation, or a drawn quiet NaN. -/
theorem resultF_cases (op : FloatOp) (a b : FloatPattern) (dst : FReg) (s : State) :
    (∃ v, floatArith op a b = .pattern v ∧ resultF op a b dst s = .ok (s.writeF dst v)) ∨
      (floatArith op a b = .nan ∧
        resultF op a b dst s = .ok (s.writeF dst (quietNaN (Config.nanBits op a b s.draws))).countDraw) := by
  unfold resultF
  cases floatArith op a b with
  | pattern v => exact .inl ⟨v, rfl, rfl⟩
  | nan => exact .inr ⟨rfl, rfl⟩

/-- Everything a division can be (43_integer_arithmetic.md R180). -/
theorem divideX_cases (a b : Word) (dst : XReg) (s : State) :
    (b = 0#32 ∧ divideX a b dst s = .error .divisionByZero) ∨ (b ≠ 0#32 ∧ divideX a b dst s = .ok (s.writeX dst (a / b))) := by
  unfold divideX
  split
  · next h => exact .inl ⟨h, rfl⟩
  · next h => exact .inr ⟨h, rfl⟩

/-- Everything a pop instruction can do (41_stack.md R144, R146). -/
theorem popThen_cases {w : Nat} (write : BitVec w → State → State) (s : State) :
    (Config.stackTop ≤ s.sp.toNat ∧ popThen write s = .error .stackOverflow) ∨
      (s.sp.toNat < Config.stackTop ∧
        popThen write s = .ok (write (BitVec.ofNat w (leValue (s.mem.readBytes (s.sp.toNat + 4) 4)))
          (s.writeX Config.spId (s.sp + 4#32)))) := by
  unfold popThen
  by_cases h : Config.stackTop ≤ s.sp.toNat
  · rw [popValue_error_iff.2 ⟨h, rfl⟩]
    exact .inl ⟨h, rfl⟩
  · rw [popValue_ok_iff.2 ⟨Nat.not_le.1 h, rfl, rfl⟩]
    exact .inr ⟨Nat.not_le.1 h, rfl⟩

/-- Everything a register-indirect jump can do (47_jumps.md R231). -/
theorem jumpToRegister_cases (c : Condition) (reg : XReg) (s : State) :
    (Config.memorySize ≤ (s.readX reg).toNat ∧ jumpToRegister c reg s = .error .invalidAddress) ∨
      ((s.readX reg).toNat < Config.memorySize ∧ jumpToRegister c reg s = jumpTo c (s.readX reg) s) := by
  unfold jumpToRegister
  split
  · next h => exact .inl ⟨h, rfl⟩
  · next h => exact .inr ⟨Nat.not_le.1 h, rfl⟩

/-! ## Flags (10_state.md R31) -/

theorem testFlag_putFlag (w : Word) (i j : Nat) (on : Bool) (hi : i < 32) :
    testFlag (putFlag w i on) j = if j = i then on else testFlag w j := by
  have hone : (BitVec.ofNat Config.xlen (2 ^ i)).getLsbD j = decide (j = i) := by
    rw [BitVec.getLsbD_ofNat, Nat.testBit_two_pow]
    by_cases hji : j = i
    · simp [hji, hi]
    · simp [hji, Ne.symm hji]
  unfold testFlag putFlag
  generalize BitVec.ofNat Config.xlen (2 ^ i) = bit at hone ⊢
  by_cases hji : j = i
  · subst hji
    cases on <;> simp [-BitVec.getLsbD_eq_getElem, hone]
  · by_cases hj : j < 32
    · cases on <;> simp [-BitVec.getLsbD_eq_getElem, hone, hji, hj]
    · cases on <;> simp [-BitVec.getLsbD_eq_getElem, hone, hji, BitVec.getLsbD_of_ge w j (Nat.not_lt.1 hj)]

/-- The three bits and the rest after a compare (46_compare.md R220). -/
theorem testFlag_putZeroSign (w : Word) (equal greater : Bool) (j : Nat) :
    testFlag (putZeroSign w equal greater) j =
      if j = 0 then equal else if j = 1 then !equal && greater else testFlag w j := by
  rw [putZeroSign, testFlag_putFlag _ _ _ _ (by decide), testFlag_putFlag _ _ _ _ (by decide)]
  simp only [Config.zeroBit, Config.signBit]
  by_cases h1 : j = 1
  · subst h1; simp
  · simp [h1]

/-- The bits after a float compare (46_compare.md R221). -/
theorem testFlag_compareFloatFlags (w : Word) (equal greater overflow : Bool) (j : Nat) :
    testFlag (compareFloatFlags w equal greater overflow) j =
      if j = 0 then equal else if j = 1 then !equal && greater else if j = 2 then overflow else testFlag w j := by
  rw [compareFloatFlags, testFlag_putFlag _ _ _ _ (by decide), testFlag_putZeroSign]
  simp only [Config.overflowBit]
  by_cases h2 : j = 2
  · subst h2; simp
  · simp [h2]

end Sys2Proof.Machine
end

