-- ==== Sys2Proof/Laws/PerInstr.lean ====
section
/-! SUPPORT. The per-instruction family EncodeLength: an instruction's encoding is as long as its format says
(30_encoding.md R81, R86), one lemma per constructor. -/

namespace Sys2Proof.Laws.EncodeLength

/-- The encoding of `i` has the length of the format that 30_encoding.md R86 gives its opcode. -/
def Statement (i : Instr) : Prop := (encode i).length = i.opcode.format.length

theorem nop : Statement (.nop) := rfl

theorem halt : Statement (.halt) := rfl

theorem push (reg : XReg) : Statement (.push reg) := rfl

theorem pop (reg : XReg) : Statement (.pop reg) := rfl

theorem pushFloat (reg : FReg) : Statement (.pushFloat reg) := rfl

theorem popFloat (reg : FReg) : Statement (.popFloat reg) := rfl

theorem load (reg : XReg) (addr : Word) : Statement (.load reg addr) := rfl

theorem store (reg : XReg) (addr : Word) : Statement (.store reg addr) := rfl

theorem loadByte (reg : XReg) (addr : Word) : Statement (.loadByte reg addr) := rfl

theorem storeByte (reg : XReg) (addr : Word) : Statement (.storeByte reg addr) := rfl

theorem loadHalfWord (reg : XReg) (addr : Word) : Statement (.loadHalfWord reg addr) := rfl

theorem storeHalfWord (reg : XReg) (addr : Word) : Statement (.storeHalfWord reg addr) := rfl

theorem loadFloat (reg : FReg) (addr : Word) : Statement (.loadFloat reg addr) := rfl

theorem storeFloat (reg : FReg) (addr : Word) : Statement (.storeFloat reg addr) := rfl

theorem loadImmediate (reg : XReg) (imm : Word) : Statement (.loadImmediate reg imm) := rfl

theorem loadImmediateFloat (reg : FReg) (imm : Word) : Statement (.loadImmediateFloat reg imm) := rfl

theorem add (src1 src2 dst : XReg) : Statement (.add src1 src2 dst) := rfl

theorem sub (src1 src2 dst : XReg) : Statement (.sub src1 src2 dst) := rfl

theorem mul (src1 src2 dst : XReg) : Statement (.mul src1 src2 dst) := rfl

theorem div (src1 src2 dst : XReg) : Statement (.div src1 src2 dst) := rfl

theorem shl (src1 src2 dst : XReg) : Statement (.shl src1 src2 dst) := rfl

theorem shr (src1 src2 dst : XReg) : Statement (.shr src1 src2 dst) := rfl

theorem addFloat (src1 src2 dst : FReg) : Statement (.addFloat src1 src2 dst) := rfl

theorem subFloat (src1 src2 dst : FReg) : Statement (.subFloat src1 src2 dst) := rfl

theorem mulFloat (src1 src2 dst : FReg) : Statement (.mulFloat src1 src2 dst) := rfl

theorem divFloat (src1 src2 dst : FReg) : Statement (.divFloat src1 src2 dst) := rfl

theorem addImmediate (src : XReg) (imm : Word) (dst : XReg) : Statement (.addImmediate src imm dst) := rfl

theorem subImmediate (src : XReg) (imm : Word) (dst : XReg) : Statement (.subImmediate src imm dst) := rfl

theorem mulImmediate (src : XReg) (imm : Word) (dst : XReg) : Statement (.mulImmediate src imm dst) := rfl

theorem divImmediate (src : XReg) (imm : Word) (dst : XReg) : Statement (.divImmediate src imm dst) := rfl

theorem shlImmediate (src : XReg) (imm : Word) (dst : XReg) : Statement (.shlImmediate src imm dst) := rfl

theorem shrImmediate (src : XReg) (imm : Word) (dst : XReg) : Statement (.shrImmediate src imm dst) := rfl

theorem addFloatImmediate (src : FReg) (imm : Word) (dst : FReg) : Statement (.addFloatImmediate src imm dst) := rfl

theorem subFloatImmediate (src : FReg) (imm : Word) (dst : FReg) : Statement (.subFloatImmediate src imm dst) := rfl

theorem mulFloatImmediate (src : FReg) (imm : Word) (dst : FReg) : Statement (.mulFloatImmediate src imm dst) := rfl

theorem divFloatImmediate (src : FReg) (imm : Word) (dst : FReg) : Statement (.divFloatImmediate src imm dst) := rfl

theorem jump (addr : Word) : Statement (.jump addr) := rfl

theorem jumpZero (addr : Word) : Statement (.jumpZero addr) := rfl

theorem jumpEqual (addr : Word) : Statement (.jumpEqual addr) := rfl

theorem jumpLessThan (addr : Word) : Statement (.jumpLessThan addr) := rfl

theorem jumpGreaterThan (addr : Word) : Statement (.jumpGreaterThan addr) := rfl

theorem jumpRegister (reg : XReg) : Statement (.jumpRegister reg) := rfl

theorem jumpRegisterZero (reg : XReg) : Statement (.jumpRegisterZero reg) := rfl

theorem jumpRegisterEqual (reg : XReg) : Statement (.jumpRegisterEqual reg) := rfl

theorem jumpRegisterLessThan (reg : XReg) : Statement (.jumpRegisterLessThan reg) := rfl

theorem jumpRegisterGreaterThan (reg : XReg) : Statement (.jumpRegisterGreaterThan reg) := rfl

theorem compare (reg1 reg2 : XReg) : Statement (.compare reg1 reg2) := rfl

theorem compareFloat (reg1 reg2 : FReg) : Statement (.compareFloat reg1 reg2) := rfl

end Sys2Proof.Laws.EncodeLength
end

