-- ==== Sys2Proof/Tests/Slice0.lean ====
section
/-! SUPPORT. The model's own tests: ill-formed instructions refused, every opcode's bytes decoded, the vectors of
95_test_vectors.md (each theorem's name ends in its vector's id) one step at a time, the host's commands, and a witness for
the hypotheses of every statement. Expected values are the spec's. -/

namespace Sys2Proof.Tests

set_option Elab.async false

open Sys2Proof Sys2Proof.Machine

/-! ## Helpers -/

/-- The reset state, Running, with some registers, floats and bytes placed: the "before" of a vector. -/
def machine (x : List (XReg × Word)) (f : List (FReg × Word)) (m : List (Nat × List Byte)) : State :=
  let s := x.foldl (fun s p => s.writeX p.1 p.2) (State.reset.withRunState .running)
  let s := f.foldl (fun s p => s.writeF p.1 p.2) s
  s.withMem (m.foldl (fun q p => q.writeBytes p.1 p.2) s.mem)

/-- Whether a state shows the listed items: the "after" of a vector. -/
def shows (t : State) (run : RunState) (cause : Option FaultKind) (x : List (XReg × Word)) (f : List (FReg × Word))
    (m : List (Nat × List Byte)) : Bool :=
  t.runState == run && t.faultCause == cause && x.all (fun p => t.readX p.1 == p.2) &&
    f.all (fun p => t.readF p.1 == p.2) && m.all (fun p => t.mem.readBytes p.1 p.2.length == p.2)

/-- The state after one step, where there is one. -/
def after (s : State) : Option State :=
  match step s with
  | .next t => some t
  | .fault _ => none
  | .refused _ => none

/-- One step of `s` leads to a state that shows the listed items. -/
def leads (s : State) (run : RunState) (cause : Option FaultKind) (x : List (XReg × Word)) (f : List (FReg × Word))
    (m : List (Nat × List Byte)) : Bool :=
  (after s).any fun t => shows t run cause x f m

/-! ## Well-formedness: an address operand of 0x10000 is refused, 0xFFFF is not -/

theorem test_wellFormed_load : (Instr.load 1 0x10000).wellFormed = false ∧ (Instr.load 1 0xFFFF).wellFormed = true := by decide
theorem test_wellFormed_store : (Instr.store 1 0x10000).wellFormed = false ∧ (Instr.store 1 0xFFFF).wellFormed = true := by decide
theorem test_wellFormed_loadByte :
    (Instr.loadByte 1 0x10000).wellFormed = false ∧ (Instr.loadByte 1 0xFFFF).wellFormed = true := by decide
theorem test_wellFormed_storeByte :
    (Instr.storeByte 1 0x10000).wellFormed = false ∧ (Instr.storeByte 1 0xFFFF).wellFormed = true := by decide
theorem test_wellFormed_loadHalfWord :
    (Instr.loadHalfWord 1 0x10000).wellFormed = false ∧ (Instr.loadHalfWord 1 0xFFFF).wellFormed = true := by decide
theorem test_wellFormed_storeHalfWord :
    (Instr.storeHalfWord 1 0x10000).wellFormed = false ∧ (Instr.storeHalfWord 1 0xFFFF).wellFormed = true := by decide
theorem test_wellFormed_loadFloat :
    (Instr.loadFloat 1 0x10000).wellFormed = false ∧ (Instr.loadFloat 1 0xFFFF).wellFormed = true := by decide
theorem test_wellFormed_storeFloat :
    (Instr.storeFloat 1 0x10000).wellFormed = false ∧ (Instr.storeFloat 1 0xFFFF).wellFormed = true := by decide
theorem test_wellFormed_jump : (Instr.jump 0x10000).wellFormed = false ∧ (Instr.jump 0xFFFF).wellFormed = true := by decide
theorem test_wellFormed_jumpZero : (Instr.jumpZero 0x10000).wellFormed = false ∧ (Instr.jumpZero 0xFFFF).wellFormed = true := by decide
theorem test_wellFormed_jumpEqual : (Instr.jumpEqual 0x10000).wellFormed = false ∧ (Instr.jumpEqual 0xFFFF).wellFormed = true := by decide
theorem test_wellFormed_jumpLessThan :
    (Instr.jumpLessThan 0x10000).wellFormed = false ∧ (Instr.jumpLessThan 0xFFFF).wellFormed = true := by decide
theorem test_wellFormed_jumpGreaterThan :
    (Instr.jumpGreaterThan 0x10000).wellFormed = false ∧ (Instr.jumpGreaterThan 0xFFFF).wellFormed = true := by decide

/-! ## Decoding: the bytes of 30_encoding.md R81 and R86, written out -/

theorem test_decode_nop : decode [0x00] = .ok (.nop, []) := by decide +kernel
theorem test_decode_halt : decode [0x01] = .ok (.halt, []) := by decide +kernel
theorem test_decode_push : decode [0x02, 0x0D] = .ok (.push 13, []) := by decide +kernel
theorem test_decode_pop : decode [0x03, 0x0D] = .ok (.pop 13, []) := by decide +kernel
theorem test_decode_pushFloat : decode [0x04, 0x0D] = .ok (.pushFloat 13, []) := by decide +kernel
theorem test_decode_popFloat : decode [0x05, 0x0D] = .ok (.popFloat 13, []) := by decide +kernel
theorem test_decode_load : decode [0x06, 0x0D, 0x34, 0x12, 0x00, 0x00] = .ok (.load 13 0x1234, []) := by decide +kernel
theorem test_decode_store : decode [0x07, 0x0D, 0x34, 0x12, 0x00, 0x00] = .ok (.store 13 0x1234, []) := by decide +kernel
theorem test_decode_loadByte : decode [0x08, 0x0D, 0x34, 0x12, 0x00, 0x00] = .ok (.loadByte 13 0x1234, []) := by decide +kernel
theorem test_decode_storeByte : decode [0x09, 0x0D, 0x34, 0x12, 0x00, 0x00] = .ok (.storeByte 13 0x1234, []) := by decide +kernel
theorem test_decode_loadHalfWord : decode [0x0A, 0x0D, 0x34, 0x12, 0x00, 0x00] = .ok (.loadHalfWord 13 0x1234, []) := by decide +kernel
theorem test_decode_storeHalfWord : decode [0x0B, 0x0D, 0x34, 0x12, 0x00, 0x00] = .ok (.storeHalfWord 13 0x1234, []) := by decide +kernel
theorem test_decode_loadFloat : decode [0x0C, 0x0D, 0x34, 0x12, 0x00, 0x00] = .ok (.loadFloat 13 0x1234, []) := by decide +kernel
theorem test_decode_storeFloat : decode [0x0D, 0x0D, 0x34, 0x12, 0x00, 0x00] = .ok (.storeFloat 13 0x1234, []) := by decide +kernel
theorem test_decode_loadImmediate : decode [0x0E, 0x0D, 0x78, 0x56, 0x34, 0xA2] = .ok (.loadImmediate 13 0xA2345678, []) := by decide +kernel
theorem test_decode_loadImmediateFloat : decode [0x0F, 0x0D, 0x78, 0x56, 0x34, 0xA2] = .ok (.loadImmediateFloat 13 0xA2345678, []) := by decide +kernel
theorem test_decode_add : decode [0x10, 0x0D, 0x08, 0x0F] = .ok (.add 13 8 15, []) := by decide +kernel
theorem test_decode_sub : decode [0x11, 0x0D, 0x08, 0x0F] = .ok (.sub 13 8 15, []) := by decide +kernel
theorem test_decode_mul : decode [0x12, 0x0D, 0x08, 0x0F] = .ok (.mul 13 8 15, []) := by decide +kernel
theorem test_decode_div : decode [0x13, 0x0D, 0x08, 0x0F] = .ok (.div 13 8 15, []) := by decide +kernel
theorem test_decode_shl : decode [0x14, 0x0D, 0x08, 0x0F] = .ok (.shl 13 8 15, []) := by decide +kernel
theorem test_decode_shr : decode [0x15, 0x0D, 0x08, 0x0F] = .ok (.shr 13 8 15, []) := by decide +kernel
theorem test_decode_addFloat : decode [0x16, 0x0D, 0x08, 0x0F] = .ok (.addFloat 13 8 15, []) := by decide +kernel
theorem test_decode_subFloat : decode [0x17, 0x0D, 0x08, 0x0F] = .ok (.subFloat 13 8 15, []) := by decide +kernel
theorem test_decode_mulFloat : decode [0x18, 0x0D, 0x08, 0x0F] = .ok (.mulFloat 13 8 15, []) := by decide +kernel
theorem test_decode_divFloat : decode [0x19, 0x0D, 0x08, 0x0F] = .ok (.divFloat 13 8 15, []) := by decide +kernel
theorem test_decode_addImmediate :
    decode [0x1A, 0x0D, 0x78, 0x56, 0x34, 0xA2, 0x08] = .ok (.addImmediate 13 0xA2345678 8, []) := by decide +kernel
theorem test_decode_subImmediate :
    decode [0x1B, 0x0D, 0x78, 0x56, 0x34, 0xA2, 0x08] = .ok (.subImmediate 13 0xA2345678 8, []) := by decide +kernel
theorem test_decode_mulImmediate :
    decode [0x1C, 0x0D, 0x78, 0x56, 0x34, 0xA2, 0x08] = .ok (.mulImmediate 13 0xA2345678 8, []) := by decide +kernel
theorem test_decode_divImmediate :
    decode [0x1D, 0x0D, 0x78, 0x56, 0x34, 0xA2, 0x08] = .ok (.divImmediate 13 0xA2345678 8, []) := by decide +kernel
theorem test_decode_shlImmediate :
    decode [0x1E, 0x0D, 0x78, 0x56, 0x34, 0xA2, 0x08] = .ok (.shlImmediate 13 0xA2345678 8, []) := by decide +kernel
theorem test_decode_shrImmediate :
    decode [0x1F, 0x0D, 0x78, 0x56, 0x34, 0xA2, 0x08] = .ok (.shrImmediate 13 0xA2345678 8, []) := by decide +kernel
theorem test_decode_addFloatImmediate :
    decode [0x20, 0x0D, 0x78, 0x56, 0x34, 0xA2, 0x08] = .ok (.addFloatImmediate 13 0xA2345678 8, []) := by decide +kernel
theorem test_decode_subFloatImmediate :
    decode [0x21, 0x0D, 0x78, 0x56, 0x34, 0xA2, 0x08] = .ok (.subFloatImmediate 13 0xA2345678 8, []) := by decide +kernel
theorem test_decode_mulFloatImmediate :
    decode [0x22, 0x0D, 0x78, 0x56, 0x34, 0xA2, 0x08] = .ok (.mulFloatImmediate 13 0xA2345678 8, []) := by decide +kernel
theorem test_decode_divFloatImmediate :
    decode [0x23, 0x0D, 0x78, 0x56, 0x34, 0xA2, 0x08] = .ok (.divFloatImmediate 13 0xA2345678 8, []) := by decide +kernel
theorem test_decode_jump : decode [0x24, 0x34, 0x12, 0x00, 0x00] = .ok (.jump 0x1234, []) := by decide +kernel
theorem test_decode_jumpZero : decode [0x25, 0x34, 0x12, 0x00, 0x00] = .ok (.jumpZero 0x1234, []) := by decide +kernel
theorem test_decode_jumpEqual : decode [0x26, 0x34, 0x12, 0x00, 0x00] = .ok (.jumpEqual 0x1234, []) := by decide +kernel
theorem test_decode_jumpLessThan : decode [0x27, 0x34, 0x12, 0x00, 0x00] = .ok (.jumpLessThan 0x1234, []) := by decide +kernel
theorem test_decode_jumpGreaterThan : decode [0x28, 0x34, 0x12, 0x00, 0x00] = .ok (.jumpGreaterThan 0x1234, []) := by decide +kernel
theorem test_decode_jumpRegister : decode [0x29, 0x0D] = .ok (.jumpRegister 13, []) := by decide +kernel
theorem test_decode_jumpRegisterZero : decode [0x2A, 0x0D] = .ok (.jumpRegisterZero 13, []) := by decide +kernel
theorem test_decode_jumpRegisterEqual : decode [0x2B, 0x0D] = .ok (.jumpRegisterEqual 13, []) := by decide +kernel
theorem test_decode_jumpRegisterLessThan : decode [0x2C, 0x0D] = .ok (.jumpRegisterLessThan 13, []) := by decide +kernel
theorem test_decode_jumpRegisterGreaterThan : decode [0x2D, 0x0D] = .ok (.jumpRegisterGreaterThan 13, []) := by decide +kernel
theorem test_decode_compare : decode [0x2E, 0x0D, 0x08] = .ok (.compare 13 8, []) := by decide +kernel
theorem test_decode_compareFloat : decode [0x2F, 0x0D, 0x08] = .ok (.compareFloat 13 8, []) := by decide +kernel

/-! ## One step: vectors of 95_test_vectors.md section 2 -/

-- NOP
theorem test_nop_V1 :
    leads (machine [(13, 0x10)] [] [(0x10, [0x00])]) .running none
      [(13, 0x11)] [] [] = true := by decide +kernel
-- HALT
theorem test_halt_V3 :
    leads (machine [(13, 0x16)] [] [(0x16, [0x01])]) .halted none
      [(13, 0x17)] [] [] = true := by decide +kernel
-- byte 30
theorem test_step_V4 :
    leads (machine [(13, 0x0)] [] [(0x0, [0x30])]) .faulted (some .invalidOpcode)
      [(13, 0x0)] [] [] = true := by decide +kernel
-- byte FF at the last byte
theorem test_step_V5 :
    leads (machine [(13, 0xFFFF)] [] [(0xFFFF, [0xFF])]) .faulted (some .invalidOpcode)
      [(13, 0xFFFF)] [] [] = true := by decide +kernel
-- 06 63 cut off by the end of memory
theorem test_step_V6 :
    leads (machine [(13, 0xFFFE)] [] [(0xFFFE, [0x06, 0x63])]) .faulted (some .invalidRegisterId)
      [(13, 0xFFFE)] [] [] = true := by decide +kernel
-- 06 01 cut off by the end of memory
theorem test_step_V7 :
    leads (machine [(13, 0xFFFE)] [] [(0xFFFE, [0x06, 0x01])]) .faulted (some .truncatedInstruction)
      [(13, 0xFFFE), (1, 0x0)] [] [] = true := by decide +kernel
-- LOAD r1, 0x10000
theorem test_step_V8 :
    leads (machine [(13, 0x0)] [] [(0x0, [0x06, 0x01, 0x00, 0x00, 0x01, 0x00])]) .faulted (some .invalidAddress)
      [(13, 0x0), (1, 0x0)] [] [] = true := by decide +kernel
-- the same instruction one byte later
theorem test_step_V12 :
    leads (machine [(13, 0xFFFA), (1, 0x5)] [] [(0xFFFA, [0x1A, 0x01, 0x01, 0x00, 0x00, 0x00])]) .faulted (some .truncatedInstruction)
      [(13, 0xFFFA), (1, 0x5)] [] [] = true := by decide +kernel
-- DIV_IMMEDIATE r1, 0, (id 16)
theorem test_step_V13 :
    leads (machine [(13, 0x0), (1, 0x9)] [] [(0x0, [0x1D, 0x01, 0x00, 0x00, 0x00, 0x00, 0x10])]) .faulted (some .invalidRegisterId)
      [(13, 0x0), (1, 0x9)] [] [] = true := by decide +kernel
-- none fetched: pc out of range
theorem test_step_V14 :
    leads (machine [(13, 0xFFFFFFFF)] [] []) .halted none
      [(13, 0xFFFFFFFF)] [] [] = true := by decide +kernel
-- JUMP_ZERO 0x10000, ZERO clear
theorem test_step_V15 :
    leads (machine [(13, 0x0), (14, 0x0)] [] [(0x0, [0x25, 0x00, 0x00, 0x01, 0x00])]) .faulted (some .invalidAddress)
      [(13, 0x0)] [] [] = true := by decide +kernel
-- LOAD (id 16), 0x10000: both fields bad
theorem test_step_V18 :
    leads (machine [(13, 0x0)] [] [(0x0, [0x06, 0x10, 0x00, 0x00, 0x01, 0x00])]) .faulted (some .invalidRegisterId)
      [(13, 0x0)] [] [] = true := by decide +kernel
-- PUSH r1, stack full
theorem test_push_S3 :
    leads (machine [(13, 0x10), (12, 0x0), (1, 0x7)] [] [(0x10, [0x02, 0x01])]) .faulted (some .stackUnderflow)
      [(13, 0x10), (12, 0x0)] [] [(0x0, [0x00, 0x00, 0x00, 0x00])] = true := by decide +kernel
-- PUSH r1, sp = 2
theorem test_push_S9 :
    leads (machine [(13, 0x10), (12, 0x2), (1, 0xAABBCCDD)] [] [(0x10, [0x02, 0x01])]) .running none
      [(13, 0x12), (12, 0xFFFFFFFE)] [] [(0x2, [0xDD, 0xCC, 0xBB, 0xAA])] = true := by decide +kernel
-- POP r12
theorem test_pop_S7 :
    leads (machine [(13, 0x0), (12, 0x7FFC)] [] [(0x0, [0x03, 0x0C]), (0x8000, [0x00, 0x40, 0x00, 0x00])]) .running none
      [(13, 0x2), (12, 0x4000)] [] [] = true := by decide +kernel
-- POP r1, sp = 0xFFFFFFFE
theorem test_pop_S12 :
    leads (machine [(13, 0x0), (12, 0xFFFFFFFE)] [] [(0x0, [0x03, 0x01])]) .faulted (some .stackOverflow)
      [(13, 0x0), (12, 0xFFFFFFFE)] [] [] = true := by decide +kernel
-- PUSH_FLOAT f3
theorem test_pushFloat_S13 :
    leads (machine [(13, 0x0)] [(3, 0x40700000)] [(0x0, [0x04, 0x03])]) .running none
      [(13, 0x2), (12, 0x7FFC)] [] [(0x8000, [0x00, 0x00, 0x70, 0x40])] = true := by decide +kernel
-- POP_FLOAT f0
theorem test_popFloat_S14 :
    leads (machine [(13, 0x0), (12, 0x7FFC)] [] [(0x0, [0x05, 0x00]), (0x8000, [0x00, 0x00, 0x70, 0x40])]) .running none
      [(13, 0x2), (12, 0x8000)] [(0, 0x40700000)] [] = true := by decide +kernel
-- LOAD r1, 0xFFFC
theorem test_load_M2 :
    leads (machine [(13, 0x0)] [] [(0x0, [0x06, 0x01, 0xFC, 0xFF, 0x00, 0x00]), (0xFFFC, [0x01, 0x02, 0x03, 0x04])]) .running none
      [(13, 0x6), (1, 0x4030201)] [] [] = true := by decide +kernel
-- LOAD r1, 0xFFFD
theorem test_load_M3 :
    leads (machine [(13, 0x0), (1, 0x7)] [] [(0x0, [0x06, 0x01, 0xFD, 0xFF, 0x00, 0x00])]) .faulted (some .outOfBounds)
      [(13, 0x0), (1, 0x7)] [] [] = true := by decide +kernel
-- LOAD_BYTE r1, 0xFFFF
theorem test_loadByte_M5 :
    leads (machine [(13, 0x0), (1, 0xFFFFFFFF)] [] [(0x0, [0x08, 0x01, 0xFF, 0xFF, 0x00, 0x00]), (0xFFFF, [0x80])]) .running none
      [(13, 0x6), (1, 0x80)] [] [] = true := by decide +kernel
-- LOAD_HALF_WORD r5, 0x201 (odd address)
theorem test_loadHalfWord_M6 :
    leads (machine [(13, 0x0), (5, 0xFFFFFFFF)] [] [(0x0, [0x0A, 0x05, 0x01, 0x02, 0x00, 0x00]), (0x200, [0xDD, 0xCC, 0xBB, 0xAA])]) .running none
      [(13, 0x6), (5, 0xBBCC)] [] [] = true := by decide +kernel
-- LOAD_HALF_WORD r1, 0xFFFF
theorem test_loadHalfWord_M4 :
    leads (machine [(13, 0x0), (1, 0x7)] [] [(0x0, [0x0A, 0x01, 0xFF, 0xFF, 0x00, 0x00])]) .faulted (some .outOfBounds)
      [(13, 0x0), (1, 0x7)] [] [] = true := by decide +kernel
-- STORE r13, 0x100
theorem test_store_M18 :
    leads (machine [(13, 0x20)] [] [(0x20, [0x07, 0x0D, 0x00, 0x01, 0x00, 0x00])]) .running none
      [(13, 0x26)] [] [(0x100, [0x26, 0x00, 0x00, 0x00])] = true := by decide +kernel
-- STORE r1, 0xFFFE
theorem test_store_M8 :
    leads (machine [(13, 0x0), (1, 0xC)] [] [(0x0, [0x07, 0x01, 0xFE, 0xFF, 0x00, 0x00])]) .faulted (some .outOfBounds)
      [(13, 0x0)] [] [(0xFFFE, [0x00, 0x00])] = true := by decide +kernel
-- STORE_BYTE r1, 0x300
theorem test_storeByte_M9 :
    leads (machine [(13, 0x0), (1, 0xAABBCCDD)] [] [(0x0, [0x09, 0x01, 0x00, 0x03, 0x00, 0x00]), (0x300, [0x11, 0x22])]) .running none
      [(13, 0x6)] [] [(0x300, [0xDD, 0x22])] = true := by decide +kernel
-- STORE_HALF_WORD r1, 0x200
theorem test_storeHalfWord_M10 :
    leads (machine [(13, 0x0), (1, 0xAABBCCDD)] [] [(0x0, [0x0B, 0x01, 0x00, 0x02, 0x00, 0x00]), (0x200, [0x11, 0x22, 0x33])]) .running none
      [(13, 0x6)] [] [(0x200, [0xDD, 0xCC, 0x33])] = true := by decide +kernel
-- LOAD_FLOAT f12, 0x300 (float id 12 is not sp)
theorem test_loadFloat_M21 :
    leads (machine [(13, 0x0)] [] [(0x0, [0x0C, 0x0C, 0x00, 0x03, 0x00, 0x00]), (0x300, [0x00, 0x00, 0x80, 0x3F])]) .running none
      [(13, 0x6), (12, 0x8000)] [(12, 0x3F800000)] [] = true := by decide +kernel
-- STORE_FLOAT f3, 0x300 (a signalling NaN pattern)
theorem test_storeFloat_M12 :
    leads (machine [(13, 0x0)] [(3, 0x7FA00001)] [(0x0, [0x0D, 0x03, 0x00, 0x03, 0x00, 0x00])]) .running none
      [(13, 0x6)] [] [(0x300, [0x01, 0x00, 0xA0, 0x7F])] = true := by decide +kernel
-- LOAD_IMMEDIATE r12, 0x4000
theorem test_loadImmediate_M15 :
    leads (machine [(13, 0x0)] [] [(0x0, [0x0E, 0x0C, 0x00, 0x40, 0x00, 0x00])]) .running none
      [(13, 0x6), (12, 0x4000)] [] [] = true := by decide +kernel
-- LOAD_IMMEDIATE r14, 0xFFFFFFFF
theorem test_loadImmediate_M16 :
    leads (machine [(13, 0x0)] [] [(0x0, [0x0E, 0x0E, 0xFF, 0xFF, 0xFF, 0xFF])]) .running none
      [(13, 0x6), (14, 0xFFFFFFFF)] [] [] = true := by decide +kernel
-- LOAD_IMMEDIATE_FLOAT f1, 1.5
theorem test_loadImmediateFloat_M17 :
    leads (machine [(13, 0x0)] [] [(0x0, [0x0F, 0x01, 0x00, 0x00, 0xC0, 0x3F])]) .running none
      [(13, 0x6)] [(1, 0x3FC00000)] [] = true := by decide +kernel
-- ADD r1, r2, r3 (wraps)
theorem test_add_A2 :
    leads (machine [(13, 0x0), (1, 0xFFFFFFFF), (2, 0x1)] [] [(0x0, [0x10, 0x01, 0x02, 0x03])]) .running none
      [(13, 0x4), (3, 0x0), (14, 0x0)] [] [] = true := by decide +kernel
-- ADD r13, r0, r1 (reads the advanced pc)
theorem test_add_A20 :
    leads (machine [(13, 0x40)] [] [(0x40, [0x10, 0x0D, 0x00, 0x01])]) .running none
      [(13, 0x44), (1, 0x44)] [] [] = true := by decide +kernel
-- SUB r1, r2, r3
theorem test_sub_A3 :
    leads (machine [(13, 0x0), (1, 0x5), (2, 0x7)] [] [(0x0, [0x11, 0x01, 0x02, 0x03])]) .running none
      [(13, 0x4), (3, 0xFFFFFFFE), (14, 0x0)] [] [] = true := by decide +kernel
-- MUL r1, r1, r3
theorem test_mul_A7 :
    leads (machine [(13, 0x0), (1, 0xFFFFFFFF)] [] [(0x0, [0x12, 0x01, 0x01, 0x03])]) .running none
      [(13, 0x4), (3, 0x1)] [] [] = true := by decide +kernel
-- DIV r1, r2, r3 (unsigned)
theorem test_div_A9 :
    leads (machine [(13, 0x0), (1, 0xFFFFFFFF), (2, 0x2)] [] [(0x0, [0x13, 0x01, 0x02, 0x03])]) .running none
      [(13, 0x4), (3, 0x7FFFFFFF)] [] [] = true := by decide +kernel
-- DIV r1, r2, r3, divisor 0
theorem test_div_A11 :
    leads (machine [(13, 0xC), (1, 0x5), (2, 0x0), (3, 0x9)] [] [(0xC, [0x13, 0x01, 0x02, 0x03])]) .faulted (some .divisionByZero)
      [(13, 0xC), (3, 0x9)] [] [] = true := by decide +kernel
-- ADD_IMMEDIATE r1, 0xFFFFFFFF, r1
theorem test_addImmediate_A14 :
    leads (machine [(13, 0x0), (1, 0x5)] [] [(0x0, [0x1A, 0x01, 0xFF, 0xFF, 0xFF, 0xFF, 0x01])]) .running none
      [(13, 0x7), (1, 0x4)] [] [] = true := by decide +kernel
-- ADD_IMMEDIATE r13, 3, r13 (skips 3 bytes)
theorem test_addImmediate_A21 :
    leads (machine [(13, 0x40)] [] [(0x40, [0x1A, 0x0D, 0x03, 0x00, 0x00, 0x00, 0x0D])]) .running none
      [(13, 0x4A)] [] [] = true := by decide +kernel
-- SUB_IMMEDIATE r1, 1, r1 (wraps)
theorem test_subImmediate_A16 :
    leads (machine [(13, 0x0), (1, 0x0)] [] [(0x0, [0x1B, 0x01, 0x01, 0x00, 0x00, 0x00, 0x01])]) .running none
      [(13, 0x7), (1, 0xFFFFFFFF)] [] [] = true := by decide +kernel
-- MUL_IMMEDIATE r1, 7, r3
theorem test_mulImmediate_A17 :
    leads (machine [(13, 0x0), (1, 0x6)] [] [(0x0, [0x1C, 0x01, 0x07, 0x00, 0x00, 0x00, 0x03])]) .running none
      [(13, 0x7), (3, 0x2A)] [] [] = true := by decide +kernel
-- DIV_IMMEDIATE r1, 7, r3
theorem test_divImmediate_A18 :
    leads (machine [(13, 0x0), (1, 0x64)] [] [(0x0, [0x1D, 0x01, 0x07, 0x00, 0x00, 0x00, 0x03])]) .running none
      [(13, 0x7), (3, 0xE)] [] [] = true := by decide +kernel
-- DIV_IMMEDIATE r1, 0, r3
theorem test_divImmediate_A19 :
    leads (machine [(13, 0x0), (1, 0x64), (3, 0x9)] [] [(0x0, [0x1D, 0x01, 0x00, 0x00, 0x00, 0x00, 0x03])]) .faulted (some .divisionByZero)
      [(13, 0x0), (3, 0x9)] [] [] = true := by decide +kernel
-- SHL r1, r2, r3, amount 31
theorem test_shl_H3 :
    leads (machine [(13, 0x0), (1, 0xFFFFFFFF), (2, 0x1F)] [] [(0x0, [0x14, 0x01, 0x02, 0x03])]) .running none
      [(13, 0x4), (3, 0x80000000)] [] [] = true := by decide +kernel
-- SHL r1, r2, r3, amount 32
theorem test_shl_H4 :
    leads (machine [(13, 0x0), (1, 0xFFFFFFFF), (2, 0x20), (3, 0x9)] [] [(0x0, [0x14, 0x01, 0x02, 0x03])]) .running none
      [(13, 0x4), (3, 0x0)] [] [] = true := by decide +kernel
-- SHR r1, r2, r3, amount 31 (logical)
theorem test_shr_H7 :
    leads (machine [(13, 0x0), (1, 0x80000000), (2, 0x1F)] [] [(0x0, [0x15, 0x01, 0x02, 0x03])]) .running none
      [(13, 0x4), (3, 0x1)] [] [] = true := by decide +kernel
-- SHR r1, r2, r3, amount 33 (a 5-bit mask of the amount would give 0x40000000)
theorem test_shr_H9 :
    leads (machine [(13, 0x0), (1, 0x80000000), (2, 0x21), (3, 0x9)] [] [(0x0, [0x15, 0x01, 0x02, 0x03])]) .running none
      [(13, 0x4), (3, 0x0)] [] [] = true := by decide +kernel
-- SHL_IMMEDIATE r3, 256, r4
theorem test_shlImmediate_H11 :
    leads (machine [(13, 0x0), (3, 0xCC), (4, 0x9)] [] [(0x0, [0x1E, 0x03, 0x00, 0x01, 0x00, 0x00, 0x04])]) .running none
      [(13, 0x7), (4, 0x0)] [] [] = true := by decide +kernel
-- SHL_IMMEDIATE r3, 4, r4
theorem test_shlImmediate_H10 :
    leads (machine [(13, 0x0), (3, 0xCC)] [] [(0x0, [0x1E, 0x03, 0x04, 0x00, 0x00, 0x00, 0x04])]) .running none
      [(13, 0x7), (4, 0xCC0)] [] [] = true := by decide +kernel
-- SHR_IMMEDIATE r1, 16, r2
theorem test_shrImmediate_H12 :
    leads (machine [(13, 0x0), (1, 0xAABBCCDD)] [] [(0x0, [0x1F, 0x01, 0x10, 0x00, 0x00, 0x00, 0x02])]) .running none
      [(13, 0x7), (2, 0xAABB)] [] [] = true := by decide +kernel
-- SHR_IMMEDIATE r1, 32, r2
theorem test_shrImmediate_H13 :
    leads (machine [(13, 0x0), (1, 0xAABBCCDD), (2, 0x9)] [] [(0x0, [0x1F, 0x01, 0x20, 0x00, 0x00, 0x00, 0x02])]) .running none
      [(13, 0x7), (2, 0x0), (14, 0x0)] [] [] = true := by decide +kernel
-- ADD_FLOAT f1, f2, f3 (2^24 + 1, tie to even)
theorem test_addFloat_F2 :
    leads (machine [(13, 0x0)] [(1, 0x4B800000), (2, 0x3F800000)] [(0x0, [0x16, 0x01, 0x02, 0x03])]) .running none
      [(13, 0x4)] [(3, 0x4B800000)] [] = true := by decide +kernel
-- ADD_FLOAT f1, f2, f3 (2^24+2 + 1, tie to even, up)
theorem test_addFloat_F3 :
    leads (machine [(13, 0x0)] [(1, 0x4B800001), (2, 0x3F800000)] [(0x0, [0x16, 0x01, 0x02, 0x03])]) .running none
      [(13, 0x4)] [(3, 0x4B800002)] [] = true := by decide +kernel
-- SUB_FLOAT f1, f2, f3 (3.75 − 1.5)
theorem test_subFloat_F5 :
    leads (machine [(13, 0x0)] [(1, 0x40700000), (2, 0x3FC00000)] [(0x0, [0x17, 0x01, 0x02, 0x03])]) .running none
      [(13, 0x4)] [(3, 0x40100000)] [] = true := by decide +kernel
-- SUB_FLOAT f1, f1, f3 (x − x)
theorem test_subFloat_F6 :
    leads (machine [(13, 0x0)] [(1, 0xC0700000), (3, 0x12345678)] [(0x0, [0x17, 0x01, 0x01, 0x03])]) .running none
      [(13, 0x4)] [(3, 0x0)] [] = true := by decide +kernel
-- MUL_FLOAT f1, f2, f3 (−2.0 × +0)
theorem test_mulFloat_F8 :
    leads (machine [(13, 0x0)] [(1, 0xC0000000), (2, 0x0)] [(0x0, [0x18, 0x01, 0x02, 0x03])]) .running none
      [(13, 0x4)] [(3, 0x80000000)] [] = true := by decide +kernel
-- MUL_FLOAT f1, f2, f3 (smallest normal × 0.5: subnormal)
theorem test_mulFloat_F9 :
    leads (machine [(13, 0x0)] [(1, 0x800000), (2, 0x3F000000)] [(0x0, [0x18, 0x01, 0x02, 0x03])]) .running none
      [(13, 0x4)] [(3, 0x400000)] [] = true := by decide +kernel
-- DIV_FLOAT f1, f2, f3 (1.0 / 3.0)
theorem test_divFloat_F11 :
    leads (machine [(13, 0x0)] [(1, 0x3F800000), (2, 0x40400000)] [(0x0, [0x19, 0x01, 0x02, 0x03])]) .running none
      [(13, 0x4)] [(3, 0x3EAAAAAB)] [] = true := by decide +kernel
-- DIV_FLOAT f1, f2, f3 (1.0 / +0: no fault)
theorem test_divFloat_F12 :
    leads (machine [(13, 0x0)] [(1, 0x3F800000), (2, 0x0)] [(0x0, [0x19, 0x01, 0x02, 0x03])]) .running none
      [(13, 0x4)] [(3, 0x7F800000)] [] = true := by decide +kernel
-- ADD_FLOAT_IMMEDIATE f1, 0.5, f2
theorem test_addFloatImmediate_F14 :
    leads (machine [(13, 0x0)] [(1, 0x3FC00000)] [(0x0, [0x20, 0x01, 0x00, 0x00, 0x00, 0x3F, 0x02])]) .running none
      [(13, 0x7)] [(2, 0x40000000)] [] = true := by decide +kernel
-- SUB_FLOAT_IMMEDIATE f1, 0.5, f2
theorem test_subFloatImmediate_F15 :
    leads (machine [(13, 0x0)] [(1, 0x40000000)] [(0x0, [0x21, 0x01, 0x00, 0x00, 0x00, 0x3F, 0x02])]) .running none
      [(13, 0x7)] [(2, 0x3FC00000)] [] = true := by decide +kernel
-- MUL_FLOAT_IMMEDIATE f1, 2.0, f2
theorem test_mulFloatImmediate_F16 :
    leads (machine [(13, 0x0)] [(1, 0x3FC00000)] [(0x0, [0x22, 0x01, 0x00, 0x00, 0x00, 0x40, 0x02])]) .running none
      [(13, 0x7)] [(2, 0x40400000)] [] = true := by decide +kernel
-- DIV_FLOAT_IMMEDIATE f1, 2.0, f2
theorem test_divFloatImmediate_F17 :
    leads (machine [(13, 0x0)] [(1, 0x40400000)] [(0x0, [0x23, 0x01, 0x00, 0x00, 0x00, 0x40, 0x02])]) .running none
      [(13, 0x7)] [(2, 0x3FC00000)] [] = true := by decide +kernel
-- DIV_FLOAT_IMMEDIATE f1, +0, f2 (−3.0 / +0)
theorem test_divFloatImmediate_F18 :
    leads (machine [(13, 0x0)] [(1, 0xC0400000)] [(0x0, [0x23, 0x01, 0x00, 0x00, 0x00, 0x00, 0x02])]) .running none
      [(13, 0x7)] [(2, 0xFF800000)] [] = true := by decide +kernel
-- COMPARE r1, r2, unsigned: 0xFFFFFFFF > 1
theorem test_compare_C4 :
    leads (machine [(13, 0x0), (1, 0xFFFFFFFF), (2, 0x1)] [] [(0x0, [0x2E, 0x01, 0x02])]) .running none
      [(13, 0x3), (14, 0x2)] [] [] = true := by decide +kernel
-- COMPARE r14, r0 (flags word as operand)
theorem test_compare_C7 :
    leads (machine [(13, 0x0), (14, 0x1)] [] [(0x0, [0x2E, 0x0E, 0x00])]) .running none
      [(13, 0x3), (14, 0x2)] [] [] = true := by decide +kernel
-- COMPARE_FLOAT f0, f1 (FLT_MAX, −FLT_MAX: overflow)
theorem test_compareFloat_C14 :
    leads (machine [(13, 0x0)] [(0, 0x7F7FFFFF), (1, 0xFF7FFFFF)] [(0x0, [0x2F, 0x00, 0x01])]) .running none
      [(13, 0x3), (14, 0x6)] [] [] = true := by decide +kernel
-- COMPARE_FLOAT f1, f2 (NaN, 1.0)
theorem test_compareFloat_C12 :
    leads (machine [(13, 0x0), (14, 0xF)] [(1, 0x7FC00000), (2, 0x3F800000)] [(0x0, [0x2F, 0x01, 0x02])]) .running none
      [(13, 0x3), (14, 0x8)] [] [] = true := by decide +kernel
-- JUMP 0x0C
theorem test_jump_J17 :
    leads (machine [(13, 0x1F)] [] [(0x1F, [0x24, 0x0C, 0x00, 0x00, 0x00])]) .running none
      [(13, 0xC)] [] [] = true := by decide +kernel
-- JUMP 0xFFFF
theorem test_jump_J18 :
    leads (machine [(13, 0x0)] [] [(0x0, [0x24, 0xFF, 0xFF, 0x00, 0x00])]) .running none
      [(13, 0xFFFF)] [] [] = true := by decide +kernel
-- JUMP_ZERO 0x24, ZERO set
theorem test_jumpZero_J19 :
    leads (machine [(13, 0x1A), (14, 0x1)] [] [(0x1A, [0x25, 0x24, 0x00, 0x00, 0x00])]) .running none
      [(13, 0x24)] [] [] = true := by decide +kernel
-- JUMP_ZERO 0x24, ZERO clear
theorem test_jumpZero_J20 :
    leads (machine [(13, 0x1A), (14, 0x2)] [] [(0x1A, [0x25, 0x24, 0x00, 0x00, 0x00])]) .running none
      [(13, 0x1F)] [] [] = true := by decide +kernel
-- JUMP_EQUAL 0x100, ZERO set, CARRY set
theorem test_jumpEqual_J21 :
    leads (machine [(13, 0x40), (14, 0x9)] [] [(0x40, [0x26, 0x00, 0x01, 0x00, 0x00])]) .running none
      [(13, 0x100), (14, 0x9)] [] [] = true := by decide +kernel
-- JUMP_EQUAL 0x100, only bits 31:3 set
theorem test_jumpEqual_J22 :
    leads (machine [(13, 0x40), (14, 0xFFFFFFF8)] [] [(0x40, [0x26, 0x00, 0x01, 0x00, 0x00])]) .running none
      [(13, 0x45)] [] [] = true := by decide +kernel
-- JUMP_LESS_THAN 0x100, O S Z = 010
theorem test_jumpLessThan_J3 :
    leads (machine [(13, 0x40), (14, 0x2)] [] [(0x40, [0x27, 0x00, 0x01, 0x00, 0x00])]) .running none
      [(13, 0x100)] [] [] = true := by decide +kernel
-- JUMP_LESS_THAN 0x100, O S Z = 110
theorem test_jumpLessThan_J7 :
    leads (machine [(13, 0x40), (14, 0x6)] [] [(0x40, [0x27, 0x00, 0x01, 0x00, 0x00])]) .running none
      [(13, 0x45)] [] [] = true := by decide +kernel
-- JUMP_GREATER_THAN 0x100, O S Z = 001
theorem test_jumpGreaterThan_J10 :
    leads (machine [(13, 0x40), (14, 0x1)] [] [(0x40, [0x28, 0x00, 0x01, 0x00, 0x00])]) .running none
      [(13, 0x100)] [] [] = true := by decide +kernel
-- JUMP_GREATER_THAN 0x100, O S Z = 010
theorem test_jumpGreaterThan_J11 :
    leads (machine [(13, 0x40), (14, 0x2)] [] [(0x40, [0x28, 0x00, 0x01, 0x00, 0x00])]) .running none
      [(13, 0x45)] [] [] = true := by decide +kernel
-- JUMP_REGISTER r3
theorem test_jumpRegister_J23 :
    leads (machine [(13, 0x10), (3, 0x200)] [] [(0x10, [0x29, 0x03])]) .running none
      [(13, 0x200)] [] [] = true := by decide +kernel
-- JUMP_REGISTER r3, target 0x10000
theorem test_jumpRegister_J24 :
    leads (machine [(13, 0x10), (3, 0x10000)] [] [(0x10, [0x29, 0x03])]) .faulted (some .invalidAddress)
      [(13, 0x10)] [] [] = true := by decide +kernel
-- JUMP_REGISTER_ZERO r3, ZERO clear, bad target
theorem test_jumpRegisterZero_J25 :
    leads (machine [(13, 0x10), (3, 0xFFFFFFFF), (14, 0x0)] [] [(0x10, [0x2A, 0x03])]) .faulted (some .invalidAddress)
      [(13, 0x10)] [] [] = true := by decide +kernel
-- JUMP_REGISTER_ZERO r3, ZERO set
theorem test_jumpRegisterZero_J27 :
    leads (machine [(13, 0x10), (3, 0x200), (14, 0x1)] [] [(0x10, [0x2A, 0x03])]) .running none
      [(13, 0x200)] [] [] = true := by decide +kernel
-- JUMP_REGISTER_EQUAL r3, ZERO set
theorem test_jumpRegisterEqual_J28 :
    leads (machine [(13, 0x10), (3, 0x200), (14, 0x1)] [] [(0x10, [0x2B, 0x03])]) .running none
      [(13, 0x200)] [] [] = true := by decide +kernel
-- JUMP_REGISTER_LESS_THAN r3, SIGN set
theorem test_jumpRegisterLessThan_J29 :
    leads (machine [(13, 0x10), (3, 0x200), (14, 0x2)] [] [(0x10, [0x2C, 0x03])]) .running none
      [(13, 0x200)] [] [] = true := by decide +kernel
-- JUMP_REGISTER_LESS_THAN r3, all clear
theorem test_jumpRegisterLessThan_J30 :
    leads (machine [(13, 0x10), (3, 0x200), (14, 0x0)] [] [(0x10, [0x2C, 0x03])]) .running none
      [(13, 0x12)] [] [] = true := by decide +kernel
-- JUMP_REGISTER_GREATER_THAN r3, ZERO set
theorem test_jumpRegisterGreaterThan_J31 :
    leads (machine [(13, 0x10), (3, 0x200), (14, 0x1)] [] [(0x10, [0x2D, 0x03])]) .running none
      [(13, 0x200)] [] [] = true := by decide +kernel
-- JUMP_REGISTER_GREATER_THAN r3, SIGN set
theorem test_jumpRegisterGreaterThan_J32 :
    leads (machine [(13, 0x10), (3, 0x200), (14, 0x2)] [] [(0x10, [0x2D, 0x03])]) .running none
      [(13, 0x12)] [] [] = true := by decide +kernel

/-! ## Placing one instruction of the opcode table -/

/-- Column "length" of 30_encoding.md R81. -/
theorem test_format_lengths : Format.all.map Format.length = [1, 2, 3, 4, 5, 6, 6, 6, 7, 7] := by decide

theorem test_decodeTableWord_addImmediate : decodeTableWord 56 0x020000000A011A = some (.addImmediate 1 10 2) := by
  decide +kernel

theorem test_decodeTableWord_ignores_bits_above : decodeTableWord 8 0xFF01 = some .halt := by decide +kernel

theorem test_withFetchWord_runs_it :
    leads (State.reset.withFetchWord 56 0x020000000A011A) .running none [(13, 7), (2, 10), (12, 0x8000)] [] [] = true := by
  decide +kernel

/-! ## The host's commands: vectors of 95_test_vectors.md section 3, and program P1 of its section 4 -/

theorem test_host_X1 : hostCommand (.loadProgram (List.replicate 65537 0)) State.reset =
    some (.failed .programTooLarge, State.reset) := by decide +kernel

theorem test_host_X4 : (hostCommand (.loadProgram [0xAA, 0xBB]) (State.reset.withMem [(0, 1), (1, 2), (2, 3), (3, 4), (4, 5)])) =
    some (.done, State.reset.withMem [(0, 0xAA), (1, 0xBB), (2, 3), (3, 4), (4, 5)]) := by decide +kernel

theorem test_host_X7 : (hostCommand .start State.reset).map (fun p => isRunning p.2) = some true := by decide +kernel

theorem test_host_X11 :
    hostCommand .start (State.reset.raise .invalidOpcode) = some (.done, State.reset.raise .invalidOpcode) := by
  decide +kernel

theorem test_host_X12 : hostCommand .reset ((State.reset.writeX 1 9).raise .invalidOpcode) = some (.done, State.reset) := by
  decide +kernel

/-- U17: "the model gives the host no such move". -/
theorem test_host_U17 : hostCommand .reset (State.reset.withRunState .running) = none ∧
    hostCommand (.loadProgram []) (State.reset.withRunState .running) = none := by decide +kernel

theorem test_host_X14 : hostCommand (.readMemory 0xFFFD .four) State.reset = some (.failed .outOfBounds, State.reset) := by
  decide +kernel

/-- The source's own program E6: `read_register(1) == 12` and `read_memory(0xFF, 4) == 12`. -/
theorem test_program_P1 : (hostCommand (.loadProgram [0x0E, 1, 5, 0, 0, 0, 0x0E, 2, 7, 0, 0, 0, 0x10, 1, 2, 1,
    0x07, 1, 0xFF, 0, 0, 0, 0x01]) State.reset).map (fun p =>
      let t := run 5 p.2
      (runReport t, readRegister 1 t, readMemory 0xFF 4 t)) = some (.success, 12, .ok 12) := by decide +kernel

/-! ## Witnesses: each meets the hypotheses of one statement, at a boundary value where it has one -/

/-- A wide instruction that ends at the last byte of memory (vector V11). -/
def lastFit : State := machine [(13, 0xFFF9), (1, 5)] [] [(0xFFF9, [0x1A, 1, 1, 0, 0, 0, 1])]

/-- The same one byte later (vector V12). -/
def cutOff : State := machine [(13, 0xFFFA), (1, 5)] [] [(0xFFFA, [0x1A, 1, 1, 0, 0, 0])]

/-- A HALT at the last byte of memory. -/
def atHalt : State := machine [(13, 0xFFFF)] [] [(0xFFFF, [0x01])]

/-- A division by zero at pc (vector A11). -/
def atFault : State := machine [(13, 0xC), (1, 5), (3, 9)] [] [(0xC, [0x13, 1, 2, 3])]

theorem witness_DecodeOfEncodeIsTheInstruction : (Instr.load 15 0xFFFF).wellFormed = true := by decide

theorem witness_DecodedBytesAreTheEncoding : decode [0x06, 15, 0xFF, 0xFF, 0, 0, 7] = .ok (.load 15 0xFFFF, [7]) := by
  decide +kernel

theorem witness_DecodeYieldsOnlyFourFaults : decode [0x30] = .error .invalidOpcode ∧
    decode [0x02, 16] = .error .invalidRegisterId ∧ decode [0x24, 0, 0, 1, 0] = .error .invalidAddress ∧
    decode [0x02] = .error .truncatedInstruction := by decide +kernel

theorem witness_UnknownOpcodesAreInvalid : 0x30 ≤ (0x30 : Byte).toNat ∧ ¬ 0x30 ≤ (0x2F : Byte).toNat := by decide

theorem witness_FirstOffendingFieldDecides : 16 ≤ (0x10 : Byte).toNat ∧ Config.memorySize ≤ (0x10000 : Word).toNat ∧
    Opcode.push.format ≠ .n ∧ Opcode.push.format ≠ .a ∧ Opcode.compare.format = .rr ∧ Opcode.add.format = .rrr ∧
    Opcode.addImmediate.format = .rir .integer ∧ Opcode.jump.format = .a ∧ Opcode.load.format = .ra := by decide

theorem witness_CutOffInstructionIsTruncated : (Instr.load 1 0xFFFF).wellFormed = true ∧ 0 < 5 ∧
    5 < (encode (.load 1 0xFFFF)).length := by decide +kernel

theorem witness_StepRunsTheDecodedInstruction : lastFit.runState = .running ∧ lastFit.pc.toNat < Config.memorySize ∧
    decode lastFit.fetch = .ok (.addImmediate 1 1 1, []) := by decide +kernel

theorem witness_StepRunsTheBytesAtPc : lastFit.runState = .running ∧ (Instr.addImmediate 1 1 1).wellFormed = true ∧
    lastFit.pc.toNat + (encode (.addImmediate 1 1 1)).length ≤ Config.memorySize ∧
    ∀ (k : Nat) (h : k < (encode (.addImmediate 1 1 1)).length),
      lastFit.readByte (lastFit.pc.toNat + k) = (encode (.addImmediate 1 1 1))[k] := by decide +kernel

theorem witness_PcPastMemoryHaltsWithoutFault : (machine [(13, 0x10000)] [] []).runState = .running ∧
    Config.memorySize ≤ (machine [(13, 0x10000)] [] []).pc.toNat := by decide +kernel

theorem witness_UnknownOpcodeAtPcFaults :
    let s := machine [(13, 0xFFFF)] [] [(0xFFFF, [0x30])]
    s.runState = .running ∧ s.pc.toNat < Config.memorySize ∧ 0x30 ≤ (s.readByte s.pc.toNat).toNat ∧
      step s = .next (s.raise .invalidOpcode) := by
  refine ⟨?_, ?_, ?_, ?_⟩
  · decide +kernel
  · decide +kernel
  · decide +kernel
  · rfl

theorem witness_InstructionPastMemoryIsTruncated : cutOff.runState = .running ∧
    (Instr.addImmediate 1 1 1).wellFormed = true ∧ cutOff.pc.toNat < Config.memorySize ∧
    Config.memorySize < cutOff.pc.toNat + (encode (.addImmediate 1 1 1)).length ∧
    ∀ (k : Nat) (h : k < (encode (.addImmediate 1 1 1)).length), cutOff.pc.toNat + k < Config.memorySize →
      cutOff.readByte (cutOff.pc.toNat + k) = (encode (.addImmediate 1 1 1))[k] := by decide +kernel

theorem witness_DecodedInstructionLiesInMemory : lastFit.pc.toNat < Config.memorySize ∧
    decode lastFit.fetch = .ok (.addImmediate 1 1 1, []) := by decide +kernel

theorem witness_RunningStepHasANextState : lastFit.runState = .running := by decide +kernel

theorem witness_StoppedMachineTakesNoStep : State.reset.runState = .halted ∧
    (State.reset.raise .outOfBounds).runState = .faulted := by decide

theorem witness_OnlyHaltAndMemoryEndHalt : atHalt.runState = .running ∧
    (after atHalt).map (fun t => t.runState) = some .halted ∧
    (after (machine [(13, 0x10000)] [] [])).map (fun t => t.runState) = some .halted := by decide +kernel

theorem witness_FaultEntryIsPrecise : atFault.runState = .running ∧
    (after atFault).map (fun t => t.runState) = some .faulted := by decide +kernel

theorem witness_EveryStepKeepsTheInvariant : Machine.Inv atFault ∧ (after atFault).isSome = true :=
  ⟨⟨by decide +kernel, by decide +kernel, by decide +kernel⟩, by decide +kernel⟩

theorem witness_RegistersChangeOnlyWhereNamed : ∃ t, exec (.pop 1) (machine [(12, 0x7FFC)] [] []) = .next t ∧
    destinationX (.pop 1) ≠ some 2 ∧ implicitX (.pop 1) ≠ some 2 ∧ destinationF (.pop 1) ≠ some 2 :=
  ⟨_, rfl, by decide, by decide, by decide⟩

theorem witness_MemoryChangesOnlyWhereStored : (∃ t, exec (.push 1) State.reset = .next t) ∧
    storeTarget State.reset (.push 1) = some (0x8000, 4) ∧ storeTarget State.reset (.pop 1) = none ∧
    ∃ t, exec (.pop 1) State.reset = .next t := ⟨⟨_, rfl⟩, by decide +kernel, by decide +kernel, ⟨_, rfl⟩⟩

theorem witness_FlagsChangeOnlyByCompareOrDestination : (∃ t, exec (.compare 1 2) State.reset = .next t) ∧
    destinationX (.compare 1 2) ≠ some Config.flagsId ∧ (∃ t, exec (.add 1 2 3) State.reset = .next t) ∧
    destinationX (.add 1 2 3) ≠ some Config.flagsId ∧ implicitX (.add 1 2 3) ≠ some Config.flagsId :=
  ⟨⟨_, rfl⟩, by decide, ⟨_, rfl⟩, by decide, by decide⟩

theorem witness_PushEffect : State.reset.mem.wf = true ∧ 0 < (State.reset.writeX 12 1).sp.toNat ∧
    (State.reset.writeX 12 0xFFFC).sp.toNat < 0xFFFD ∧ (State.reset.writeX 12 0).sp.toNat = 0 ∧
    0xFFFD ≤ (State.reset.writeX 12 0xFFFD).sp.toNat := by decide +kernel

theorem witness_PopEffect : (State.reset.writeX 12 0x7FFF).sp.toNat < 0x8000 ∧ 0x8000 ≤ State.reset.sp.toNat ∧
    (1 : XReg) ≠ Config.spId ∧ (1 : XReg) ≠ Config.pcId := by decide +kernel

theorem witness_PushThenPopReturnsTheValue : State.reset.mem.wf = true ∧ (13 : XReg) ≠ Config.spId ∧
    4 ≤ (State.reset.writeX 12 4).sp.toNat ∧ (State.reset.writeX 12 0x8003).sp.toNat ≤ 0x8003 := by decide +kernel

theorem witness_LoadEffect : (0xFFFC : Word).toNat + 4 ≤ 65536 ∧ 65536 < (0xFFFD : Word).toNat + 4 ∧
    (0xFFFE : Word).toNat + 2 ≤ 65536 ∧ 65536 < (0xFFFF : Word).toNat + 2 ∧ (0xFFFF : Word).toNat < 65536 := by decide

theorem witness_StoreEffect : State.reset.mem.wf = true ∧ (0xFFFC : Word).toNat + 4 ≤ 65536 ∧
    65536 < (0xFFFD : Word).toNat + 4 ∧ (0xFFFE : Word).toNat + 2 ≤ 65536 ∧ 65536 < (0xFFFF : Word).toNat + 2 ∧
    (0xFFFF : Word).toNat < 65536 := by decide

theorem witness_MemoryWriteThenReadReturnsTheBytes : State.reset.mem.wf = true ∧
    State.reset.memWrite 0xFFFE 2 0x0100#32 = .ok (State.reset.withMem [(0xFFFF, 1)]) := by decide +kernel

theorem witness_StoreIsSeenByTheNextFetch : State.reset.mem.wf = true ∧ (0xFFFC : Word).toNat + 4 ≤ 65536 ∧
    ∃ t, exec (.store 1 0xFFFC) (machine [(13, 0xFFF8), (1, 7)] [] []) = .next t ∧ 0 < t.fetch.length :=
  ⟨by decide, by decide, _, rfl, by decide +kernel⟩

theorem witness_DivisionEffect : sourceX (State.reset.writeX 2 1) 4 2 ≠ 0#32 ∧ sourceX State.reset 4 2 = 0#32 := by
  decide +kernel

theorem witness_FinitePatternHasItsFormatValue : isFinite 0x7F7FFFFF = true ∧ isFinite 0x807FFFFF = true := by
  decide +kernel

theorem witness_NonFinitePatternsOfTheFormat : isFinite 0x7F7FFFFF = true ∧ isFinite 0xFF7FFFFF = true ∧
    isInfinite 0xFF800000 = true ∧ isNaN 0x7F800001 = true ∧ isNaN 0xFFFFFFFF = true := by decide +kernel

theorem witness_FloatSumIsCorrectlyRounded : isFinite 0x3FC00000 = true ∧ isFinite 0xBFC00000 = true ∧
    floatUnits 0x3FC00000 + floatUnits 0x3FC00000 ≠ 0 ∧ floatUnits 0x3FC00000 + floatUnits 0xBFC00000 = 0 ∧
    floatUnits 0x3FC00000 - floatUnits 0xBFC00000 ≠ 0 ∧ floatUnits 0x3FC00000 - floatUnits 0x3FC00000 = 0 := by
  decide +kernel

theorem witness_FloatProductIsCorrectlyRounded : isFinite 0x7F7FFFFF = true ∧ isFinite 0x80000001 = true := by
  decide +kernel

theorem witness_FloatQuotientIsCorrectlyRounded : isFinite 0x7F7FFFFF = true ∧ isFinite 0x80000001 = true ∧
    isZero 0x80000001 = false := by decide +kernel

theorem witness_FloatSpecialCases : isNaN 0x7F800001 = true ∧ isInfinite 0x7F800000 = true ∧
    isInfinite 0xFF800000 = true ∧ (floatSign 0x7F800000 != floatSign 0xFF800000) = true ∧
    (floatSign 0x7F800000 != floatSign 0x7F800000) = false ∧ isInfinite 0x3F800000 = false ∧
    isNaN 0x3F800000 = false ∧ isNaN 0x7F800000 = false ∧ isZero 0x80000000 = true ∧ isZero 0x00000000 = true ∧
    isNaN 0x80000000 = false ∧ isInfinite 0x80000000 = false ∧ isZero 0x3F800000 = false ∧ isZero 0x7F800000 = false := by
  decide +kernel

theorem witness_CompareEffect : 16 ≤ (0x10 : Byte).toNat ∧
    sourceX State.reset 3 1 = sourceX State.reset 3 2 ∧
    (sourceX (State.reset.writeX 1 0xFFFFFFFF) 3 2).toNat < (sourceX (State.reset.writeX 1 0xFFFFFFFF) 3 1).toNat ∧
    (sourceX (State.reset.writeX 2 1) 3 1).toNat < (sourceX (State.reset.writeX 2 1) 3 2).toNat := by decide +kernel

theorem witness_CompareFloatEffect : 16 ≤ (0x10 : Byte).toNat ∧ isNaN 0x7FC00000 = true ∧ isNaN 0x00000000 = false ∧
    isNaN 0x80000000 = false ∧ floatUnits 0x00000000 = floatUnits 0x80000000 ∧ isNaN 0x7F800000 = false ∧
    floatUnits 0x7F7FFFFF < floatUnits 0x7F800000 ∧ isInfinite 0x7F800000 = true ∧ floatSign 0x7F800000 = false ∧
    isInfinite 0xFF800000 = true ∧ floatSign 0xFF800000 = true ∧ isNaN 0x7F7FFFFF = false ∧
    ¬(isInfinite 0x7F7FFFFF = true ∧ floatSign 0x7F7FFFFF = false) ∧
    ¬(isInfinite 0xFF7FFFFF = true ∧ floatSign 0xFF7FFFFF = true) ∧ isNaN 0xFF7FFFFF = false ∧ floatUnits 0xFF7FFFFF < floatUnits 0x7F7FFFFF ∧
    isFinite 0x7F7FFFFF = true ∧ isFinite 0xFF7FFFFF = true ∧
    (2 ^ 24 - 1) * 2 ^ (104 + 149) < |floatUnits 0x7F7FFFFF - floatUnits 0xFF7FFFFF| := by decide +kernel

theorem witness_AbsoluteJumpEffect : (0xFFFF : Word).toNat < Config.memorySize := by decide

theorem witness_RegisterJumpEffect : (sourceX (State.reset.writeX 3 0xFFFF) 2 3).toNat < Config.memorySize ∧
    Config.memorySize ≤ (sourceX (State.reset.writeX 3 0x10000) 2 3).toNat := by decide +kernel

theorem witness_ConditionalJumpsAfterCompare : (0xFFFF : Word).toNat < Config.memorySize := by decide

theorem witness_LoadProgramCopiesTheBuffer : (State.reset.withRunState .running).runState = .running ∧
    State.reset.runState ≠ .running ∧
    65536 < (List.replicate 65537 (0 : Byte)).length ∧ (List.replicate 65536 (0 : Byte)).length ≤ 65536 ∧
    State.reset.mem.wf = true := by
  simp only [List.length_replicate]
  decide

theorem witness_StartAndIsRunning : State.reset.runState = .halted ∧ (State.reset.raise .outOfBounds).runState ≠ .halted ∧
    lastFit.runState = .running ∧ State.reset.runState ≠ .running := by decide +kernel

theorem witness_RunReportsHowItEnds : (State.reset.raise .outOfBounds).runState = .faulted ∧
    State.reset.runState ≠ .faulted ∧ (runSteps 1 (atHalt.withRunState .running)).runState = .halted ∧
    (runSteps 1 (atFault.withRunState .running)).runState = .faulted := by decide +kernel

theorem witness_RunRepeatsStep : lastFit.runState = .running ∧ (after lastFit).isSome = true ∧ RunEnded State.reset ∧
    RunEnded (State.reset.raise .outOfBounds) := ⟨by decide +kernel, by decide +kernel, .inl rfl, .inr rfl⟩

theorem witness_HostReadsTheState : State.reset.runState ≠ .running ∧ (0xFFFC : Word).toNat + 4 ≤ 65536 ∧
    65536 < (0xFFFD : Word).toNat + 4 ∧ (0xFFFE : Word).toNat + 2 ≤ 65536 ∧ 65536 < (0xFFFF : Word).toNat + 2 ∧
    (0xFFFF : Word).toNat + 1 ≤ 65536 ∧ 65536 < (0x10000 : Word).toNat + 1 := by decide +kernel

theorem witness_HostWritesTheState : State.reset.runState ≠ .running ∧ State.reset.mem.wf = true ∧
    (13 : XReg) ≠ 12 ∧ (0xFFFC : Word).toNat + 4 ≤ 65536 ∧ 65536 < (0xFFFD : Word).toNat + 4 ∧
    (0xFFFE : Word).toNat + 2 ≤ 65536 ∧ 65536 < (0xFFFF : Word).toNat + 2 ∧ (0xFFFF : Word).toNat + 1 ≤ 65536 ∧
    65536 < (0x10000 : Word).toNat + 1 := by decide +kernel

theorem witness_HostCommandLegality : (State.reset.raise .outOfBounds).runState = .faulted ∧
    hostWrites .start = false ∧ HostCommand.start ≠ .reset ∧
    (hostCommand .start (State.reset.raise .outOfBounds)).isSome = true ∧
    lastFit.runState = .running ∧ State.reset.runState ≠ .running := by decide +kernel

theorem witness_HostCommandsKeepTheInvariant : Machine.Inv lastFit ∧ (hostCommand (.run 2) lastFit).isSome = true :=
  ⟨⟨by decide +kernel, by decide +kernel, by decide +kernel⟩, by decide +kernel⟩

end Sys2Proof.Tests
end

section
/-! The reset state, item by item (10_state.md R41). -/

namespace Sys2Proof.Machine

/-! ## What the reset state reads as -/

/-- The entry address written to pc is 0, so sp alone differs from the zeroed integer file. -/
theorem readX_reset (r : XReg) : State.reset.readX r = if r = Config.spId then 0x8000#32 else 0#32 := by
  have hsp : BitVec.ofNat Config.xlen Config.stackTop = 0x8000#32 := rfl
  have hpc : BitVec.ofNat Config.xlen Config.entryAddress = 0#32 := rfl
  simp only [State.readX, State.reset, Vector.get_eq_getElem, Vector.getElem_set, Vector.getElem_replicate, hsp, hpc,
    ite_self, Fin.ext_iff, eq_comm]

theorem readX_reset_ne {r : XReg} (h : r ≠ Config.spId) : State.reset.readX r = 0#32 := by
  rw [readX_reset, if_neg h]

@[simp] theorem sp_reset : State.reset.sp = 0x8000#32 := by
  rw [State.sp, readX_reset, if_pos rfl]

@[simp] theorem pc_reset : State.reset.pc = 0#32 := readX_reset_ne (by decide)

@[simp] theorem flags_reset : State.reset.flags = 0#32 := readX_reset_ne (by decide)

@[simp] theorem readF_reset (r : FReg) : State.reset.readF r = 0#32 := by
  simp only [State.readF, State.reset, Vector.get_eq_getElem, Vector.getElem_replicate]

@[simp] theorem readByte_reset (a : Nat) : State.reset.readByte a = 0#8 := rfl

@[simp] theorem runState_reset : State.reset.runState = .halted := rfl

@[simp] theorem faultCause_reset : State.reset.faultCause = none := rfl

/-! ## The host's reset (70_reset_and_hazards.md R280) -/

/-- Only the model's draw counter outlives the host's reset, and it is no item of the spec's state (log entry 4). -/
theorem hostReset_sameSpecState (s : State) : SameSpecState State.reset (hostReset s) where
  x := rfl
  f := rfl
  mem := rfl
  runState := rfl
  faultCause := rfl

/-- Settles O1: the table of R41 from the reset state's read lemmas, then the host's `reset` from any state. -/
theorem resetGivesEveryRuleValue : Obligations.ResetGivesEveryRuleValue :=
  ⟨fun _ h => readX_reset_ne h, sp_reset, pc_reset, flags_reset, readF_reset, readByte_reset, runState_reset,
    faultCause_reset, hostReset_sameSpecState⟩

end Sys2Proof.Machine
end

section
/-! The Decoder's faults: the opcode byte alone gives InvalidOpcode, the operand fields give the other three
(30_encoding.md R89, 40_fetch_decode_dispatch.md R112 to R118). -/

namespace Sys2Proof

/-! ## Which bytes name an opcode (30_encoding.md R86, R89) -/

/-- The opcode map of R86 has no gap: its numbers, in order, are 0x00 to 0x2F. -/
theorem map_number_all : Opcode.all.map Opcode.number = List.range 0x30 := rfl

theorem ofByte_eq_none_iff (b : Byte) : Opcode.ofByte b = none ↔ 0x30 ≤ b.toNat := by
  calc Opcode.ofByte b = none
      ↔ b.toNat ∉ Opcode.all.map Opcode.number := by simp [Opcode.ofByte]
    _ ↔ 0x30 ≤ b.toNat := by rw [map_number_all, List.mem_range, Nat.not_lt]

/-! ## The faults of the operand fields (40_fetch_decode_dispatch.md R113 to R116) -/

/-- The faults that reading a known opcode's operands can give: a field that is cut off (R113), a bad register id (R115),
an illegal address (R116). -/
def OperandFault (k : FaultKind) : Prop :=
  k = .truncatedInstruction ∨ k = .invalidRegisterId ∨ k = .invalidAddress

theorem OperandFault.ne_invalidOpcode {k : FaultKind} (h : OperandFault k) : k ≠ .invalidOpcode := by
  obtain rfl | rfl | rfl := h <;> decide

theorem operandFault_of_takeReg {n : Nat} {bs : List Byte} {k : FaultKind} (h : takeReg n bs = .error k) :
    OperandFault k := (takeReg_error h).imp_right .inl

theorem operandFault_of_takeImmediate {w : Nat} {imm : Immediate} {bs : List Byte} {k : FaultKind}
    (h : takeImmediate w imm bs = .error k) : OperandFault k := .inl (takeImmediate_error h)

theorem operandFault_of_takeAddr {bs : List Byte} {k : FaultKind} (h : takeAddr bs = .error k) : OperandFault k :=
  (takeAddr_error h).imp_right .inr

/-! ## The faults of each format (30_encoding.md R81): those of its fields -/

section
variable {n w : Nat} {imm : Immediate} {bs : List Byte} {k : FaultKind}

theorem operandFault_of_decodeR {mk : Fin n → Instr} (h : decodeR mk bs = .error k) : OperandFault k := by
  unfold decodeR at h
  split at h
  · next hreg => cases h; exact operandFault_of_takeReg hreg
  · cases h

theorem operandFault_of_decodeRR {mk : Fin n → Fin n → Instr} (h : decodeRR mk bs = .error k) : OperandFault k := by
  unfold decodeRR at h
  split at h
  · next hreg => cases h; exact operandFault_of_takeReg hreg
  · exact operandFault_of_decodeR h

theorem operandFault_of_decodeRRR {mk : Fin n → Fin n → Fin n → Instr} (h : decodeRRR mk bs = .error k) :
    OperandFault k := by
  unfold decodeRRR at h
  split at h
  · next hreg => cases h; exact operandFault_of_takeReg hreg
  · exact operandFault_of_decodeRR h

theorem operandFault_of_decodeA {mk : Word → Instr} (h : decodeA mk bs = .error k) : OperandFault k := by
  unfold decodeA at h
  split at h
  · next haddr => cases h; exact operandFault_of_takeAddr haddr
  · cases h

theorem operandFault_of_decodeRA {mk : Fin n → Word → Instr} (h : decodeRA mk bs = .error k) : OperandFault k := by
  unfold decodeRA at h
  split at h
  · next hreg => cases h; exact operandFault_of_takeReg hreg
  · exact operandFault_of_decodeA h

theorem operandFault_of_decodeRI {mk : Fin n → BitVec w → Instr} (h : decodeRI imm mk bs = .error k) :
    OperandFault k := by
  unfold decodeRI at h
  split at h
  · next hreg => cases h; exact operandFault_of_takeReg hreg
  · split at h
    · next himm => cases h; exact operandFault_of_takeImmediate himm
    · cases h

theorem operandFault_of_decodeRIR {mk : Fin n → BitVec w → Fin n → Instr} (h : decodeRIR imm mk bs = .error k) :
    OperandFault k := by
  unfold decodeRIR at h
  split at h
  · next hreg => cases h; exact operandFault_of_takeReg hreg
  · split at h
    · next himm => cases h; exact operandFault_of_takeImmediate himm
    · exact operandFault_of_decodeR h

end

/-- A known opcode's operands give the faults of its format, the column "format" of R86. -/
theorem operandFault_of_decodeOperands {o : Opcode} {bs : List Byte} {k : FaultKind}
    (h : decodeOperands o bs = .error k) : OperandFault k := by
  cases o with
  | nop | halt => cases h
  | push | pop | pushFloat | popFloat | jumpRegister | jumpRegisterZero | jumpRegisterEqual | jumpRegisterLessThan
  | jumpRegisterGreaterThan => exact operandFault_of_decodeR h
  | compare | compareFloat => exact operandFault_of_decodeRR h
  | add | sub | mul | div | shl | shr | addFloat | subFloat | mulFloat | divFloat => exact operandFault_of_decodeRRR h
  | jump | jumpZero | jumpEqual | jumpLessThan | jumpGreaterThan => exact operandFault_of_decodeA h
  | load | store | loadByte | storeByte | loadHalfWord | storeHalfWord | loadFloat | storeFloat =>
    exact operandFault_of_decodeRA h
  | loadImmediate | loadImmediateFloat => exact operandFault_of_decodeRI h
  | addImmediate | subImmediate | mulImmediate | divImmediate | shlImmediate | shrImmediate | addFloatImmediate
  | subFloatImmediate | mulFloatImmediate | divFloatImmediate => exact operandFault_of_decodeRIR h

/-! ## The Decoder on a first byte (40_fetch_decode_dispatch.md R112) -/

theorem decode_cons_of_ofByte_none {b : Byte} (h : Opcode.ofByte b = none) (rest : List Byte) :
    decode (b :: rest) = .error .invalidOpcode := by
  simp only [decode, h]

theorem decode_cons_of_ofByte_some {b : Byte} {o : Opcode} (h : Opcode.ofByte b = some o) (rest : List Byte) :
    decode (b :: rest) = decodeOperands o rest := by
  simp only [decode, h]

/-- Settles O6: a byte that names no opcode is one from 0x30 up, and a byte that names one leaves only the faults of its
operands. -/
theorem unknownOpcodesAreInvalid : Obligations.UnknownOpcodesAreInvalid := by
  intro b rest
  rw [← ofByte_eq_none_iff]
  cases hb : Opcode.ofByte b with
  | none => simp only [decode_cons_of_ofByte_none hb]
  | some o =>
    have hne : decodeOperands o rest ≠ .error .invalidOpcode :=
      fun h => (operandFault_of_decodeOperands h).ne_invalidOpcode rfl
    simp only [decode_cons_of_ofByte_some hb, hne, reduceCtorEq]

end Sys2Proof
end

section
/-! The operand fields in stream order: a format's reader is a chain of field readers, and each link of the chain reports
its own fault before the next field is looked at (30_encoding.md R81, 40_fetch_decode_dispatch.md R113 to R116). -/

namespace Sys2Proof.Machine

/-! ## Readers as chains of fields -/

/-- What reads the bytes left after some prefix of an instruction. -/
abbrev Reader := List Byte → Except FaultKind (Instr × List Byte)

/-- Read one field, then go on with its value; a fault of the field ends the reading (R114). -/
def fieldThen {α : Type} (take : List Byte → Except FaultKind (α × List Byte)) (next : α → Reader) : Reader :=
  fun bs => take bs >>= fun p => next p.1 p.2

section
variable {α : Type} {take : List Byte → Except FaultKind (α × List Byte)} {next : α → Reader} {bs rest : List Byte}

theorem fieldThen_error {k : FaultKind} (h : take bs = .error k) : fieldThen take next bs = .error k := by
  rw [fieldThen, h]; rfl

theorem fieldThen_ok {a : α} (h : take bs = .ok (a, rest)) : fieldThen take next bs = next a rest := by
  rw [fieldThen, h]; rfl

end

/-! The rows of R81, field by field; each format with more fields ends in the chain of one with fewer. -/

section
variable {n w : Nat}

theorem decodeR_eq (mk : Fin n → Instr) : decodeR mk = fieldThen (takeReg n) fun r bs => .ok (mk r, bs) := by
  funext bs; unfold decodeR fieldThen; cases takeReg n bs <;> rfl

theorem decodeRR_eq (mk : Fin n → Fin n → Instr) : decodeRR mk = fieldThen (takeReg n) fun r => decodeR (mk r) := by
  funext bs; unfold decodeRR fieldThen; cases takeReg n bs <;> rfl

theorem decodeRRR_eq (mk : Fin n → Fin n → Fin n → Instr) :
    decodeRRR mk = fieldThen (takeReg n) fun r => decodeRR (mk r) := by
  funext bs; unfold decodeRRR fieldThen; cases takeReg n bs <;> rfl

theorem decodeA_eq (mk : Word → Instr) : decodeA mk = fieldThen takeAddr fun a bs => .ok (mk a, bs) := by
  funext bs; unfold decodeA fieldThen; cases takeAddr bs <;> rfl

theorem decodeRA_eq (mk : Fin n → Word → Instr) : decodeRA mk = fieldThen (takeReg n) fun r => decodeA (mk r) := by
  funext bs; unfold decodeRA fieldThen; cases takeReg n bs <;> rfl

theorem decodeRI_eq (imm : Immediate) (mk : Fin n → BitVec w → Instr) :
    decodeRI imm mk =
      fieldThen (takeReg n) fun r => fieldThen (takeImmediate w imm) fun v bs => .ok (mk r v, bs) := by
  funext bs
  unfold decodeRI fieldThen
  cases takeReg n bs with
  | error => rfl
  | ok p => dsimp only [bind, Except.bind]; cases takeImmediate w imm p.2 <;> rfl

theorem decodeRIR_eq (imm : Immediate) (mk : Fin n → BitVec w → Fin n → Instr) :
    decodeRIR imm mk =
      fieldThen (takeReg n) fun r => fieldThen (takeImmediate w imm) fun v => decodeR (mk r v) := by
  funext bs
  unfold decodeRIR fieldThen
  cases takeReg n bs with
  | error => rfl
  | ok p => dsimp only [bind, Except.bind]; cases takeImmediate w imm p.2 <;> rfl

end

/-! ## The bytes of a legal field are read back -/

theorem takeReg_idByte (r : XReg) (rest : List Byte) : takeReg Config.numX (idByte r :: rest) = .ok (r, rest) :=
  takeReg_registerBytes (by decide) r rest

theorem fieldBytes_eq_leBytes (v : Word) : fieldBytes v = leBytes 4 v.toNat := by
  have hlow : v.extractLsb' 0 8 = BitVec.ofNat 8 v.toNat := by
    rw [← byte_of_word v 0, Nat.pow_zero, Nat.div_one]
  simp only [fieldBytes, leBytes, Nat.div_div_eq_div_mul, Nat.reduceMul, List.cons.injEq, and_true]
  exact ⟨hlow, (byte_of_word v 1).symm, (byte_of_word v 2).symm, (byte_of_word v 3).symm⟩

theorem takeAddr_fieldBytes (v : Word) (rest : List Byte) :
    takeAddr (fieldBytes v ++ rest) = if addressLegal v then .ok (v, rest) else .error .invalidAddress := by
  rw [fieldBytes_eq_leBytes]
  exact takeAddr_addressBytes_eq v rest

theorem takeImmediate_fieldBytes (imm : Immediate) (v : Word) (rest : List Byte) :
    takeImmediate Config.xlen imm (fieldBytes v ++ rest) = .ok (v, rest) := by
  rw [fieldBytes_eq_leBytes, ← immediate_width imm]
  exact takeImmediate_immediateBytes (Nat.le_refl _) imm v rest

/-! ## The fault of the first offending field (R114) -/

/-- After the bytes `start` the Decoder goes on as `rd`. -/
def DecodesAs (start : List Byte) (rd : Reader) : Prop := ∀ bs, decode (start ++ bs) = rd bs

theorem decodesAs_opcode (o : Opcode) : DecodesAs [o.byte] (decodeOperands o) :=
  fun bs => decode_cons_of_ofByte_some (ofByte_byte o) bs

/-- A legal field moves the Decoder to what follows it. -/
theorem DecodesAs.append {α : Type} {take : List Byte → Except FaultKind (α × List Byte)} {next : α → Reader}
    {start field : List Byte} {a : α} (h : DecodesAs start (fieldThen take next))
    (hf : ∀ rest, take (field ++ rest) = .ok (a, rest)) : DecodesAs (start ++ field) (next a) := by
  intro bs
  rw [List.append_assoc, h, fieldThen_ok (hf bs)]

section
variable {start : List Byte} {fields : List FieldKind}

/-- R113, R115 at a register id: what its one byte decides, before any later field. -/
theorem fieldsFault_reg {next : XReg → Reader} (h : DecodesAs start (fieldThen (takeReg Config.numX) next))
    (hnext : ∀ start' r, DecodesAs start' (next r) → FieldsFault start' fields) :
    FieldsFault start (.reg :: fields) := by
  refine ⟨?_, fun bad rest hbad => ?_, fun r => hnext _ r (h.append (takeReg_idByte r))⟩
  · have hcut := h []
    rwa [List.append_nil, fieldThen_error (takeReg_nil _)] at hcut
  · rw [h, fieldThen_error (takeReg_cons_bad rest hbad)]

/-- R113, R116 at an address. -/
theorem fieldsFault_addr {next : Word → Reader} (h : DecodesAs start (fieldThen takeAddr next))
    (hnext : ∀ start' v, DecodesAs start' (next v) → FieldsFault start' fields) :
    FieldsFault start (.addr :: fields) := by
  refine ⟨fun cut hcut => ?_, fun v rest hv => ?_, fun v hv => hnext _ v (h.append fun rest => ?_)⟩
  · rw [h, fieldThen_error (takeAddr_short hcut)]
  · have hbad : ¬ addressLegal v = true := by simpa [addressLegal] using hv
    rw [h, fieldThen_error (by rw [takeAddr_fieldBytes, if_neg hbad])]
  · have hlegal : addressLegal v = true := by simpa [addressLegal] using hv
    rw [takeAddr_fieldBytes, if_pos hlegal]

/-- R113 at an immediate, which has no illegal value. -/
theorem fieldsFault_imm {imm : Immediate} {next : Word → Reader}
    (h : DecodesAs start (fieldThen (takeImmediate Config.xlen imm) next))
    (hnext : ∀ start' v, DecodesAs start' (next v) → FieldsFault start' fields) :
    FieldsFault start (.imm :: fields) := by
  refine ⟨fun cut hcut => ?_, fun v => hnext _ v (h.append (takeImmediate_fieldBytes imm v))⟩
  rw [h, fieldThen_error (takeImmediate_short hcut)]

end

/-! ## The formats (30_encoding.md R81) -/

section
variable {start : List Byte} {imm : Immediate}

theorem fieldsFault_decodeR {mk : XReg → Instr} (h : DecodesAs start (decodeR mk)) : FieldsFault start [.reg] :=
  fieldsFault_reg (decodeR_eq mk ▸ h) fun _ _ _ => trivial

theorem fieldsFault_decodeRR {mk : XReg → XReg → Instr} (h : DecodesAs start (decodeRR mk)) :
    FieldsFault start [.reg, .reg] :=
  fieldsFault_reg (decodeRR_eq mk ▸ h) fun _ _ => fieldsFault_decodeR

theorem fieldsFault_decodeRRR {mk : XReg → XReg → XReg → Instr} (h : DecodesAs start (decodeRRR mk)) :
    FieldsFault start [.reg, .reg, .reg] :=
  fieldsFault_reg (decodeRRR_eq mk ▸ h) fun _ _ => fieldsFault_decodeRR

theorem fieldsFault_decodeA {mk : Word → Instr} (h : DecodesAs start (decodeA mk)) : FieldsFault start [.addr] :=
  fieldsFault_addr (decodeA_eq mk ▸ h) fun _ _ _ => trivial

theorem fieldsFault_decodeRA {mk : XReg → Word → Instr} (h : DecodesAs start (decodeRA mk)) :
    FieldsFault start [.reg, .addr] :=
  fieldsFault_reg (decodeRA_eq mk ▸ h) fun _ _ => fieldsFault_decodeA

theorem fieldsFault_decodeRI {mk : XReg → Word → Instr} (h : DecodesAs start (decodeRI imm mk)) :
    FieldsFault start [.reg, .imm] :=
  fieldsFault_reg (decodeRI_eq imm mk ▸ h) fun _ _ hr => fieldsFault_imm hr fun _ _ _ => trivial

theorem fieldsFault_decodeRIR {mk : XReg → Word → XReg → Instr} (h : DecodesAs start (decodeRIR imm mk)) :
    FieldsFault start [.reg, .imm, .reg] :=
  fieldsFault_reg (decodeRIR_eq imm mk ▸ h) fun _ _ hr => fieldsFault_imm hr fun _ _ => fieldsFault_decodeR

end

/-- Settles O7: each opcode's operands are read by its format (column "format" of R86), and each format is the chain of
its fields. -/
theorem firstOffendingFieldDecides : Obligations.FirstOffendingFieldDecides := by
  intro o
  have h := decodesAs_opcode o
  cases o with
  | nop | halt => trivial
  | push | pop | pushFloat | popFloat | jumpRegister | jumpRegisterZero | jumpRegisterEqual | jumpRegisterLessThan
  | jumpRegisterGreaterThan => exact fieldsFault_decodeR h
  | compare | compareFloat => exact fieldsFault_decodeRR h
  | add | sub | mul | div | shl | shr | addFloat | subFloat | mulFloat | divFloat => exact fieldsFault_decodeRRR h
  | jump | jumpZero | jumpEqual | jumpLessThan | jumpGreaterThan => exact fieldsFault_decodeA h
  | load | store | loadByte | storeByte | loadHalfWord | storeHalfWord | loadFloat | storeFloat =>
    exact fieldsFault_decodeRA h
  | loadImmediate | loadImmediateFloat => exact fieldsFault_decodeRI h
  | addImmediate | subImmediate | mulImmediate | divImmediate | shlImmediate | shrImmediate | addFloatImmediate
  | subFloatImmediate | mulFloatImmediate | divFloatImmediate => exact fieldsFault_decodeRIR h

end Sys2Proof.Machine
end

section
/-! One step of a running machine: the implicit halt, a decode fault, and the two instructions without operands
(40_fetch_decode_dispatch.md R110 to R112, R125, R126). -/

namespace Sys2Proof.Machine

/-! ## The branches of a running step (40_fetch_decode_dispatch.md R110) -/

theorem step_past_memory {s : State} (hrun : s.runState = .running) (hpc : Config.memorySize ≤ s.pc.toNat) :
    step s = .next s.haltRun := by
  simp only [step, hrun, ge_iff_le, hpc, if_true]

theorem step_decode_error {s : State} {k : FaultKind} (hrun : s.runState = .running)
    (hpc : s.pc.toNat < Config.memorySize) (hk : decode s.fetch = .error k) : step s = .next (s.raise k) := by
  simp only [step, hrun, ge_iff_le, Nat.not_le.2 hpc, if_false, hk]

/-- With pc inside memory the first byte fetched is the one at pc. -/
theorem fetch_eq_cons {s : State} (hpc : s.pc.toNat < Config.memorySize) :
    ∃ rest, s.fetch = s.readByte s.pc.toNat :: rest := by
  obtain ⟨n, hn⟩ : ∃ n, min maxLength (Config.memorySize - s.pc.toNat) = n + 1 :=
    Nat.exists_eq_succ_of_ne_zero (by rw [maxLength_eq]; omega)
  exact ⟨s.mem.readBytes (s.pc.toNat + 1) n, by rw [State.fetch, hn]; rfl⟩

/-- Settles O13: the byte at pc alone decides InvalidOpcode (O6), and fault entry keeps the pc. -/
theorem unknownOpcodeAtPcFaults : Obligations.UnknownOpcodeAtPcFaults := by
  intro s hrun hpc hbyte
  obtain ⟨rest, hfetch⟩ := fetch_eq_cons hpc
  have hdecode : decode s.fetch = .error .invalidOpcode := hfetch ▸ (unknownOpcodesAreInvalid _ rest).2 hbyte
  have hstep := step_decode_error hrun hpc hdecode
  refine ⟨hstep, fun t ht => ?_⟩
  obtain rfl : s.raise .invalidOpcode = t := Host.Outcome.next.inj (hstep.symm.trans ht)
  exact pc_raise s _

/-- Settles O12: the test of R111 comes before any byte is fetched. -/
theorem pcPastMemoryHaltsWithoutFault : Obligations.PcPastMemoryHaltsWithoutFault :=
  fun _ => step_past_memory

/-! ## NOP and HALT (40_fetch_decode_dispatch.md R125, R126) -/

theorem exec_nop (s : State) : exec .nop s = .next (s.advance .n) := by
  unfold exec execNop
  exact runHandler_ok rfl

theorem exec_halt (s : State) : exec .halt s = .next (s.advance .n).haltRun := by
  unfold exec execHalt
  exact runHandler_ok rfl

/-- Settles O24: NOP is the advance over one byte, HALT the advance and the write of `run_state`. -/
theorem nopAndHaltEffect : Obligations.NopAndHaltEffect := by
  refine ⟨rfl, rfl, fun s => ?_⟩
  have hmove : MovesPc s (s.advance .n) (s.pc + 1#32) := movesPc_advance s .n
  exact ⟨⟨_, exec_nop s, hmove⟩, _, exec_halt s, haltRun_runState _, hmove.control.2, hmove.pc, hmove.integers,
    hmove.floats, hmove.memory⟩

end Sys2Proof.Machine
end

section
/-! The stack instructions: each is the Decoder's advance, then `push_value` or `pop_value` on the advanced state, whose sp
is the one at the start of the step (41_stack.md R140 to R146). -/

namespace Sys2Proof.Machine

/-! ## The store of the pushed word (20_memory.md R55) -/

theorem storesBytes_of_memWrite {s t : State} {addr : Word} {n : Nat} {v : Word} (hm : s.mem.wf = true)
    (h : s.memWrite addr n v = .ok t) : StoresBytes s t addr.toNat n v where
  stored := fun k hk => by
    rw [readByte_memWrite hm h, if_pos ⟨Nat.le_add_right _ k, Nat.add_lt_add_left hk _⟩, Nat.add_sub_cancel_left]
  others := fun b hb => by rw [readByte_memWrite hm h, if_neg (by omega)]

/-! ## PUSH and PUSH_FLOAT (41_stack.md R140, R143, R145) -/

theorem exec_push (reg : XReg) (s : State) :
    exec (.push reg) s = runHandler .r (fun u => u.pushValue (u.readX reg)) s := rfl

theorem exec_pushFloat (reg : FReg) (s : State) :
    exec (.pushFloat reg) s = runHandler .r (fun u => u.pushValue (u.readF reg)) s := rfl

/-- What `push_value` does after the advance, told from the state at the start of the step. -/
theorem pushes_of_pushValue {s t : State} {v : Word} (hm : s.mem.wf = true)
    (h : (s.advance .r).pushValue v = .ok t) : Pushes s t v := by
  obtain ⟨-, hfits, rfl⟩ := pushValue_ok_iff.1 h
  have hstore := storesBytes_of_memWrite (s := s.advance .r) (v := v) hm (memWrite_ok_iff.2 ⟨hfits, rfl⟩)
  rw [sp_advance] at hstore ⊢
  exact {
    slot := ⟨hstore.stored, hstore.others⟩
    sp := readX_writeX_same ..
    pc := by rw [State.pc, readX_writeX_ne _ _ (by decide)]; exact pc_advance s .r
    integers := fun r hsp hpc => by rw [readX_writeX_ne _ _ hsp, readX_withMem, readX_advance, if_neg hpc]
    floats := fun _ => rfl
    control := ⟨rfl, rfl⟩ }

section
variable {s : State} {value : State → Word}

/-- R140 with room for the slot: the value pushed is the one read on the advanced state, before sp changes. -/
theorem runHandler_push (hm : s.mem.wf = true) (hpos : 0 < s.sp.toNat) (hroom : s.sp.toNat < 0xFFFD) :
    ∃ t, runHandler .r (fun u => u.pushValue (value u)) s = .next t ∧ Pushes s t (value (s.advance .r)) := by
  have hfits : s.sp.toNat + 4 ≤ Config.memorySize := by simp only [Config.memorySize]; omega
  rw [← sp_advance s .r] at hpos hfits
  have hpush := (pushValue_ok_iff (v := value (s.advance .r))).2 ⟨hpos, hfits, rfl⟩
  exact ⟨_, runHandler_ok hpush, pushes_of_pushValue hm hpush⟩

theorem runHandler_push_underflow (hzero : s.sp.toNat = 0) :
    FaultsWith s .stackUnderflow (runHandler .r (fun u => u.pushValue (value u)) s) :=
  runHandler_error (pushValue_error_iff.2 (.inl ⟨(sp_advance s .r).symm ▸ hzero, rfl⟩))

theorem runHandler_push_outOfBounds (habove : 0xFFFD ≤ s.sp.toNat) :
    FaultsWith s .outOfBounds (runHandler .r (fun u => u.pushValue (value u)) s) := by
  have hpast : Config.memorySize < s.sp.toNat + 4 := by simp only [Config.memorySize]; omega
  exact runHandler_error (pushValue_error_iff.2 (.inr ⟨(sp_advance s .r).symm ▸ hpast, rfl⟩))

end

/-- Settles O25: both pushes are `push_value` of what the register reads on the advanced state, which is the next
instruction's address for r13 (R26). -/
theorem pushEffect : Obligations.PushEffect := by
  have hfields : ∀ b ∈ [Opcode.push.byte, Opcode.pushFloat.byte], FieldsFault [b] [.reg] :=
    List.forall_mem_cons.2
      ⟨firstOffendingFieldDecides .push, List.forall_mem_singleton.2 (firstOffendingFieldDecides .pushFloat)⟩
  refine ⟨hfields, fun s => ⟨fun reg => ⟨rfl, ?_⟩, fun reg => ⟨rfl, ?_⟩⟩⟩
  · have hread : (s.advance .r).readX reg = sourceX s 2 reg := readX_advance_source s .r reg
    rw [exec_push, ← hread]
    exact ⟨runHandler_push, runHandler_push_underflow, runHandler_push_outOfBounds⟩
  · rw [exec_pushFloat]
    exact ⟨runHandler_push, runHandler_push_underflow, runHandler_push_outOfBounds⟩

/-! ## POP and POP_FLOAT (41_stack.md R141, R144, R146) -/

theorem exec_pop (reg : XReg) (s : State) :
    exec (.pop reg) s = runHandler .r (popThen fun (v : Word) u => u.writeX reg v) s := rfl

theorem exec_popFloat (reg : FReg) (s : State) :
    exec (.popFloat reg) s = runHandler .r (popThen fun (v : FloatPattern) u => u.writeF reg v) s := rfl

/-- The state a pop instruction writes its destination in: pc advanced and sp one slot up. -/
def popped (s : State) : State := (s.advance .r).writeX Config.spId (s.sp + 4#32)

theorem sp_popped (s : State) : (popped s).sp = s.sp + 4#32 := readX_writeX_same ..

theorem pc_popped (s : State) : (popped s).pc = s.pc + 2#32 := by
  rw [popped, State.pc, readX_writeX_ne _ _ (by decide)]
  exact pc_advance s .r

theorem readX_popped {s : State} {r : XReg} (hsp : r ≠ Config.spId) (hpc : r ≠ Config.pcId) :
    (popped s).readX r = s.readX r := by
  rw [popped, readX_writeX_ne _ _ hsp, readX_advance, if_neg hpc]

section
variable {s : State} {write : Word → State → State}

/-- R141 with a slot above sp: the register write comes last, on the state with both sp and pc moved. -/
theorem runHandler_pop (hslot : s.sp.toNat < 0x8000) :
    runHandler .r (popThen write) s = .next (write (wordAt s (s.sp.toNat + 4)) (popped s)) := by
  obtain ⟨htop, -⟩ | ⟨-, hpop⟩ := popThen_cases write (s.advance .r)
  · rw [sp_advance] at htop
    exact absurd hslot (Nat.not_lt.2 htop)
  · rw [sp_advance, advance_mem, readBytes_wordAt] at hpop
    exact runHandler_ok hpop

theorem runHandler_pop_overflow (htop : 0x8000 ≤ s.sp.toNat) :
    FaultsWith s .stackOverflow (runHandler .r (popThen write) s) := by
  obtain ⟨-, hpop⟩ | ⟨hslot, -⟩ := popThen_cases write (s.advance .r)
  · exact runHandler_error hpop
  · rw [sp_advance] at hslot
    exact absurd htop (Nat.not_le.2 hslot)

end

/-- Settles O26: both pops write the slot's word to the destination on `popped s`, so a destination of r12 or r13 hides
the increment or the advance and every other one leaves both. -/
theorem popEffect : Obligations.PopEffect := by
  have hfields : ∀ b ∈ [Opcode.pop.byte, Opcode.popFloat.byte], FieldsFault [b] [.reg] :=
    List.forall_mem_cons.2
      ⟨firstOffendingFieldDecides .pop, List.forall_mem_singleton.2 (firstOffendingFieldDecides .popFloat)⟩
  refine ⟨hfields, fun s => ⟨fun reg => ⟨rfl, ?_⟩, fun reg => ⟨rfl, ?_⟩⟩⟩
  · rw [exec_pop]
    refine ⟨fun hslot => ⟨_, runHandler_pop hslot, readX_writeX_same .., fun hsp => ?_, fun hpc => ?_,
      fun r hr hsp hpc => ?_, fun _ => rfl, fun _ => rfl, rfl, rfl⟩, runHandler_pop_overflow⟩
    · exact (readX_writeX_ne _ _ hsp.symm).trans (sp_popped s)
    · exact (readX_writeX_ne _ _ hpc.symm).trans (pc_popped s)
    · exact (readX_writeX_ne _ _ hr).trans (readX_popped hsp hpc)
  · rw [exec_popFloat]
    exact ⟨fun hslot => ⟨_, runHandler_pop hslot, readF_writeF_same .., fun r hr => readF_writeF_ne _ _ hr, sp_popped s,
      pc_popped s, fun r => readX_popped, fun _ => rfl, rfl, rfl⟩, runHandler_pop_overflow⟩

end Sys2Proof.Machine
end

section
/-! Data movement: a load is the Decoder's advance, then a memory read whose value goes to one register; a store the advance,
then a memory write; an immediate load the advance, then a register write (42_data_movement.md R150 to R160). -/

namespace Sys2Proof.Machine

/-! ## Encodings and decode faults (30_encoding.md R81) -/

theorem fieldsFault_of_format {os : List Opcode} {fields : List FieldKind}
    (h : ∀ o ∈ os, formatFields o.format = fields) : ∀ b ∈ os.map Opcode.byte, FieldsFault [b] fields :=
  List.forall_mem_map.2 fun o ho => h o ho ▸ firstOffendingFieldDecides o

/-- A register id, then a four-byte field: the formats RA and RI. -/
theorem encode_reg_word {n : Nat} {i : Instr} {reg : Fin n} {v : Word}
    (h : i.operandBytes = registerBytes reg ++ leBytes 4 v.toNat) :
    encode i = i.opcode.byte :: idByte reg :: fieldBytes v := by
  rw [encode, h, ← fieldBytes_eq_leBytes]
  rfl

/-! ## Bytes and half-words in memory (20_memory.md R54) -/

theorem toNat_zero_append {w : Nat} (z : Nat) (v : BitVec w) : (0#z ++ v).toNat = v.toNat := by
  simp [BitVec.toNat_append]

theorem toNat_append_byte {w : Nat} (v : BitVec w) (b : Byte) : (v ++ b).toNat = v.toNat * 2 ^ 8 + b.toNat := by
  rw [BitVec.toNat_append, ← Nat.shiftLeft_add_eq_or_of_lt b.isLt, Nat.shiftLeft_eq]

/-- A one-byte read is the byte at the address, zero-extended. -/
theorem readBytes_byteAt (s : State) (a : Nat) :
    BitVec.ofNat Config.xlen (leValue (s.mem.readBytes a 1)) = 0#24 ++ s.readByte a := by
  have h0 := (s.readByte a).isLt
  apply BitVec.eq_of_toNat_eq
  calc (BitVec.ofNat Config.xlen (leValue (s.mem.readBytes a 1))).toNat
      = ((s.readByte a).toNat + 256 * 0) % 2 ^ 32 := BitVec.toNat_ofNat ..
    _ = (s.readByte a).toNat := by omega
    _ = (0#24 ++ s.readByte a).toNat := (toNat_zero_append 24 _).symm

/-- A two-byte read is `M[a+1] ++ M[a]`, zero-extended. -/
theorem readBytes_halfWordAt (s : State) (a : Nat) :
    BitVec.ofNat Config.xlen (leValue (s.mem.readBytes a 2)) = 0#16 ++ s.readByte (a + 1) ++ s.readByte a := by
  have h0 := (s.readByte a).isLt
  have h1 := (s.readByte (a + 1)).isLt
  apply BitVec.eq_of_toNat_eq
  calc (BitVec.ofNat Config.xlen (leValue (s.mem.readBytes a 2))).toNat
      = ((s.readByte a).toNat + 256 * ((s.readByte (a + 1)).toNat + 256 * 0)) % 2 ^ 32 := BitVec.toNat_ofNat ..
    _ = (s.readByte (a + 1)).toNat * 2 ^ 8 + (s.readByte a).toNat := by omega
    _ = (0#16 ++ s.readByte (a + 1) : BitVec (16 + 8)).toNat * 2 ^ 8 + (s.readByte a).toNat := by
      rw [toNat_zero_append]
    _ = (0#16 ++ s.readByte (a + 1) ++ s.readByte a).toNat := (toNat_append_byte _ _).symm

/-! ## LOAD, LOAD_BYTE, LOAD_HALF_WORD and LOAD_FLOAT (42_data_movement.md R151, R153, R155, R157) -/

/-- The form the four loads share: read `n` bytes at `addr`, then write their value to a register of either file. -/
def loadThen (n : Nat) (addr : Word) (write : Word → State → State) (u : State) : Except FaultKind State :=
  (u.memRead addr n).map (write · u)

theorem loadX_eq (n : Nat) (reg : XReg) (addr : Word) : loadX n reg addr = loadThen n addr fun v u => u.writeX reg v := by
  funext u; unfold loadX loadThen; cases u.memRead addr n <;> rfl

theorem loadF_eq (reg : FReg) (addr : Word) : loadF reg addr = loadThen 4 addr fun v u => u.writeF reg v := by
  funext u; unfold loadF loadThen; cases u.memRead addr 4 <;> rfl

theorem exec_load (reg : XReg) (addr : Word) (s : State) :
    exec (.load reg addr) s = runHandler .ra (loadThen 4 addr fun v u => u.writeX reg v) s := by
  rw [← loadX_eq]; rfl

theorem exec_loadByte (reg : XReg) (addr : Word) (s : State) :
    exec (.loadByte reg addr) s = runHandler .ra (loadThen 1 addr fun v u => u.writeX reg v) s := by
  rw [← loadX_eq]; rfl

theorem exec_loadHalfWord (reg : XReg) (addr : Word) (s : State) :
    exec (.loadHalfWord reg addr) s = runHandler .ra (loadThen 2 addr fun v u => u.writeX reg v) s := by
  rw [← loadX_eq]; rfl

theorem exec_loadFloat (reg : FReg) (addr : Word) (s : State) :
    exec (.loadFloat reg addr) s = runHandler .ra (loadThen 4 addr fun v u => u.writeF reg v) s := by
  rw [← loadF_eq]; rfl

section
variable {s : State} {addr : Word} {n : Nat} {write : Word → State → State}

/-- R150 with the bytes inside memory: the advance does not touch them, so they are those at the start of the step. -/
theorem runHandler_load (hfits : addr.toNat + n ≤ Config.memorySize) :
    runHandler .ra (loadThen n addr write) s =
      .next (write (BitVec.ofNat Config.xlen (leValue (s.mem.readBytes addr.toNat n))) (s.advance .ra)) := by
  apply runHandler_ok
  rw [loadThen, memRead_ok_iff.2 ⟨hfits, rfl⟩]
  rfl

theorem runHandler_load_outOfBounds (hpast : Config.memorySize < addr.toNat + n) :
    FaultsWith s .outOfBounds (runHandler .ra (loadThen n addr write) s) := by
  apply runHandler_error
  rw [loadThen, memRead_error_iff.2 ⟨hpast, rfl⟩]
  rfl

end

/-- A load into the integer file, its value in the spelling of the rule. -/
theorem writesX_runHandler_load {s : State} {addr : Word} {n : Nat} {reg : XReg} {v : Word}
    (hv : BitVec.ofNat Config.xlen (leValue (s.mem.readBytes addr.toNat n)) = v)
    (hfits : addr.toNat + n ≤ Config.memorySize) :
    ∃ t, runHandler .ra (loadThen n addr fun x u => u.writeX reg x) s = .next t ∧ WritesX s t 6 reg v :=
  ⟨_, hv ▸ runHandler_load hfits, writesX_advance s .ra reg v⟩

/-- Settles O28: the four loads differ only in the number of bytes read and in the register file written; a legal address
always leaves room for the one byte of LOAD_BYTE. -/
theorem loadEffect : Obligations.LoadEffect := by
  have hfields : ∀ b ∈ [Opcode.load, .loadByte, .loadHalfWord, .loadFloat].map Opcode.byte,
      FieldsFault [b] [.reg, .addr] := fieldsFault_of_format (by decide)
  refine ⟨hfields, fun s addr hlegal => ⟨fun reg => ?_, fun reg => ?_⟩⟩
  · have hword := readBytes_wordAt s addr.toNat
    have hbyte := readBytes_byteAt s addr.toNat
    have hhalf := readBytes_halfWordAt s addr.toNat
    rw [exec_load, exec_loadByte, exec_loadHalfWord]
    exact ⟨encode_reg_word rfl, writesX_runHandler_load hword, runHandler_load_outOfBounds,
      encode_reg_word rfl, writesX_runHandler_load hbyte hlegal,
      encode_reg_word rfl, writesX_runHandler_load hhalf, runHandler_load_outOfBounds⟩
  · rw [exec_loadFloat]
    exact ⟨encode_reg_word rfl,
      fun hfits => ⟨_, runHandler_load hfits, writesF_advance s .ra reg _ (readBytes_wordAt s addr.toNat)⟩,
      runHandler_load_outOfBounds⟩

/-! ## STORE, STORE_BYTE, STORE_HALF_WORD and STORE_FLOAT (42_data_movement.md R152, R154, R156, R158) -/

theorem exec_store (reg : XReg) (addr : Word) (s : State) :
    exec (.store reg addr) s = runHandler .ra (fun u => u.memWrite addr 4 (u.readX reg)) s := rfl

theorem exec_storeByte (reg : XReg) (addr : Word) (s : State) :
    exec (.storeByte reg addr) s = runHandler .ra (fun u => u.memWrite addr 1 (u.readX reg)) s := rfl

theorem exec_storeHalfWord (reg : XReg) (addr : Word) (s : State) :
    exec (.storeHalfWord reg addr) s = runHandler .ra (fun u => u.memWrite addr 2 (u.readX reg)) s := rfl

theorem exec_storeFloat (reg : FReg) (addr : Word) (s : State) :
    exec (.storeFloat reg addr) s = runHandler .ra (fun u => u.memWrite addr 4 (u.readF reg)) s := rfl

/-- A memory write after the advance, told from the state at the start of the step. -/
theorem stores_of_memWrite {s t : State} {fmt : Format} {addr : Word} {n : Nat} {v : Word} (hm : s.mem.wf = true)
    (h : (s.advance fmt).memWrite addr n v = .ok t) : Stores s t fmt.length addr.toNat n v := by
  have hstore := storesBytes_of_memWrite (s := s.advance fmt) hm h
  obtain ⟨-, rfl⟩ := memWrite_ok_iff.1 h
  exact {
    bytes := ⟨hstore.stored, hstore.others⟩
    pc := pc_advance s fmt
    integers := (movesPc_advance s fmt).integers
    floats := fun _ => rfl
    control := ⟨rfl, rfl⟩ }

section
variable {s : State} {addr : Word} {n : Nat} {value : State → Word}

/-- R150 with the bytes inside memory: what is stored is read on the advanced state. -/
theorem runHandler_store (hm : s.mem.wf = true) (hfits : addr.toNat + n ≤ Config.memorySize) :
    ∃ t, runHandler .ra (fun u => u.memWrite addr n (value u)) s = .next t ∧
      Stores s t 6 addr.toNat n (value (s.advance .ra)) := by
  have hwrite := memWrite_ok_iff (s := s.advance .ra) (v := value (s.advance .ra)).2 ⟨hfits, rfl⟩
  exact ⟨_, runHandler_ok hwrite, stores_of_memWrite hm hwrite⟩

theorem runHandler_store_outOfBounds (hpast : Config.memorySize < addr.toNat + n) :
    FaultsWith s .outOfBounds (runHandler .ra (fun u => u.memWrite addr n (value u)) s) :=
  runHandler_error (memWrite_error_iff.2 ⟨hpast, rfl⟩)

end

/-- Settles O29: the four stores are memory writes of what the register reads on the advanced state, which is the next
instruction's address for r13 (R26). -/
theorem storeEffect : Obligations.StoreEffect := by
  have hfields : ∀ b ∈ [Opcode.store, .storeByte, .storeHalfWord, .storeFloat].map Opcode.byte,
      FieldsFault [b] [.reg, .addr] := fieldsFault_of_format (by decide)
  refine ⟨hfields, fun s addr hlegal => ⟨fun reg => ?_, fun reg => ?_⟩⟩
  · have hread : (s.advance .ra).readX reg = sourceX s 6 reg := readX_advance_source s .ra reg
    rw [exec_store, exec_storeByte, exec_storeHalfWord, ← hread]
    exact ⟨encode_reg_word rfl, runHandler_store, runHandler_store_outOfBounds,
      encode_reg_word rfl, fun hm => runHandler_store hm hlegal,
      encode_reg_word rfl, runHandler_store, runHandler_store_outOfBounds⟩
  · rw [exec_storeFloat]
    exact ⟨encode_reg_word rfl, runHandler_store, runHandler_store_outOfBounds⟩

/-! ## LOAD_IMMEDIATE and LOAD_IMMEDIATE_FLOAT (42_data_movement.md R159, R160) -/

theorem exec_loadImmediate (reg : XReg) (imm : Word) (s : State) :
    exec (.loadImmediate reg imm) s = .next ((s.advance (.ri .integer)).writeX reg imm) := by
  unfold exec execLoadImmediate
  exact runHandler_ok rfl

theorem exec_loadImmediateFloat (reg : FReg) (imm : FloatPattern) (s : State) :
    exec (.loadImmediateFloat reg imm) s = .next ((s.advance (.ri .float)).writeF reg imm) := by
  unfold exec execLoadImmediateFloat
  exact runHandler_ok rfl

/-- Settles O30: the literal is written after the advance, so r13 as destination hides the advance. -/
theorem loadImmediateEffect : Obligations.LoadImmediateEffect := by
  have hfields : ∀ b ∈ [Opcode.loadImmediate, .loadImmediateFloat].map Opcode.byte, FieldsFault [b] [.reg, .imm] :=
    fieldsFault_of_format (by decide)
  refine ⟨hfields, fun s imm => ⟨fun reg => ?_, fun reg => ?_⟩⟩
  · exact ⟨encode_reg_word rfl, _, exec_loadImmediate reg imm s, writesX_advance s (.ri .integer) reg imm⟩
  · exact ⟨encode_reg_word rfl, _, exec_loadImmediateFloat reg imm s, writesF_advance s (.ri .float) reg imm rfl⟩

end Sys2Proof.Machine
end

section
/-! Integer arithmetic: each instruction is the Decoder's advance, then one register write of the result on the sources read
there; the divisions first reject a zero divisor (43_integer_arithmetic.md R170 to R181). -/

namespace Sys2Proof.Machine

/-! ## The encoding of the register-immediate forms (30_encoding.md R81, format RIR) -/

theorem encode_reg_word_reg {n m : Nat} {i : Instr} {src : Fin n} {v : Word} {dst : Fin m}
    (h : i.operandBytes = registerBytes src ++ leBytes 4 v.toNat ++ registerBytes dst) :
    encode i = i.opcode.byte :: idByte src :: (fieldBytes v ++ [idByte dst]) := by
  rw [encode, h, ← fieldBytes_eq_leBytes]
  rfl

/-! ## Arithmetic modulo 2^32 on words (43_integer_arithmetic.md R170) -/

theorem add_eq_ofNat_mod (a b : Word) : a + b = BitVec.ofNat 32 ((a.toNat + b.toNat) % 2 ^ 32) :=
  BitVec.eq_of_toNat_eq (by rw [BitVec.toNat_add, BitVec.toNat_ofNat, Nat.mod_mod])

theorem mul_eq_ofNat_mod (a b : Word) : a * b = BitVec.ofNat 32 (a.toNat * b.toNat % 2 ^ 32) :=
  BitVec.eq_of_toNat_eq (by rw [BitVec.toNat_mul, BitVec.toNat_ofNat, Nat.mod_mod])

/-- The difference is taken on the integers, where it may be negative. -/
theorem sub_eq_ofInt_mod (a b : Word) : a - b = BitVec.ofInt 32 (((a.toNat : Int) - (b.toNat : Int)) % 2 ^ 32) := by
  have ha := word_lt a
  have hb := word_lt b
  apply BitVec.eq_of_toNat_eq
  rw [BitVec.toNat_sub, BitVec.toNat_ofInt]
  simp only [Config.xlen]
  omega

/-! ## A handler that writes one integer register -/

section
variable {s : State} {fmt : Format} {dst : XReg} {v : Word}

theorem writesX_runHandler {handler : State → Except FaultKind State}
    (h : handler (s.advance fmt) = .ok ((s.advance fmt).writeX dst v)) :
    ∃ t, runHandler fmt handler s = .next t ∧ WritesX s t fmt.length dst v :=
  ⟨_, runHandler_ok h, writesX_advance s fmt dst v⟩

/-- `x[dst] <- x[src1] op x[src2]`, its value in the spelling of the rule (43_integer_arithmetic.md R179). -/
theorem writesX_runHandler_binaryX {op : Word → Word → Word} {src1 src2 : XReg}
    (hv : op (sourceX s fmt.length src1) (sourceX s fmt.length src2) = v) :
    ∃ t, runHandler fmt (binaryX op src1 src2 dst) s = .next t ∧ WritesX s t fmt.length dst v :=
  writesX_runHandler (by rw [binaryX, readX_advance_source, readX_advance_source, hv])

/-- `x[dst] <- x[src] op imm`, its value in the spelling of the rule (43_integer_arithmetic.md R179). -/
theorem writesX_runHandler_immediateX {op : Word → Word → Word} {src : XReg} {imm : Word}
    (hv : op (sourceX s fmt.length src) imm = v) :
    ∃ t, runHandler fmt (immediateX op src imm dst) s = .next t ∧ WritesX s t fmt.length dst v :=
  writesX_runHandler (by rw [immediateX, readX_advance_source, hv])

end

/-! ## ADD, SUB and MUL (43_integer_arithmetic.md R171 to R173) -/

theorem exec_add (src1 src2 dst : XReg) (s : State) :
    exec (.add src1 src2 dst) s = runHandler .rrr (binaryX (· + ·) src1 src2 dst) s := rfl

theorem exec_sub (src1 src2 dst : XReg) (s : State) :
    exec (.sub src1 src2 dst) s = runHandler .rrr (binaryX (· - ·) src1 src2 dst) s := rfl

theorem exec_mul (src1 src2 dst : XReg) (s : State) :
    exec (.mul src1 src2 dst) s = runHandler .rrr (binaryX (· * ·) src1 src2 dst) s := rfl

/-- Settles O33: the three instructions differ only in the operation of `binaryX`, which is the rule's arithmetic modulo
2^32. -/
theorem integerThreeRegisterEffect : Obligations.IntegerThreeRegisterEffect := by
  have hfields : ∀ b ∈ [Opcode.add, .sub, .mul].map Opcode.byte, FieldsFault [b] [.reg, .reg, .reg] :=
    fieldsFault_of_format (by decide)
  refine ⟨hfields, fun s src1 src2 dst => ?_⟩
  rw [exec_add, exec_sub, exec_mul]
  exact ⟨⟨rfl, writesX_runHandler_binaryX (add_eq_ofNat_mod _ _)⟩,
    ⟨rfl, writesX_runHandler_binaryX (sub_eq_ofInt_mod _ _)⟩,
    rfl, writesX_runHandler_binaryX (mul_eq_ofNat_mod _ _)⟩

/-! ## ADD_IMMEDIATE, SUB_IMMEDIATE and MUL_IMMEDIATE (43_integer_arithmetic.md R175 to R177) -/

theorem exec_addImmediate (src : XReg) (imm : Word) (dst : XReg) (s : State) :
    exec (.addImmediate src imm dst) s = runHandler (.rir .integer) (immediateX (· + ·) src imm dst) s := rfl

theorem exec_subImmediate (src : XReg) (imm : Word) (dst : XReg) (s : State) :
    exec (.subImmediate src imm dst) s = runHandler (.rir .integer) (immediateX (· - ·) src imm dst) s := rfl

theorem exec_mulImmediate (src : XReg) (imm : Word) (dst : XReg) (s : State) :
    exec (.mulImmediate src imm dst) s = runHandler (.rir .integer) (immediateX (· * ·) src imm dst) s := rfl

/-- Settles O34: as O33, with the immediate as right operand of `immediateX`. -/
theorem integerImmediateEffect : Obligations.IntegerImmediateEffect := by
  have hfields : ∀ b ∈ [Opcode.addImmediate, .subImmediate, .mulImmediate].map Opcode.byte,
      FieldsFault [b] [.reg, .imm, .reg] := fieldsFault_of_format (by decide)
  refine ⟨hfields, fun s src imm dst => ?_⟩
  rw [exec_addImmediate, exec_subImmediate, exec_mulImmediate]
  exact ⟨⟨encode_reg_word_reg rfl, writesX_runHandler_immediateX (add_eq_ofNat_mod _ _)⟩,
    ⟨encode_reg_word_reg rfl, writesX_runHandler_immediateX (sub_eq_ofInt_mod _ _)⟩,
    encode_reg_word_reg rfl, writesX_runHandler_immediateX (mul_eq_ofNat_mod _ _)⟩

/-! ## DIV and DIV_IMMEDIATE (43_integer_arithmetic.md R174, R178, R180) -/

/-- A handler is run on the advanced state only. -/
theorem runHandler_congr {s : State} {fmt : Format} {h h' : State → Except FaultKind State}
    (heq : h (s.advance fmt) = h' (s.advance fmt)) : runHandler fmt h s = runHandler fmt h' s := by
  unfold runHandler
  rw [heq]

theorem exec_div (src1 src2 dst : XReg) (s : State) :
    exec (.div src1 src2 dst) s = runHandler .rrr (divideX (sourceX s 4 src1) (sourceX s 4 src2) dst) s := by
  have hread (r : XReg) : (s.advance .rrr).readX r = sourceX s 4 r := readX_advance_source s .rrr r
  rw [← hread, ← hread]
  exact runHandler_congr rfl

theorem exec_divImmediate (src : XReg) (imm : Word) (dst : XReg) (s : State) :
    exec (.divImmediate src imm dst) s = runHandler (.rir .integer) (divideX (sourceX s 7 src) imm dst) s := by
  have hread : (s.advance (.rir .integer)).readX src = sourceX s 7 src := readX_advance_source s (.rir .integer) src
  rw [← hread]
  exact runHandler_congr rfl

section
variable {s : State} {fmt : Format} {a b : Word} {dst : XReg}

theorem writesX_runHandler_divideX (hne : b ≠ 0#32) :
    ∃ t, runHandler fmt (divideX a b dst) s = .next t ∧
      WritesX s t fmt.length dst (BitVec.ofNat 32 (a.toNat / b.toNat)) := by
  obtain ⟨hzero, -⟩ | ⟨-, hok⟩ := divideX_cases a b dst (s.advance fmt)
  · exact absurd hzero hne
  · rw [BitVec.udiv_def] at hok
    exact writesX_runHandler hok

theorem runHandler_divideX_by_zero (hzero : b = 0#32) :
    FaultsWith s .divisionByZero (runHandler fmt (divideX a b dst) s) := by
  obtain ⟨-, hfault⟩ | ⟨hne, -⟩ := divideX_cases a b dst (s.advance fmt)
  · exact runHandler_error hfault
  · exact absurd hzero hne

end

/-- Settles O35: both divisions are `divideX` on the operands as the rule reads them, so a divisor of r13 is the next
instruction's address (R26). -/
theorem divisionEffect : Obligations.DivisionEffect := by
  refine ⟨firstOffendingFieldDecides .div, firstOffendingFieldDecides .divImmediate,
    fun s => ⟨fun src1 src2 dst => ?_, fun src imm dst => ?_⟩⟩
  · rw [exec_div]
    exact ⟨rfl, writesX_runHandler_divideX, runHandler_divideX_by_zero⟩
  · rw [exec_divImmediate]
    exact ⟨encode_reg_word_reg rfl, writesX_runHandler_divideX, runHandler_divideX_by_zero⟩

end Sys2Proof.Machine
end

section
/-! Shifts: the four instructions are the register forms of integer arithmetic with the two shift functions as operation, so
what is left to show is that those are R190's arithmetic on the whole amount (44_shift.md R190 to R195). -/

namespace Sys2Proof.Machine

/-! ## The two shift functions (44_shift.md R190) -/

theorem shiftLeft_word_eq_ofNat_mod (a : Word) (n : Nat) : a <<< n = BitVec.ofNat 32 (a.toNat * 2 ^ n % 2 ^ 32) :=
  BitVec.eq_of_toNat_eq (by rw [BitVec.toNat_shiftLeft, BitVec.toNat_ofNat, Nat.mod_mod, Nat.shiftLeft_eq])

/-- The quotient is no larger than the word, so it needs no reduction modulo 2^32. -/
theorem ushiftRight_word_eq_ofNat_div (a : Word) (n : Nat) : a >>> n = BitVec.ofNat 32 (a.toNat / 2 ^ n) := by
  have hlt : a.toNat / 2 ^ n < 2 ^ 32 := (Nat.div_le_self ..).trans_lt a.isLt
  apply BitVec.eq_of_toNat_eq
  rw [BitVec.toNat_ushiftRight, BitVec.toNat_ofNat, Nat.mod_eq_of_lt hlt, Nat.shiftRight_eq_div_pow]

/-- The model's bound, below 32, is the rule's, up to 31. -/
theorem amount_lt_xlen_iff (n : Word) : n.toNat < Config.xlen ↔ n.toNat ≤ 31 := Nat.lt_succ_iff

theorem shiftLeft_eq_specShl (a n : Word) : shiftLeft a n = specShl a n :=
  if_congr (amount_lt_xlen_iff n) (shiftLeft_word_eq_ofNat_mod a n.toNat) rfl

theorem shiftRight_eq_specShr (a n : Word) : shiftRight a n = specShr a n :=
  if_congr (amount_lt_xlen_iff n) (ushiftRight_word_eq_ofNat_div a n.toNat) rfl

/-! ## SHL, SHR, SHL_IMMEDIATE and SHR_IMMEDIATE (44_shift.md R191 to R194) -/

theorem exec_shl (src1 src2 dst : XReg) (s : State) :
    exec (.shl src1 src2 dst) s = runHandler .rrr (binaryX shiftLeft src1 src2 dst) s := rfl

theorem exec_shr (src1 src2 dst : XReg) (s : State) :
    exec (.shr src1 src2 dst) s = runHandler .rrr (binaryX shiftRight src1 src2 dst) s := rfl

theorem exec_shlImmediate (src : XReg) (imm : Word) (dst : XReg) (s : State) :
    exec (.shlImmediate src imm dst) s = runHandler (.rir .integer) (immediateX shiftLeft src imm dst) s := rfl

theorem exec_shrImmediate (src : XReg) (imm : Word) (dst : XReg) (s : State) :
    exec (.shrImmediate src imm dst) s = runHandler (.rir .integer) (immediateX shiftRight src imm dst) s := rfl

/-- Settles O36: the register and the immediate forms differ only in where the amount comes from, and r13 as amount is the
next instruction's address (R26). -/
theorem shiftEffect : Obligations.ShiftEffect := by
  have hregister : ∀ b ∈ [Opcode.shl, .shr].map Opcode.byte, FieldsFault [b] [.reg, .reg, .reg] :=
    fieldsFault_of_format (by decide)
  have himmediate : ∀ b ∈ [Opcode.shlImmediate, .shrImmediate].map Opcode.byte, FieldsFault [b] [.reg, .imm, .reg] :=
    fieldsFault_of_format (by decide)
  refine ⟨hregister, himmediate, fun s => ⟨fun src1 src2 dst => ?_, fun src imm dst => ?_⟩⟩
  · rw [exec_shl, exec_shr]
    exact ⟨rfl, writesX_runHandler_binaryX (shiftLeft_eq_specShl _ _),
      rfl, writesX_runHandler_binaryX (shiftRight_eq_specShr _ _)⟩
  · rw [exec_shlImmediate, exec_shrImmediate]
    exact ⟨encode_reg_word_reg rfl, writesX_runHandler_immediateX (shiftLeft_eq_specShl _ _),
      encode_reg_word_reg rfl, writesX_runHandler_immediateX (shiftRight_eq_specShr _ _)⟩

end Sys2Proof.Machine
end

section
/-! Float arithmetic: each instruction is the Decoder's advance, then one float register write of the result of its
operation on the patterns read there, a drawn quiet NaN where that result is a NaN (45_float_arithmetic.md R202 to R212). -/

namespace Sys2Proof.Machine

/-! ## A handler that writes one float result -/

/-- R203: a float result is a register write in both its cases, never a fault; in the NaN case the draw is quiet. -/
theorem writesF_resultF (op : FloatOp) (a b : FloatPattern) (dst : FReg) (s : State) (fmt : Format) :
    ∃ t, resultF op a b dst (s.advance fmt) = .ok t ∧ WritesF s t fmt.length dst (FloatResultOf op a b) := by
  obtain ⟨v, hpattern, hwrite⟩ | ⟨hnan, hwrite⟩ := resultF_cases op a b dst (s.advance fmt)
  · exact ⟨_, hwrite, writesF_advance s fmt dst v (.inl hpattern)⟩
  · exact ⟨_, hwrite, writesF_countDraw (writesF_advance s fmt dst _ (.inr ⟨hnan, quietNaN_quiet _⟩))⟩

section
variable (op : FloatOp) (src src1 src2 dst : FReg) (imm : FloatPattern) (s : State) (fmt : Format)

/-- `f[dst] <- f[src1] op f[src2]`, told from the state at the start of the step (45_float_arithmetic.md R212). -/
theorem writesF_runHandler_binaryF : ∃ t, runHandler fmt (binaryF op src1 src2 dst) s = .next t ∧
    WritesF s t fmt.length dst (FloatResultOf op (s.readF src1) (s.readF src2)) := by
  obtain ⟨t, hok, hwrites⟩ := writesF_resultF op (s.readF src1) (s.readF src2) dst s fmt
  exact ⟨t, runHandler_ok (by rw [binaryF, readF_advance, readF_advance, hok]), hwrites⟩

/-- `f[dst] <- f[src] op imm`, told from the state at the start of the step (45_float_arithmetic.md R212). -/
theorem writesF_runHandler_immediateF : ∃ t, runHandler fmt (immediateF op src imm dst) s = .next t ∧
    WritesF s t fmt.length dst (FloatResultOf op (s.readF src) imm) := by
  obtain ⟨t, hok, hwrites⟩ := writesF_resultF op (s.readF src) imm dst s fmt
  exact ⟨t, runHandler_ok (by rw [immediateF, readF_advance, hok]), hwrites⟩

end

/-! ## ADD_FLOAT, SUB_FLOAT, MUL_FLOAT and DIV_FLOAT (45_float_arithmetic.md R204 to R207) -/

theorem exec_addFloat (src1 src2 dst : FReg) (s : State) :
    exec (.addFloat src1 src2 dst) s = runHandler .rrr (binaryF .add src1 src2 dst) s := rfl

theorem exec_subFloat (src1 src2 dst : FReg) (s : State) :
    exec (.subFloat src1 src2 dst) s = runHandler .rrr (binaryF .sub src1 src2 dst) s := rfl

theorem exec_mulFloat (src1 src2 dst : FReg) (s : State) :
    exec (.mulFloat src1 src2 dst) s = runHandler .rrr (binaryF .mul src1 src2 dst) s := rfl

theorem exec_divFloat (src1 src2 dst : FReg) (s : State) :
    exec (.divFloat src1 src2 dst) s = runHandler .rrr (binaryF .div src1 src2 dst) s := rfl

/-- Settles O37: the four instructions differ only in the operation of `binaryF`. -/
theorem floatThreeRegisterEffect : Obligations.FloatThreeRegisterEffect := by
  have hfields : ∀ b ∈ [Opcode.addFloat, .subFloat, .mulFloat, .divFloat].map Opcode.byte,
      FieldsFault [b] [.reg, .reg, .reg] := fieldsFault_of_format (by decide)
  refine ⟨hfields, fun s src1 src2 dst => ?_⟩
  have heffect (op : FloatOp) := writesF_runHandler_binaryF op src1 src2 dst s .rrr
  rw [exec_addFloat, exec_subFloat, exec_mulFloat, exec_divFloat]
  exact ⟨⟨rfl, heffect .add⟩, ⟨rfl, heffect .sub⟩, ⟨rfl, heffect .mul⟩, rfl, heffect .div⟩

/-! ## ADD_FLOAT_IMMEDIATE to DIV_FLOAT_IMMEDIATE (45_float_arithmetic.md R208 to R211) -/

theorem exec_addFloatImmediate (src : FReg) (imm : FloatPattern) (dst : FReg) (s : State) :
    exec (.addFloatImmediate src imm dst) s = runHandler (.rir .float) (immediateF .add src imm dst) s := rfl

theorem exec_subFloatImmediate (src : FReg) (imm : FloatPattern) (dst : FReg) (s : State) :
    exec (.subFloatImmediate src imm dst) s = runHandler (.rir .float) (immediateF .sub src imm dst) s := rfl

theorem exec_mulFloatImmediate (src : FReg) (imm : FloatPattern) (dst : FReg) (s : State) :
    exec (.mulFloatImmediate src imm dst) s = runHandler (.rir .float) (immediateF .mul src imm dst) s := rfl

theorem exec_divFloatImmediate (src : FReg) (imm : FloatPattern) (dst : FReg) (s : State) :
    exec (.divFloatImmediate src imm dst) s = runHandler (.rir .float) (immediateF .div src imm dst) s := rfl

/-- Settles O38: as O37, with the immediate's pattern, whatever it is, as right operand of `immediateF`. -/
theorem floatImmediateEffect : Obligations.FloatImmediateEffect := by
  have hfields : ∀ b ∈ [Opcode.addFloatImmediate, .subFloatImmediate, .mulFloatImmediate,
      .divFloatImmediate].map Opcode.byte, FieldsFault [b] [.reg, .imm, .reg] := fieldsFault_of_format (by decide)
  refine ⟨hfields, fun s src imm dst => ?_⟩
  have heffect (op : FloatOp) := writesF_runHandler_immediateF op src dst imm s (.rir .float)
  rw [exec_addFloatImmediate, exec_subFloatImmediate, exec_mulFloatImmediate, exec_divFloatImmediate]
  exact ⟨⟨encode_reg_word_reg rfl, heffect .add⟩, ⟨encode_reg_word_reg rfl, heffect .sub⟩,
    ⟨encode_reg_word_reg rfl, heffect .mul⟩, encode_reg_word_reg rfl, heffect .div⟩

end Sys2Proof.Machine
end

section
/-! The two compares: each is the Decoder's advance, then one write of the flags word, so an instruction's whole effect is
what its new flags word reads as, bit by bit (46_compare.md R220, R221). -/

namespace Sys2Proof.Machine

/-! ## A write of the flags word (10_state.md R30, R31) -/

/-- A write of the flags word after the advance is a compare's whole effect when it keeps the bits from `kept` on. -/
theorem writesFlags_advance {s : State} {w : Word} {kept : Nat} (fmt : Format)
    (hkept : ∀ j, kept ≤ j → testFlag w j = testFlag s.flags j) :
    WritesFlags s ((s.advance fmt).writeX Config.flagsId w) fmt.length kept := by
  have hwrites := writesX_advance s fmt Config.flagsId w
  exact
    { bits := fun j hj => by rw [State.flags, hwrites.value, hkept j hj]
      pc := hwrites.pc (by decide)
      integers := hwrites.others
      floats := hwrites.floats
      memory := hwrites.memory
      control := hwrites.control }

/-! ## COMPARE (46_compare.md R220) -/

theorem testFlag_compareFlags (w a b : Word) (j : Nat) :
    testFlag (compareFlags w a b) j =
      if j = 0 then decide (a = b) else if j = 1 then !decide (a = b) && decide (b.toNat < a.toNat)
      else testFlag w j :=
  testFlag_putZeroSign ..

/-- Both operands and the old flags word are read on the advanced state, before the write. -/
theorem exec_compare (reg1 reg2 : XReg) (s : State) :
    exec (.compare reg1 reg2) s = .next ((s.advance .rr).writeX Config.flagsId
      (compareFlags s.flags (sourceX s 3 reg1) (sourceX s 3 reg2))) := by
  have hread (r : XReg) : (s.advance .rr).readX r = sourceX s 3 r := readX_advance_source s .rr r
  rw [← hread, ← hread, ← flags_advance s .rr]
  unfold exec execCompare
  exact runHandler_ok rfl

/-- Settles O45: the three relations of the operands as words, ZERO and SIGN read off `compareFlags`. -/
theorem compareEffect : Obligations.CompareEffect := by
  refine ⟨firstOffendingFieldDecides .compare, fun s reg1 reg2 => ⟨rfl, _, exec_compare reg1 reg2 s, ?_⟩⟩
  simp only [State.flags, readX_writeX_same, testFlag_compareFlags]
  refine ⟨writesFlags_advance .rr fun j hj => ?_, fun heq => ?_, fun hgt => ?_, fun hlt => ?_⟩
  · rw [testFlag_compareFlags, if_neg (by omega), if_neg (by omega), State.flags]
  · simp [heq]
  · have hne : sourceX s 3 reg1 ≠ sourceX s 3 reg2 := fun heq => absurd hgt (by simp [heq])
    simp [hne, hgt]
  · have hne : sourceX s 3 reg1 ≠ sourceX s 3 reg2 := fun heq => absurd hlt (by simp [heq])
    simp [hne, hlt.le]

/-! ## The order of the float values (45_float_arithmetic.md R201, 46_compare.md R221) -/

/-- The magnitude the model gives an infinity, in units of 2^-149. -/
def infiniteUnits : Nat := 2 ^ 24 * 2 ^ 253

theorem isNaN_of_isInfinite {v : FloatPattern} (h : isInfinite v = true) : isNaN v = false := by
  simp only [isInfinite, Bool.and_eq_true, beq_iff_eq] at h
  simp [isNaN, h.2]

theorem isFinite_of_isNaN {v : FloatPattern} (h : isNaN v = true) : isFinite v = false := by
  simp only [isNaN, Bool.and_eq_true, beq_iff_eq] at h
  simp [isFinite, h.1]

/-- The classes of R201 other than NaN. -/
theorem isFinite_or_isInfinite {v : FloatPattern} (h : isNaN v = false) : isFinite v = true ∨ isInfinite v = true := by
  by_cases he : floatExponent v = 255
  · exact .inr (by simpa [isNaN, isInfinite, he] using h)
  · exact .inl (by simp [isFinite, he])

theorem floatMagnitude_of_isInfinite {v : FloatPattern} (h : isInfinite v = true) : floatMagnitude v = infiniteUnits := by
  simp only [isInfinite, Bool.and_eq_true, beq_iff_eq] at h
  rw [floatMagnitude, h.1, h.2]
  decide

/-- The largest exponent of a finite pattern is 254, the largest fraction 2^23 - 1. -/
theorem floatMagnitude_lt_of_isFinite {v : FloatPattern} (h : isFinite v = true) : floatMagnitude v < infiniteUnits := by
  have hfraction : floatFraction v < 2 ^ 23 := (v.extractLsb' 0 23).isLt
  have hexponent : floatExponent v < 2 ^ 8 := (v.extractLsb' 23 8).isLt
  have hfinite : floatExponent v ≠ 255 := by simpa [isFinite] using h
  unfold floatMagnitude
  split
  · exact hfraction.trans (by decide)
  · calc (2 ^ 23 + floatFraction v) * 2 ^ (floatExponent v - 1)
        < 2 ^ 24 * 2 ^ (floatExponent v - 1) := Nat.mul_lt_mul_of_pos_right (by omega) (by positivity)
      _ ≤ 2 ^ 24 * 2 ^ 253 := Nat.mul_le_mul_left _ (Nat.pow_le_pow_right (by decide) (by omega))
      _ = infiniteUnits := rfl

theorem floatUnits_of_sign_false {v : FloatPattern} (h : floatSign v = false) : floatUnits v = floatMagnitude v := by
  simp [floatUnits, h]

theorem floatUnits_of_sign_true {v : FloatPattern} (h : floatSign v = true) : floatUnits v = -floatMagnitude v := by
  simp [floatUnits, h]

section
variable {v : FloatPattern}

theorem floatUnits_posInf (hinf : isInfinite v = true) (hsign : floatSign v = false) : floatUnits v = infiniteUnits := by
  rw [floatUnits_of_sign_false hsign, floatMagnitude_of_isInfinite hinf]

theorem floatUnits_negInf (hinf : isInfinite v = true) (hsign : floatSign v = true) : floatUnits v = -infiniteUnits := by
  rw [floatUnits_of_sign_true hsign, floatMagnitude_of_isInfinite hinf]

/-- Finite values lie strictly between the infinities. -/
theorem floatUnits_of_isFinite (h : isFinite v = true) :
    -(infiniteUnits : Int) < floatUnits v ∧ floatUnits v < infiniteUnits := by
  have hmag := floatMagnitude_lt_of_isFinite h
  cases hsign : floatSign v with
  | false => rw [floatUnits_of_sign_false hsign]; omega
  | true => rw [floatUnits_of_sign_true hsign]; omega

theorem infiniteUnits_pos : 0 < infiniteUnits := by decide

/-- Every value other than +inf is less than +inf. -/
theorem floatUnits_lt_posInf (hnan : isNaN v = false) (hne : ¬(isInfinite v = true ∧ floatSign v = false)) :
    floatUnits v < infiniteUnits := by
  obtain hfinite | hinf := isFinite_or_isInfinite hnan
  · exact (floatUnits_of_isFinite hfinite).2
  · have hsign : floatSign v = true := by simpa [hinf] using hne
    have hpos := infiniteUnits_pos
    rw [floatUnits_negInf hinf hsign]
    omega

/-- Every value other than -inf is greater than -inf. -/
theorem negInf_lt_floatUnits (hnan : isNaN v = false) (hne : ¬(isInfinite v = true ∧ floatSign v = true)) :
    -(infiniteUnits : Int) < floatUnits v := by
  obtain hfinite | hinf := isFinite_or_isInfinite hnan
  · exact (floatUnits_of_isFinite hfinite).1
  · have hsign : floatSign v = false := by simpa [hinf] using hne
    have hpos := infiniteUnits_pos
    rw [floatUnits_posInf hinf hsign]
    omega

end

theorem floatUnits_eq_of_isInfinite {a b : FloatPattern} (ha : isInfinite a = true) (hb : isInfinite b = true)
    (hsign : floatSign a = floatSign b) : floatUnits a = floatUnits b := by
  unfold floatUnits
  rw [hsign, floatMagnitude_of_isInfinite ha, floatMagnitude_of_isInfinite hb]

/-! ## COMPARE_FLOAT (46_compare.md R221) -/

/-- The flags word COMPARE_FLOAT leaves for the operands `a` and `b`, from the old one. -/
def floatCompareFlags (w : Word) (a b : FloatPattern) : Word :=
  compareFloatFlags w (floatOps.feq a b) (floatOps.fgt a b) (differenceOverflows a b)

theorem exec_compareFloat (reg1 reg2 : FReg) (s : State) :
    exec (.compareFloat reg1 reg2) s = .next ((s.advance .rr).writeX Config.flagsId
      (floatCompareFlags s.flags (s.readF reg1) (s.readF reg2))) := by
  rw [← readF_advance s .rr, ← readF_advance s .rr, ← flags_advance s .rr]
  unfold exec execCompareFloat
  exact runHandler_ok rfl

theorem feq_iff {a b : FloatPattern} :
    floatOps.feq a b = true ↔ isNaN a = false ∧ isNaN b = false ∧ floatUnits a = floatUnits b := by
  simp [floatOps, eqBinary32, and_assoc]

theorem fgt_iff {a b : FloatPattern} :
    floatOps.fgt a b = true ↔ isNaN a = false ∧ isNaN b = false ∧ floatUnits b < floatUnits a := by
  simp [floatOps, gtBinary32, and_assoc]

theorem differenceOverflows_iff {a b : FloatPattern} : differenceOverflows a b = true ↔
    isFinite a = true ∧ isFinite b = true ∧ (2 ^ 24 - 1) * 2 ^ (104 + 149) < |floatUnits a - floatUnits b| := by
  have hmax : ((2 ^ 24 - 1) * 2 ^ (104 + 149) : Int) = (maxFiniteUnits : Nat) := by decide
  rw [hmax, Int.abs_eq_natAbs, Int.ofNat_lt]
  simp [differenceOverflows, and_assoc]

section
variable (w : Word) (a b : FloatPattern)

theorem zeroBit_floatCompareFlags : testFlag (floatCompareFlags w a b) 0 = floatOps.feq a b :=
  testFlag_compareFloatFlags ..

theorem signBit_floatCompareFlags :
    testFlag (floatCompareFlags w a b) 1 = (!floatOps.feq a b && floatOps.fgt a b) :=
  testFlag_compareFloatFlags ..

theorem overflowBit_floatCompareFlags : testFlag (floatCompareFlags w a b) 2 = differenceOverflows a b :=
  testFlag_compareFloatFlags ..

theorem keptBits_floatCompareFlags {j : Nat} (hj : 3 ≤ j) : testFlag (floatCompareFlags w a b) j = testFlag w j := by
  rw [floatCompareFlags, testFlag_compareFloatFlags, if_neg (by omega), if_neg (by omega), if_neg (by omega)]

end

section
variable (w : Word) {a b : FloatPattern}

/-- A NaN is neither equal to nor greater than anything, and is not finite. -/
theorem floatCompareFlags_of_isNaN (h : isNaN a = true ∨ isNaN b = true) :
    testFlag (floatCompareFlags w a b) 0 = false ∧ testFlag (floatCompareFlags w a b) 1 = false ∧
      testFlag (floatCompareFlags w a b) 2 = false := by
  rw [zeroBit_floatCompareFlags, signBit_floatCompareFlags, overflowBit_floatCompareFlags]
  simp only [← Bool.not_eq_true, Bool.and_eq_true, feq_iff, fgt_iff, differenceOverflows_iff]
  obtain h | h := h <;> simp [h, isFinite_of_isNaN h]

theorem floatCompareFlags_of_lt (h : floatUnits a < floatUnits b) :
    testFlag (floatCompareFlags w a b) 0 = false ∧ testFlag (floatCompareFlags w a b) 1 = false := by
  have heq : floatOps.feq a b = false := Bool.eq_false_iff.2 fun heq => h.ne (feq_iff.1 heq).2.2
  have hgt : floatOps.fgt a b = false := Bool.eq_false_iff.2 fun hgt => h.asymm (fgt_iff.1 hgt).2.2
  simp [zeroBit_floatCompareFlags, signBit_floatCompareFlags, heq, hgt]

variable (ha : isNaN a = false) (hb : isNaN b = false)
include ha hb

theorem floatCompareFlags_of_eq (h : floatUnits a = floatUnits b) :
    testFlag (floatCompareFlags w a b) 0 = true ∧ testFlag (floatCompareFlags w a b) 1 = false := by
  have heq : floatOps.feq a b = true := feq_iff.2 ⟨ha, hb, h⟩
  simp [zeroBit_floatCompareFlags, signBit_floatCompareFlags, heq]

theorem floatCompareFlags_of_gt (h : floatUnits b < floatUnits a) :
    testFlag (floatCompareFlags w a b) 0 = false ∧ testFlag (floatCompareFlags w a b) 1 = true := by
  have heq : floatOps.feq a b = false := Bool.eq_false_iff.2 fun heq => h.ne' (feq_iff.1 heq).2.2
  have hgt : floatOps.fgt a b = true := fgt_iff.2 ⟨ha, hb, h⟩
  simp [zeroBit_floatCompareFlags, signBit_floatCompareFlags, heq, hgt]

end

/-- Settles O46: ZERO and SIGN follow the order of the values in units of 2^-149, in which the model puts the infinities
beyond every finite value, so each clause on infinities is a case of the order. -/
theorem compareFloatEffect : Obligations.CompareFloatEffect := by
  refine ⟨firstOffendingFieldDecides .compareFloat, fun s reg1 reg2 => ?_⟩
  intro a b
  refine ⟨rfl, _, exec_compareFloat reg1 reg2 s,
    writesFlags_advance .rr fun j => keptBits_floatCompareFlags s.flags a b, ?_⟩
  simp only [State.flags, readX_writeX_same]
  refine ⟨floatCompareFlags_of_isNaN _, floatCompareFlags_of_eq _, floatCompareFlags_of_gt _,
    fun _ _ => floatCompareFlags_of_lt _,
    fun ha hb hsign => ?equal, fun ha hsign hb hne => ?posInfFirst, fun hb hsign ha hne => ?negInfSecond,
    fun ha hsign hb hne => ?negInfFirst, fun hb hsign ha hne => ?posInfSecond, ?overflow⟩
  case equal =>
    exact floatCompareFlags_of_eq _ (isNaN_of_isInfinite ha) (isNaN_of_isInfinite hb)
      (floatUnits_eq_of_isInfinite ha hb hsign)
  case posInfFirst =>
    exact floatCompareFlags_of_gt _ (isNaN_of_isInfinite ha) hb
      (floatUnits_posInf ha hsign ▸ floatUnits_lt_posInf hb hne)
  case negInfSecond =>
    exact floatCompareFlags_of_gt _ ha (isNaN_of_isInfinite hb)
      (floatUnits_negInf hb hsign ▸ negInf_lt_floatUnits ha hne)
  case negInfFirst =>
    exact floatCompareFlags_of_lt _ (floatUnits_negInf ha hsign ▸ negInf_lt_floatUnits hb hne)
  case posInfSecond =>
    exact floatCompareFlags_of_lt _ (floatUnits_posInf hb hsign ▸ floatUnits_lt_posInf ha hne)
  case overflow => exact overflowBit_floatCompareFlags .. ▸ differenceOverflows_iff

end Sys2Proof.Machine
end

section
/-! The jumps: each is the Decoder's advance, then a write of the pc when its condition holds on the flags word; a
register-indirect one first validates the target it reads, taken or not (47_jumps.md R230 to R243). -/

namespace Sys2Proof.Machine

/-! ## The encoding of the absolute forms (30_encoding.md R81, format A) -/

theorem encode_word {i : Instr} {v : Word} (h : i.operandBytes = leBytes 4 v.toNat) :
    encode i = i.opcode.byte :: fieldBytes v := by
  rw [encode, h, ← fieldBytes_eq_leBytes]

/-! ## The conditions (47_jumps.md R230) -/

section
variable (w : Word)

theorem conditionHolds_always : conditionHolds .always w = true := rfl

theorem conditionHolds_zero_iff : conditionHolds .zero w = true ↔ testFlag w 0 = true := Iff.rfl

theorem conditionHolds_equal_iff : conditionHolds .equal w = true ↔ testFlag w 0 = true := Iff.rfl

theorem conditionHolds_lessThan_iff :
    conditionHolds .lessThan w = true ↔ testFlag w 0 = true ∨ ¬testFlag w 1 = testFlag w 2 := by
  simp only [conditionHolds, Bool.or_eq_true, bne_iff_ne, ne_eq]

theorem conditionHolds_greaterThan_iff :
    conditionHolds .greaterThan w = true ↔ testFlag w 0 = true ∧ testFlag w 1 = testFlag w 2 := by
  simp only [conditionHolds, Bool.and_eq_true, beq_iff_eq]

end

/-! ## A handler that jumps (47_jumps.md R231, R243) -/

section
variable {s : State} {fmt : Format} {c : Condition} {target : Word}

/-- The advance does not touch the flags word, so the condition is the one at the start of the step. -/
theorem runHandler_jumpTo_taken (h : conditionHolds c s.flags = true) :
    ∃ t, runHandler fmt (jumpTo c target) s = .next t ∧ MovesPc s t target :=
  ⟨_, runHandler_ok (by rw [jumpTo, flags_advance, if_pos h]), movesPc_write s fmt target⟩

theorem runHandler_jumpTo_notTaken (h : ¬conditionHolds c s.flags = true) :
    ∃ t, runHandler fmt (jumpTo c target) s = .next t ∧
      MovesPc s t (s.pc + BitVec.ofNat Config.xlen fmt.length) :=
  ⟨_, runHandler_ok (by rw [jumpTo, flags_advance, if_neg h]), movesPc_advance s fmt⟩

/-- Both outcomes of a jump, its condition in the spelling of the rule. -/
theorem runHandler_jumpTo {taken : Prop} [Decidable taken] (h : conditionHolds c s.flags = true ↔ taken) :
    ∃ t, runHandler fmt (jumpTo c target) s = .next t ∧
      MovesPc s t (if taken then target else s.pc + BitVec.ofNat Config.xlen fmt.length) := by
  split
  · next htaken => exact runHandler_jumpTo_taken (h.2 htaken)
  · next hnot => exact runHandler_jumpTo_notTaken (mt h.1 hnot)

variable {reg : XReg}

/-- With a legal target the register-indirect form is the absolute one (R231). -/
theorem runHandler_jumpToRegister (hlegal : (sourceX s fmt.length reg).toNat < Config.memorySize) :
    runHandler fmt (jumpToRegister c reg) s = runHandler fmt (jumpTo c (sourceX s fmt.length reg)) s := by
  rw [← readX_advance_source] at hlegal ⊢
  obtain ⟨hpast, -⟩ | ⟨-, hjump⟩ := jumpToRegister_cases c reg (s.advance fmt)
  · exact absurd hlegal (Nat.not_lt.2 hpast)
  · exact runHandler_congr hjump

/-- The condition plays no part: the target is validated first (R243). -/
theorem runHandler_jumpToRegister_invalidAddress (hpast : Config.memorySize ≤ (sourceX s fmt.length reg).toNat) :
    FaultsWith s .invalidAddress (runHandler fmt (jumpToRegister c reg) s) := by
  rw [← readX_advance_source] at hpast
  obtain ⟨-, hfault⟩ | ⟨hlegal, -⟩ := jumpToRegister_cases c reg (s.advance fmt)
  · exact runHandler_error hfault
  · exact absurd hpast (Nat.not_le.2 hlegal)

end

/-! ## The absolute jumps (47_jumps.md R232 to R236) -/

section
variable (addr : Word) (s : State)

theorem exec_jump : exec (.jump addr) s = runHandler .a (jumpTo .always addr) s := rfl

theorem exec_jumpZero : exec (.jumpZero addr) s = runHandler .a (jumpTo .zero addr) s := rfl

theorem exec_jumpEqual : exec (.jumpEqual addr) s = runHandler .a (jumpTo .equal addr) s := rfl

theorem exec_jumpLessThan : exec (.jumpLessThan addr) s = runHandler .a (jumpTo .lessThan addr) s := rfl

theorem exec_jumpGreaterThan : exec (.jumpGreaterThan addr) s = runHandler .a (jumpTo .greaterThan addr) s := rfl

end

/-- Settles O47: the five differ only in their condition; an address the Decoder let through needs no further test. -/
theorem absoluteJumpEffect : Obligations.AbsoluteJumpEffect := by
  have hfields : ∀ b ∈ [Opcode.jump, .jumpZero, .jumpEqual, .jumpLessThan, .jumpGreaterThan].map Opcode.byte,
      FieldsFault [b] [.addr] := fieldsFault_of_format (by decide)
  refine ⟨hfields, fun s addr _ => ?_⟩
  rw [exec_jump, exec_jumpZero, exec_jumpEqual, exec_jumpLessThan, exec_jumpGreaterThan]
  exact ⟨⟨encode_word rfl, runHandler_jumpTo_taken (conditionHolds_always _)⟩,
    ⟨encode_word rfl, runHandler_jumpTo (conditionHolds_zero_iff _)⟩,
    ⟨encode_word rfl, runHandler_jumpTo (conditionHolds_equal_iff _)⟩,
    ⟨encode_word rfl, runHandler_jumpTo (conditionHolds_lessThan_iff _)⟩,
    encode_word rfl, runHandler_jumpTo (conditionHolds_greaterThan_iff _)⟩

/-! ## The register-indirect jumps (47_jumps.md R237 to R241) -/

section
variable (reg : XReg) (s : State)

theorem exec_jumpRegister : exec (.jumpRegister reg) s = runHandler .r (jumpToRegister .always reg) s := rfl

theorem exec_jumpRegisterZero : exec (.jumpRegisterZero reg) s = runHandler .r (jumpToRegister .zero reg) s := rfl

theorem exec_jumpRegisterEqual : exec (.jumpRegisterEqual reg) s = runHandler .r (jumpToRegister .equal reg) s := rfl

theorem exec_jumpRegisterLessThan :
    exec (.jumpRegisterLessThan reg) s = runHandler .r (jumpToRegister .lessThan reg) s := rfl

theorem exec_jumpRegisterGreaterThan :
    exec (.jumpRegisterGreaterThan reg) s = runHandler .r (jumpToRegister .greaterThan reg) s := rfl

end

/-- Settles O48: a legal target turns each into its absolute form, an illegal one faults before the condition is looked
at; r13 as target is the next instruction's address (R26). -/
theorem registerJumpEffect : Obligations.RegisterJumpEffect := by
  have hfields : ∀ b ∈ [Opcode.jumpRegister, .jumpRegisterZero, .jumpRegisterEqual, .jumpRegisterLessThan,
      .jumpRegisterGreaterThan].map Opcode.byte, FieldsFault [b] [.reg] := fieldsFault_of_format (by decide)
  refine ⟨hfields, fun s reg => ?_⟩
  rw [exec_jumpRegister, exec_jumpRegisterZero, exec_jumpRegisterEqual, exec_jumpRegisterLessThan,
    exec_jumpRegisterGreaterThan]
  refine ⟨rfl, rfl, rfl, rfl, rfl, fun hlegal => ?legal, fun hpast => ?past⟩
  case legal =>
    have hjump (c : Condition) :
        runHandler .r (jumpToRegister c reg) s = runHandler .r (jumpTo c (sourceX s 2 reg)) s :=
      runHandler_jumpToRegister hlegal
    simp only [hjump]
    exact ⟨runHandler_jumpTo_taken (conditionHolds_always _), runHandler_jumpTo (conditionHolds_zero_iff _),
      runHandler_jumpTo (conditionHolds_equal_iff _), runHandler_jumpTo (conditionHolds_lessThan_iff _),
      runHandler_jumpTo (conditionHolds_greaterThan_iff _)⟩
  case past =>
    have hfault (c : Condition) : FaultsWith s .invalidAddress (runHandler .r (jumpToRegister c reg) s) :=
      runHandler_jumpToRegister_invalidAddress hpast
    exact ⟨hfault .always, hfault .zero, hfault .equal, hfault .lessThan, hfault .greaterThan⟩

end Sys2Proof.Machine
end

section
/-! Fault entry (60_exceptions.md R251, R256): every way a running step can end, and that Faulted is entered only by
`raise` on the state at the start of the step. -/

namespace Sys2Proof.Machine

/-! ## What a handler can answer -/

/-- The answers a handler on `u` can give: a state with the `run_state` of `u`, a Halted one (HALT, R126), or a `raise`
of a kind that a step can raise (60_exceptions.md R251, R260). No handler reaches Faulted by a write of its own. -/
inductive HandlerAnswer (u : State) : Except FaultKind State → Prop
  | completed {t : State} (keeps : t.runState = u.runState) : HandlerAnswer u (.ok t)
  | halted {t : State} (halts : t.runState = .halted) : HandlerAnswer u (.ok t)
  | raised {k : FaultKind} (kind : k ≠ .programTooLarge) : HandlerAnswer u (.error k)

section
variable (u : State)

theorem handlerAnswer_divideX (a b : Word) (dst : XReg) : HandlerAnswer u (divideX a b dst u) := by
  obtain ⟨-, h⟩ | ⟨-, h⟩ := divideX_cases a b dst u
  · exact h ▸ .raised (by decide)
  · exact h ▸ .completed rfl

theorem handlerAnswer_resultF (op : FloatOp) (a b : FloatPattern) (dst : FReg) :
    HandlerAnswer u (resultF op a b dst u) := by
  obtain ⟨_, -, h⟩ | ⟨-, h⟩ := resultF_cases op a b dst u
  · exact h ▸ .completed rfl
  · exact h ▸ .completed rfl

theorem handlerAnswer_loadThen (n : Nat) (addr : Word) {write : Word → State → State}
    (hwrite : ∀ v t, (write v t).runState = t.runState) : HandlerAnswer u (loadThen n addr write u) := by
  unfold loadThen
  cases hread : u.memRead (w := 32) addr n with
  | ok v => exact .completed (hwrite v u)
  | error k =>
    obtain ⟨-, rfl⟩ := memRead_error_iff.1 hread
    exact .raised (by decide)

theorem handlerAnswer_loadX (n : Nat) (reg : XReg) (addr : Word) : HandlerAnswer u (loadX n reg addr u) :=
  loadX_eq n reg addr ▸ handlerAnswer_loadThen u n addr fun _ _ => rfl

theorem handlerAnswer_loadF (reg : FReg) (addr : Word) : HandlerAnswer u (loadF reg addr u) :=
  loadF_eq reg addr ▸ handlerAnswer_loadThen u 4 addr fun _ _ => rfl

theorem handlerAnswer_memWrite {w : Nat} (addr : Word) (n : Nat) (v : BitVec w) :
    HandlerAnswer u (u.memWrite addr n v) := by
  cases hwrite : u.memWrite addr n v with
  | ok t =>
    obtain ⟨-, rfl⟩ := memWrite_ok_iff.1 hwrite
    exact .completed rfl
  | error k =>
    obtain ⟨-, rfl⟩ := memWrite_error_iff.1 hwrite
    exact .raised (by decide)

theorem handlerAnswer_pushValue {w : Nat} (v : BitVec w) : HandlerAnswer u (u.pushValue v) := by
  cases hpush : u.pushValue v with
  | ok t =>
    obtain ⟨-, -, rfl⟩ := pushValue_ok_iff.1 hpush
    exact .completed rfl
  | error k =>
    obtain ⟨-, rfl⟩ | ⟨-, rfl⟩ := pushValue_error_iff.1 hpush
    · exact .raised (by decide)
    · exact .raised (by decide)

theorem handlerAnswer_popThen {w : Nat} {write : BitVec w → State → State}
    (hwrite : ∀ v t, (write v t).runState = t.runState) : HandlerAnswer u (popThen write u) := by
  obtain ⟨-, h⟩ | ⟨-, h⟩ := popThen_cases write u
  · exact h ▸ .raised (by decide)
  · exact h ▸ .completed (hwrite _ _)

theorem handlerAnswer_jumpTo (c : Condition) (target : Word) : HandlerAnswer u (jumpTo c target u) := by
  unfold jumpTo
  split
  · exact .completed rfl
  · exact .completed rfl

theorem handlerAnswer_jumpToRegister (c : Condition) (reg : XReg) : HandlerAnswer u (jumpToRegister c reg u) := by
  obtain ⟨-, h⟩ | ⟨-, h⟩ := jumpToRegister_cases c reg u
  · exact h ▸ .raised (by decide)
  · exact h ▸ handlerAnswer_jumpTo u c _

end

/-! ## What an instruction and a step can lead to -/

/-- What `HandlerAnswer` says of a handler, said of a whole step from `s`: it always has a next state, and a `raise`
gives the fault-entry state of `s` itself. -/
inductive StepOutcome (s : State) : Host.Outcome State Fault Refusal → Prop
  | completed {t : State} (keeps : t.runState = s.runState) : StepOutcome s (.next t)
  | halted {t : State} (halts : t.runState = .halted) : StepOutcome s (.next t)
  | raised {k : FaultKind} (kind : k ≠ .programTooLarge) : StepOutcome s (.next (s.raise k))

/-- The handler's answer on the advanced state is the step's outcome from the start of the step (00_scope.md R14). -/
theorem stepOutcome_runHandler {s : State} {fmt : Format} {handler : State → Except FaultKind State}
    (h : HandlerAnswer (s.advance fmt) (handler (s.advance fmt))) : StepOutcome s (runHandler fmt handler s) := by
  unfold runHandler
  generalize handler (s.advance fmt) = answer at h
  cases h with
  | completed keeps => exact .completed keeps
  | halted halts => exact .halted halts
  | raised kind => exact .raised kind

/-- Every instruction is one handler run on the advanced state; the cases are grouped by the form of the handler. -/
theorem stepOutcome_exec (i : Instr) (s : State) : StepOutcome s (exec i s) := by
  unfold exec
  cases i with
  | halt => exact stepOutcome_runHandler (.halted rfl)
  | nop | loadImmediate | loadImmediateFloat | add | sub | mul | shl | shr | addImmediate | subImmediate | mulImmediate
  | shlImmediate | shrImmediate | compare | compareFloat => exact stepOutcome_runHandler (.completed rfl)
  | push | pushFloat => exact stepOutcome_runHandler (handlerAnswer_pushValue _ _)
  | pop | popFloat => exact stepOutcome_runHandler (handlerAnswer_popThen _ fun _ _ => rfl)
  | load | loadByte | loadHalfWord => exact stepOutcome_runHandler (handlerAnswer_loadX _ _ _ _)
  | loadFloat => exact stepOutcome_runHandler (handlerAnswer_loadF _ _ _)
  | store | storeByte | storeHalfWord | storeFloat => exact stepOutcome_runHandler (handlerAnswer_memWrite _ _ _ _)
  | div | divImmediate => exact stepOutcome_runHandler (handlerAnswer_divideX _ _ _ _)
  | addFloat | subFloat | mulFloat | divFloat | addFloatImmediate | subFloatImmediate | mulFloatImmediate
  | divFloatImmediate => exact stepOutcome_runHandler (handlerAnswer_resultF _ _ _ _ _)
  | jump | jumpZero | jumpEqual | jumpLessThan | jumpGreaterThan =>
    exact stepOutcome_runHandler (handlerAnswer_jumpTo _ _ _)
  | jumpRegister | jumpRegisterZero | jumpRegisterEqual | jumpRegisterLessThan | jumpRegisterGreaterThan =>
    exact stepOutcome_runHandler (handlerAnswer_jumpToRegister _ _ _)

theorem OperandFault.ne_programTooLarge {k : FaultKind} (h : OperandFault k) : k ≠ .programTooLarge := by
  obtain rfl | rfl | rfl := h <;> decide

/-- ProgramTooLarge is `load_program`'s alone (60_exceptions.md R260). -/
theorem decode_error_ne_programTooLarge {bs : List Byte} {k : FaultKind} (h : decode bs = .error k) :
    k ≠ .programTooLarge := by
  cases bs with
  | nil => cases h; decide
  | cons b rest =>
    cases hb : Opcode.ofByte b with
    | none =>
      rw [decode_cons_of_ofByte_none hb] at h
      cases h; decide
    | some o =>
      rw [decode_cons_of_ofByte_some hb] at h
      exact OperandFault.ne_programTooLarge (operandFault_of_decodeOperands h)

theorem step_decode_ok {s : State} {i : Instr} {rest : List Byte} (hrun : s.runState = .running)
    (hpc : s.pc.toNat < Config.memorySize) (hi : decode s.fetch = .ok (i, rest)) : step s = exec i s := by
  simp only [step, hrun, ge_iff_le, Nat.not_le.2 hpc, if_false, hi]

/-- Along the branches of R110: the implicit halt, a decode fault, a decoded instruction. -/
theorem stepOutcome_step {s : State} (hrun : s.runState = .running) : StepOutcome s (step s) := by
  by_cases hpc : s.pc.toNat < Config.memorySize
  · cases hdecode : decode s.fetch with
    | error k =>
      rw [step_decode_error hrun hpc hdecode]
      exact .raised (decode_error_ne_programTooLarge hdecode)
    | ok decoded =>
      rw [step_decode_ok hrun hpc hdecode]
      exact stepOutcome_exec _ s
  · rw [step_past_memory hrun (Nat.not_lt.1 hpc)]
    exact .halted rfl

/-- Settles O19: of the outcomes of a running step only the `raise` on the state at its start is Faulted, and that is
the fault entry of R256. -/
theorem faultEntryIsPrecise : Obligations.FaultEntryIsPrecise := by
  intro s t hrun hstep hfaulted
  have houtcome : StepOutcome s (.next t) := hstep ▸ stepOutcome_step hrun
  cases houtcome with
  | completed keeps => rw [keeps, hrun] at hfaulted; cases hfaulted
  | halted halts => rw [halts] at hfaulted; cases hfaulted
  | raised kind => exact ⟨_, kind, rfl⟩

end Sys2Proof.Machine
end

section
/-! The Decoder and the encoder are inverse: each field reader reads exactly the bytes the encoder writes, so each format's
reader does, so the Decoder does; and a fault other than a truncation does not depend on the bytes after the field that
raises it (30_encoding.md R81 to R90, 40_fetch_decode_dispatch.md R112 to R120). -/

namespace Sys2Proof.Machine

/-! ## What a field reader reads (30_encoding.md R83 to R85) -/

section
variable {n : Nat} {bs rest : List Byte}

theorem takeReg_ok_iff {r : Fin n} (hn : n ≤ 256) : takeReg n bs = .ok (r, rest) ↔ bs = registerBytes r ++ rest :=
  ⟨takeReg_ok, fun h => h ▸ takeReg_registerBytes hn r rest⟩

theorem takeImmediate_ok_iff {imm : Immediate} {v : Word} :
    takeImmediate 32 imm bs = .ok (v, rest) ↔ bs = immediateBytes imm v ++ rest :=
  ⟨takeImmediate_ok (Nat.le_refl 32), fun h => h ▸ takeImmediate_immediateBytes (Nat.le_refl 32) imm v rest⟩

theorem takeAddr_ok_iff {a : Word} :
    takeAddr bs = .ok (a, rest) ↔ bs = addressBytes a ++ rest ∧ addressLegal a = true :=
  ⟨takeAddr_ok, fun ⟨hbs, hlegal⟩ => hbs ▸ takeAddr_addressBytes hlegal rest⟩

end

/-! ## What a format's reader reads (30_encoding.md R81) -/

theorem fieldThen_ok_iff {α : Type} {take : List Byte → Except FaultKind (α × List Byte)} {next : α → Reader}
    {bs : List Byte} {out : Instr × List Byte} :
    fieldThen take next bs = .ok out ↔ ∃ a mid, take bs = .ok (a, mid) ∧ next a mid = .ok out := by
  cases h : take bs with
  | error k => simp [fieldThen_error h]
  | ok p => simp [fieldThen_ok (a := p.1) (rest := p.2) h, Prod.ext_iff]

section
variable {n : Nat} {imm : Immediate} {bs rest : List Byte} {i : Instr} (hn : n ≤ 256)

theorem decodeA_ok_iff {mk : Word → Instr} :
    decodeA mk bs = .ok (i, rest) ↔ ∃ a, mk a = i ∧ bs = addressBytes a ++ rest ∧ addressLegal a = true := by
  simp only [decodeA_eq, fieldThen_ok_iff, takeAddr_ok_iff, Except.ok.injEq, Prod.mk.injEq]
  exact ⟨fun ⟨a, _, hread, hi, hrest⟩ => ⟨a, hi, hrest ▸ hread⟩, fun ⟨a, hi, hread⟩ => ⟨a, rest, hread, hi, rfl⟩⟩

include hn

theorem decodeR_ok_iff {mk : Fin n → Instr} :
    decodeR mk bs = .ok (i, rest) ↔ ∃ r, mk r = i ∧ bs = registerBytes r ++ rest := by
  simp only [decodeR_eq, fieldThen_ok_iff, takeReg_ok_iff hn, Except.ok.injEq, Prod.mk.injEq]
  exact ⟨fun ⟨r, _, hread, hi, hrest⟩ => ⟨r, hi, hrest ▸ hread⟩, fun ⟨r, hi, hread⟩ => ⟨r, rest, hread, hi, rfl⟩⟩

theorem decodeRR_ok_iff {mk : Fin n → Fin n → Instr} :
    decodeRR mk bs = .ok (i, rest) ↔ ∃ r1 r2, mk r1 r2 = i ∧ bs = registerBytes r1 ++ registerBytes r2 ++ rest := by
  simp only [decodeRR_eq, fieldThen_ok_iff, takeReg_ok_iff hn, decodeR_ok_iff hn]
  constructor
  · rintro ⟨r1, _, rfl, r2, rfl, rfl⟩
    exact ⟨r1, r2, rfl, (List.append_assoc ..).symm⟩
  · rintro ⟨r1, r2, rfl, rfl⟩
    exact ⟨r1, _, List.append_assoc .., r2, rfl, rfl⟩

theorem decodeRRR_ok_iff {mk : Fin n → Fin n → Fin n → Instr} :
    decodeRRR mk bs = .ok (i, rest) ↔
      ∃ r1 r2 r3, mk r1 r2 r3 = i ∧ bs = registerBytes r1 ++ (registerBytes r2 ++ registerBytes r3) ++ rest := by
  simp only [decodeRRR_eq, fieldThen_ok_iff, takeReg_ok_iff hn, decodeRR_ok_iff hn]
  constructor
  · rintro ⟨r1, _, rfl, r2, r3, rfl, rfl⟩
    exact ⟨r1, r2, r3, rfl, (List.append_assoc ..).symm⟩
  · rintro ⟨r1, r2, r3, rfl, rfl⟩
    exact ⟨r1, _, List.append_assoc .., r2, r3, rfl, rfl⟩

theorem decodeRA_ok_iff {mk : Fin n → Word → Instr} :
    decodeRA mk bs = .ok (i, rest) ↔
      ∃ r a, mk r a = i ∧ bs = registerBytes r ++ addressBytes a ++ rest ∧ addressLegal a = true := by
  simp only [decodeRA_eq, fieldThen_ok_iff, takeReg_ok_iff hn, decodeA_ok_iff]
  constructor
  · rintro ⟨r, _, rfl, a, rfl, rfl, hlegal⟩
    exact ⟨r, a, rfl, (List.append_assoc ..).symm, hlegal⟩
  · rintro ⟨r, a, rfl, rfl, hlegal⟩
    exact ⟨r, _, List.append_assoc .., a, rfl, rfl, hlegal⟩

theorem decodeRI_ok_iff {mk : Fin n → Word → Instr} :
    decodeRI imm mk bs = .ok (i, rest) ↔
      ∃ r v, mk r v = i ∧ bs = registerBytes r ++ immediateBytes imm v ++ rest := by
  simp only [decodeRI_eq, fieldThen_ok_iff, takeReg_ok_iff hn, takeImmediate_ok_iff, Except.ok.injEq, Prod.mk.injEq]
  constructor
  · rintro ⟨r, _, rfl, v, _, rfl, rfl, rfl⟩
    exact ⟨r, v, rfl, (List.append_assoc ..).symm⟩
  · rintro ⟨r, v, rfl, rfl⟩
    exact ⟨r, _, List.append_assoc .., v, _, rfl, rfl, rfl⟩

theorem decodeRIR_ok_iff {mk : Fin n → Word → Fin n → Instr} :
    decodeRIR imm mk bs = .ok (i, rest) ↔
      ∃ r v d, mk r v d = i ∧ bs = registerBytes r ++ (immediateBytes imm v ++ registerBytes d) ++ rest := by
  simp only [decodeRIR_eq, fieldThen_ok_iff, takeReg_ok_iff hn, takeImmediate_ok_iff, decodeR_ok_iff hn]
  constructor
  · rintro ⟨r, _, rfl, v, _, rfl, d, rfl, rfl⟩
    exact ⟨r, v, d, rfl, by simp only [List.append_assoc]⟩
  · rintro ⟨r, v, d, rfl, rfl⟩
    exact ⟨r, _, List.append_assoc .., v, _, List.append_assoc .., d, rfl, rfl⟩

end

/-! ## What the Decoder reads -/

/-- Both register files are small enough for a one-byte id (30_encoding.md R83). -/
theorem numX_le_256 : Config.numX ≤ 256 := by decide

theorem decodeOperands_operandBytes {i : Instr} (rest : List Byte) (hwf : i.wellFormed = true) :
    decodeOperands i.opcode (i.operandBytes ++ rest) = .ok (i, rest) := by
  have hn := numX_le_256
  cases i with
  | nop | halt => rfl
  | push | pop | pushFloat | popFloat | jumpRegister | jumpRegisterZero | jumpRegisterEqual | jumpRegisterLessThan
  | jumpRegisterGreaterThan => exact (decodeR_ok_iff hn).2 ⟨_, rfl, rfl⟩
  | compare | compareFloat => exact (decodeRR_ok_iff hn).2 ⟨_, _, rfl, rfl⟩
  | add | sub | mul | div | shl | shr | addFloat | subFloat | mulFloat | divFloat =>
    exact (decodeRRR_ok_iff hn).2 ⟨_, _, _, rfl, rfl⟩
  | jump | jumpZero | jumpEqual | jumpLessThan | jumpGreaterThan => exact decodeA_ok_iff.2 ⟨_, rfl, rfl, hwf⟩
  | load | store | loadByte | storeByte | loadHalfWord | storeHalfWord | loadFloat | storeFloat =>
    exact (decodeRA_ok_iff hn).2 ⟨_, _, rfl, rfl, hwf⟩
  | loadImmediate | loadImmediateFloat => exact (decodeRI_ok_iff hn).2 ⟨_, _, rfl, rfl⟩
  | addImmediate | subImmediate | mulImmediate | divImmediate | shlImmediate | shrImmediate | addFloatImmediate
  | subFloatImmediate | mulFloatImmediate | divFloatImmediate => exact (decodeRIR_ok_iff hn).2 ⟨_, _, _, rfl, rfl⟩

/-- What it means that the operands of the opcode `o` were read from `bs` as the instruction `i`. -/
structure ReadsAs (o : Opcode) (bs : List Byte) (i : Instr) (rest : List Byte) : Prop where
  opcode : i.opcode = o
  bytes : bs = i.operandBytes ++ rest
  wellFormed : i.wellFormed = true

theorem readsAs_of_decodeOperands {o : Opcode} {bs rest : List Byte} {i : Instr}
    (h : decodeOperands o bs = .ok (i, rest)) : ReadsAs o bs i rest := by
  have hn := numX_le_256
  cases o with
  | nop | halt =>
    cases h
    exact ⟨rfl, rfl, rfl⟩
  | push | pop | pushFloat | popFloat | jumpRegister | jumpRegisterZero | jumpRegisterEqual | jumpRegisterLessThan
  | jumpRegisterGreaterThan =>
    obtain ⟨r, rfl, hbs⟩ := (decodeR_ok_iff hn).1 h
    exact ⟨rfl, hbs, rfl⟩
  | compare | compareFloat =>
    obtain ⟨r1, r2, rfl, hbs⟩ := (decodeRR_ok_iff hn).1 h
    exact ⟨rfl, hbs, rfl⟩
  | add | sub | mul | div | shl | shr | addFloat | subFloat | mulFloat | divFloat =>
    obtain ⟨r1, r2, r3, rfl, hbs⟩ := (decodeRRR_ok_iff hn).1 h
    exact ⟨rfl, hbs, rfl⟩
  | jump | jumpZero | jumpEqual | jumpLessThan | jumpGreaterThan =>
    obtain ⟨a, rfl, hbs, hlegal⟩ := decodeA_ok_iff.1 h
    exact ⟨rfl, hbs, hlegal⟩
  | load | store | loadByte | storeByte | loadHalfWord | storeHalfWord | loadFloat | storeFloat =>
    obtain ⟨r, a, rfl, hbs, hlegal⟩ := (decodeRA_ok_iff hn).1 h
    exact ⟨rfl, hbs, hlegal⟩
  | loadImmediate | loadImmediateFloat =>
    obtain ⟨r, v, rfl, hbs⟩ := (decodeRI_ok_iff hn).1 h
    exact ⟨rfl, hbs, rfl⟩
  | addImmediate | subImmediate | mulImmediate | divImmediate | shlImmediate | shrImmediate | addFloatImmediate
  | subFloatImmediate | mulFloatImmediate | divFloatImmediate =>
    obtain ⟨r, v, d, rfl, hbs⟩ := (decodeRIR_ok_iff hn).1 h
    exact ⟨rfl, hbs, rfl⟩

/-- Settles O3: the opcode byte names the opcode, and its format reads back the operand bytes. -/
theorem decodeOfEncodeIsTheInstruction : Obligations.DecodeOfEncodeIsTheInstruction := fun i rest hwf => by
  rw [encode, List.cons_append, decode_cons_of_ofByte_some (ofByte_byte i.opcode)]
  exact decodeOperands_operandBytes rest hwf

/-- Settles O4: the first byte is that of the opcode it names, and what its format read is the operand bytes. -/
theorem decodedBytesAreTheEncoding : Obligations.DecodedBytesAreTheEncoding := by
  intro bs rest i h
  cases bs with
  | nil => cases h
  | cons b operands =>
    cases hb : Opcode.ofByte b with
    | none =>
      rw [decode_cons_of_ofByte_none hb] at h
      cases h
    | some o =>
      rw [decode_cons_of_ofByte_some hb] at h
      obtain ⟨hopcode, rfl, hwf⟩ := readsAs_of_decodeOperands h
      rw [encode, hopcode, byte_of_ofByte hb]
      exact ⟨rfl, hwf⟩

/-- Settles O9: each line is O3 at the instruction, whose encoding computes to the bytes of the line. -/
theorem workedEncodingsDecode : Obligations.WorkedEncodingsDecode :=
  have hdecode (i : Instr) (hwf : i.wellFormed = true) := decodeOfEncodeIsTheInstruction i [] hwf
  ⟨hdecode (.loadImmediate 1 5) rfl, hdecode (.add 1 2 1) rfl, hdecode (.store 1 0xFF) (by decide),
    hdecode (.subImmediate 1 1 1) rfl, hdecode (.jump 0x1234) (by decide), hdecode (.compare 1 3) rfl⟩

/-! ## The faults of the Decoder (40_fetch_decode_dispatch.md R112 to R120) -/

theorem decode_error_cases {bs : List Byte} {k : FaultKind} (h : decode bs = .error k) :
    k = .invalidOpcode ∨ OperandFault k := by
  cases bs with
  | nil =>
    cases h
    exact .inr (.inl rfl)
  | cons b operands =>
    cases hb : Opcode.ofByte b with
    | none =>
      rw [decode_cons_of_ofByte_none hb] at h
      cases h
      exact .inl rfl
    | some o =>
      rw [decode_cons_of_ofByte_some hb] at h
      exact .inr (operandFault_of_decodeOperands h)

/-- Settles O5: InvalidOpcode is the opcode byte's, the other three are the operand fields'. -/
theorem decodeYieldsOnlyFourFaults : Obligations.DecodeYieldsOnlyFourFaults := by
  intro bs k h
  obtain hopcode | htruncated | hreg | haddr := decode_error_cases h
  · exact .inl hopcode
  · exact .inr (.inr (.inr htruncated))
  · exact .inr (.inl hreg)
  · exact .inr (.inr (.inl haddr))

/-! ## A cut-off instruction (40_fetch_decode_dispatch.md R113)

A reader that was not short of bytes gives the same answer when more bytes follow, so a cut-off encoding, which decodes to
its instruction once the missing bytes follow, can only have been short of bytes. -/

/-- More bytes at the end leave a fault other than a truncation as it is. -/
def FaultsEarly {α : Type} (rd : List Byte → Except FaultKind α) : Prop :=
  ∀ bs more k, rd bs = .error k → k ≠ .truncatedInstruction → rd (bs ++ more) = .error k

/-- A field is read from its own bytes, so what follows is only handed on. -/
def ReadsFront {α : Type} (take : List Byte → Except FaultKind (α × List Byte)) : Prop :=
  ∀ bs rest more a, take bs = .ok (a, rest) → take (bs ++ more) = .ok (a, rest ++ more)

theorem readsFront_takeReg {n : Nat} (hn : n ≤ 256) : ReadsFront (takeReg n) := by
  intro bs rest more r h
  rw [takeReg_ok_iff hn] at h ⊢
  rw [h, List.append_assoc]

theorem readsFront_takeAddr : ReadsFront takeAddr := by
  intro bs rest more a h
  rw [takeAddr_ok_iff] at h ⊢
  exact ⟨by rw [h.1, List.append_assoc], h.2⟩

theorem readsFront_takeImmediate (imm : Immediate) : ReadsFront (takeImmediate 32 imm) := by
  intro bs rest more v h
  rw [takeImmediate_ok_iff] at h ⊢
  rw [h, List.append_assoc]

theorem faultsEarly_takeReg (n : Nat) : FaultsEarly (takeReg n) := by
  intro bs more k h hk
  cases bs with
  | nil =>
    cases h
    exact absurd rfl hk
  | cons b rest =>
    rw [List.cons_append, takeReg_cons]
    rw [takeReg_cons] at h
    split at h
    · cases h
    · next hbad => rw [dif_neg hbad, h]

theorem faultsEarly_takeImmediate (w : Nat) (imm : Immediate) : FaultsEarly (takeImmediate w imm) :=
  fun _ _ _ h hk => absurd (takeImmediate_error h) hk

/-- Four bytes are an address field, whatever follows them. -/
theorem faultsEarly_takeAddr : FaultsEarly takeAddr := by
  intro bs more k h hk
  rcases Nat.lt_or_ge bs.length 4 with hcut | hlong
  · rw [takeAddr_short hcut] at h
    cases h
    exact absurd rfl hk
  · have hfield (tail : List Byte) : takeField 4 (bs ++ tail) = .ok (leValue (bs.take 4), bs.drop 4 ++ tail) := by
      rw [takeField, if_neg (by rw [List.length_append]; omega), List.take_append_of_le_length hlong,
        List.drop_append_of_le_length hlong]
    have hbs := hfield []
    rw [List.append_nil, List.append_nil] at hbs
    simp only [takeAddr, Config.addressWidth, hbs, hfield] at h ⊢
    split at h
    · cases h
    · next hbad => rw [if_neg hbad, h]

theorem FaultsEarly.fieldThen {α : Type} {take : List Byte → Except FaultKind (α × List Byte)} {next : α → Reader}
    (hfront : ReadsFront take) (hearly : FaultsEarly take) (hnext : ∀ a, FaultsEarly (next a)) :
    FaultsEarly (fieldThen take next) := by
  intro bs more k h hk
  cases htake : take bs with
  | error j =>
    rw [fieldThen_error htake] at h
    cases h
    exact fieldThen_error (hearly bs more _ htake hk)
  | ok p =>
    rw [fieldThen_ok (a := p.1) (rest := p.2) htake] at h
    rw [fieldThen_ok (hfront bs p.2 more p.1 htake)]
    exact hnext p.1 p.2 more k h hk

section
variable {n : Nat} {imm : Immediate}

theorem faultsEarly_ok (f : List Byte → Instr × List Byte) : FaultsEarly fun bs => .ok (f bs) :=
  fun _ _ _ h => nomatch h

theorem faultsEarly_decodeA (mk : Word → Instr) : FaultsEarly (decodeA mk) :=
  decodeA_eq mk ▸ .fieldThen readsFront_takeAddr faultsEarly_takeAddr fun _ => faultsEarly_ok _

variable (hn : n ≤ 256)
include hn

theorem FaultsEarly.register {next : Fin n → Reader} (hnext : ∀ r, FaultsEarly (next r)) :
    FaultsEarly (Machine.fieldThen (takeReg n) next) :=
  .fieldThen (readsFront_takeReg hn) (faultsEarly_takeReg n) hnext

theorem faultsEarly_decodeR (mk : Fin n → Instr) : FaultsEarly (decodeR mk) :=
  decodeR_eq mk ▸ .register hn fun _ => faultsEarly_ok _

theorem faultsEarly_decodeRR (mk : Fin n → Fin n → Instr) : FaultsEarly (decodeRR mk) :=
  decodeRR_eq mk ▸ .register hn fun r => faultsEarly_decodeR hn (mk r)

theorem faultsEarly_decodeRRR (mk : Fin n → Fin n → Fin n → Instr) : FaultsEarly (decodeRRR mk) :=
  decodeRRR_eq mk ▸ .register hn fun r => faultsEarly_decodeRR hn (mk r)

theorem faultsEarly_decodeRA (mk : Fin n → Word → Instr) : FaultsEarly (decodeRA mk) :=
  decodeRA_eq mk ▸ .register hn fun r => faultsEarly_decodeA (mk r)

theorem faultsEarly_decodeRI (mk : Fin n → Word → Instr) : FaultsEarly (decodeRI imm mk) :=
  decodeRI_eq imm mk ▸ .register hn fun _ =>
    .fieldThen (readsFront_takeImmediate imm) (faultsEarly_takeImmediate 32 imm) fun _ => faultsEarly_ok _

theorem faultsEarly_decodeRIR (mk : Fin n → Word → Fin n → Instr) : FaultsEarly (decodeRIR imm mk) :=
  decodeRIR_eq imm mk ▸ .register hn fun r =>
    .fieldThen (readsFront_takeImmediate imm) (faultsEarly_takeImmediate 32 imm) fun v => faultsEarly_decodeR hn (mk r v)

end

theorem faultsEarly_decodeOperands (o : Opcode) : FaultsEarly (decodeOperands o) := by
  have hn := numX_le_256
  cases o with
  | nop | halt => exact faultsEarly_ok _
  | push | pop | pushFloat | popFloat | jumpRegister | jumpRegisterZero | jumpRegisterEqual | jumpRegisterLessThan
  | jumpRegisterGreaterThan => exact faultsEarly_decodeR hn _
  | compare | compareFloat => exact faultsEarly_decodeRR hn _
  | add | sub | mul | div | shl | shr | addFloat | subFloat | mulFloat | divFloat => exact faultsEarly_decodeRRR hn _
  | jump | jumpZero | jumpEqual | jumpLessThan | jumpGreaterThan => exact faultsEarly_decodeA _
  | load | store | loadByte | storeByte | loadHalfWord | storeHalfWord | loadFloat | storeFloat =>
    exact faultsEarly_decodeRA hn _
  | loadImmediate | loadImmediateFloat => exact faultsEarly_decodeRI hn _
  | addImmediate | subImmediate | mulImmediate | divImmediate | shlImmediate | shrImmediate | addFloatImmediate
  | subFloatImmediate | mulFloatImmediate | divFloatImmediate => exact faultsEarly_decodeRIR hn _

theorem faultsEarly_decode : FaultsEarly decode := by
  intro bs more k h hk
  cases bs with
  | nil =>
    cases h
    exact absurd rfl hk
  | cons b operands =>
    rw [List.cons_append]
    cases hb : Opcode.ofByte b with
    | none =>
      rw [decode_cons_of_ofByte_none hb] at h ⊢
      exact h
    | some o =>
      rw [decode_cons_of_ofByte_some hb] at h ⊢
      exact faultsEarly_decodeOperands o operands more k h hk

/-- By O3 and O4 the bytes read decide the instruction, so it does not depend on what follows. -/
theorem readsFront_decode : ReadsFront decode := by
  intro bs rest more i h
  obtain ⟨rfl, hwf⟩ := decodedBytesAreTheEncoding bs rest i h
  rw [List.append_assoc]
  exact decodeOfEncodeIsTheInstruction i (rest ++ more) hwf

/-- Settles O8: were the answer on the cut-off bytes anything but a truncation, it would stand with the missing bytes put
back, where by O3 the instruction is decoded and nothing is left over. -/
theorem cutOffInstructionIsTruncated : Obligations.CutOffInstructionIsTruncated := by
  intro i n hwf _ hcut
  have hwhole : decode ((encode i).take n ++ (encode i).drop n) = .ok (i, []) := by
    rw [List.take_append_drop, ← List.append_nil (encode i)]
    exact decodeOfEncodeIsTheInstruction i [] hwf
  cases hdecode : decode ((encode i).take n) with
  | ok p =>
    rw [readsFront_decode _ p.2 _ p.1 hdecode] at hwhole
    have hleft : p.2 ++ (encode i).drop n = [] := congrArg Prod.snd (Except.ok.inj hwhole)
    exact absurd (List.drop_eq_nil_iff.1 (List.append_eq_nil_iff.1 hleft).2) (Nat.not_le.2 hcut)
  | error k =>
    by_contra hk
    rw [faultsEarly_decode _ _ k hdecode fun heq => hk (heq ▸ rfl)] at hwhole
    cases hwhole

end Sys2Proof.Machine
end

section
/-! The step at pc: the Decoder is given there the bytes from pc on, at most seven and as many as lie inside memory, so the
facts about `decode` say what a running step does (40_fetch_decode_dispatch.md R110 to R121). -/

namespace Sys2Proof.Machine

/-! ## What is fetched (40_fetch_decode_dispatch.md R113, 30_encoding.md R92) -/

theorem length_encode (i : Instr) : (encode i).length = i.opcode.format.length := by
  cases i <;> rfl

theorem format_length_le (fmt : Format) : fmt.length ≤ 7 := by
  cases fmt with
  | n | r | rr | rrr | a | ra => decide
  | ri imm | rir imm => simp [Format.length, immediate_width]

theorem length_encode_le (i : Instr) : (encode i).length ≤ 7 := length_encode i ▸ format_length_le _

theorem length_fetch (s : State) : s.fetch.length = min 7 (Config.memorySize - s.pc.toNat) :=
  Memory.readBytes_length ..

theorem getElem_fetch (s : State) (k : Nat) (h : k < s.fetch.length) : s.fetch[k] = s.readByte (s.pc.toNat + k) :=
  Memory.readBytes_getElem ..

/-- Bytes that stand in memory from pc on are the front of what is fetched, as far as that goes. -/
theorem take_fetch {s : State} {bs : List Byte} {n : Nat} (hn : n ≤ bs.length) (hfetch : n ≤ s.fetch.length)
    (h : ∀ (k : Nat) (hk : k < bs.length), k < n → s.readByte (s.pc.toNat + k) = bs[k]) :
    s.fetch.take n = bs.take n := by
  refine List.ext_getElem (by rw [List.length_take, List.length_take, Nat.min_eq_left hn, Nat.min_eq_left hfetch])
    fun k hk _ => ?_
  have hkn : k < n := (List.length_take ▸ hk).trans_le (Nat.min_le_left ..)
  rw [List.getElem_take, List.getElem_take, getElem_fetch]
  exact h k (hkn.trans_le hn) hkn

/-! ## The branches of R110 -/

/-- Settles O10: the third branch of `Step()`. -/
theorem stepRunsTheDecodedInstruction : Obligations.StepRunsTheDecodedInstruction :=
  fun _ _ _ => step_decode_ok

/-- Settles O17: the two values of `run_state` in which `Step()` is not enabled. -/
theorem stoppedMachineTakesNoStep : Obligations.StoppedMachineTakesNoStep := fun s =>
  ⟨fun hhalted => by rw [step, hhalted], fun hfaulted => by rw [step, hfaulted]⟩

theorem running_of_step {s t : State} (h : step s = .next t) : s.runState = .running := by
  cases hrun : s.runState with
  | running => rfl
  | halted => rw [(stoppedMachineTakesNoStep s).1 hrun] at h; cases h
  | faulted => rw [(stoppedMachineTakesNoStep s).2 hrun] at h; cases h

/-- Settles O16: every outcome of a running step is a next state. -/
theorem runningStepHasANextState : Obligations.RunningStepHasANextState := by
  intro s hrun
  have houtcome := stepOutcome_step hrun
  generalize step s = o at houtcome ⊢
  cases houtcome with
  | completed | halted | raised => exact ⟨_, rfl⟩

/-! ## An instruction at pc -/

/-- Settles O11: the fetch is the encoding and some bytes after it, which decode to the instruction (O3). -/
theorem stepRunsTheBytesAtPc : Obligations.StepRunsTheBytesAtPc := by
  intro s i hrun hwf hfits hbytes
  have hlong : (encode i).length ≤ s.fetch.length := by
    rw [length_fetch]
    exact Nat.le_min.2 ⟨length_encode_le i, Nat.le_sub_of_add_le' hfits⟩
  have hfront : s.fetch.take (encode i).length = encode i := by
    rw [take_fetch (Nat.le_refl _) hlong fun k hk _ => hbytes k hk, List.take_length]
  have hpc : s.pc.toNat < Config.memorySize := (Nat.lt_add_of_pos_right (Nat.succ_pos _)).trans_le hfits
  refine step_decode_ok (rest := s.fetch.drop (encode i).length) hrun hpc ?_
  conv_lhs => rw [← List.take_append_drop (encode i).length s.fetch, hfront]
  exact decodeOfEncodeIsTheInstruction i _ hwf

/-- Settles O14: the fetch is the encoding cut off at the end of memory, which is a truncation (O8). -/
theorem instructionPastMemoryIsTruncated : Obligations.InstructionPastMemoryIsTruncated := by
  intro s i hrun hwf hpc hpast hbytes
  have hcut : s.fetch.length < (encode i).length := by
    rw [length_fetch]
    exact (Nat.min_le_right ..).trans_lt (Nat.sub_lt_left_of_lt_add hpc.le hpast)
  have hinside : s.fetch.length ≤ Config.memorySize - s.pc.toNat := length_fetch s ▸ Nat.min_le_right ..
  have hfront : s.fetch = (encode i).take s.fetch.length := by
    rw [← take_fetch hcut.le (Nat.le_refl _) fun k hk hlt => hbytes k hk (by omega), List.take_length]
  have hpos : 0 < s.fetch.length := by
    obtain ⟨rest, hcons⟩ := fetch_eq_cons hpc
    rw [hcons]
    exact Nat.succ_pos _
  exact step_decode_error hrun hpc (hfront ▸ cutOffInstructionIsTruncated i _ hwf hpos hcut)

/-- Settles O15: the fetch, which ends with memory, begins with the whole encoding (O4); the sum is far below 2^32. -/
theorem decodedInstructionLiesInMemory : Obligations.DecodedInstructionLiesInMemory := by
  intro s i rest hpc hdecode
  obtain ⟨hfetch, -⟩ := decodedBytesAreTheEncoding _ _ _ hdecode
  have hlength : (encode i).length + rest.length = min 7 (Config.memorySize - s.pc.toNat) := by
    rw [← length_fetch, hfetch, List.length_append]
  have hfits : s.pc.toNat + (encode i).length ≤ Config.memorySize := by omega
  refine ⟨hfits, ?_⟩
  rw [BitVec.toNat_add, BitVec.toNat_ofNat, Nat.add_mod_mod]
  exact Nat.mod_eq_of_lt (hfits.trans_lt (by decide))

end Sys2Proof.Machine
end

section
/-! What an instruction may change: the registers, bytes and `run_state` that its operands name are collected once, every
handler is shown to write nothing else, and the frame statements and the invariant are read off that (10_state.md R25, R34,
20_memory.md R53, 60_exceptions.md R256, R259, R260). -/

namespace Sys2Proof.Machine

/-! ## Permission to write -/

/-- What a step may write: integer registers, float registers, bytes of memory, `run_state`. -/
structure Permission where
  x : XReg → Prop
  f : FReg → Prop
  byte : Nat → Prop
  run : Prop

/-- `t` is `s` after writes inside `p`. No instruction that completes writes `fault_cause`, and all keep the memory's
canonical form. -/
structure WritesWithin (p : Permission) (s t : State) : Prop where
  x : ∀ r, ¬p.x r → t.readX r = s.readX r
  f : ∀ r, ¬p.f r → t.readF r = s.readF r
  byte : ∀ b, ¬p.byte b → t.readByte b = s.readByte b
  run : ¬p.run → t.runState = s.runState
  cause : t.faultCause = s.faultCause
  wf : s.mem.wf = true → t.mem.wf = true

section
variable {p : Permission} {s u : State}

theorem WritesWithin.refl (p : Permission) (s : State) : WritesWithin p s s :=
  ⟨fun _ _ => rfl, fun _ _ => rfl, fun _ _ => rfl, fun _ => rfl, rfl, id⟩

variable (h : WritesWithin p s u)
include h

theorem WritesWithin.writeX {r : XReg} (hr : p.x r) (v : Word) : WritesWithin p s (u.writeX r v) :=
  { h with
    x := fun q hq => by
      have hne : q ≠ r := by
        rintro rfl
        exact hq hr
      rw [readX_writeX_ne _ _ hne, h.x q hq] }

theorem WritesWithin.writeF {r : FReg} (hr : p.f r) (v : FloatPattern) : WritesWithin p s (u.writeF r v) :=
  { h with
    f := fun q hq => by
      have hne : q ≠ r := by
        rintro rfl
        exact hq hr
      rw [readF_writeF_ne _ _ hne, h.f q hq] }

theorem WritesWithin.writeBytes {a : Nat} {bs : List Byte} (hbytes : ∀ b, a ≤ b → b < a + bs.length → p.byte b)
    (hfits : a + bs.length ≤ Config.memorySize) : WritesWithin p s (u.withMem (u.mem.writeBytes a bs)) :=
  { h with
    byte := fun b hb => by
      have houtside : b < a ∨ a + bs.length ≤ b := by
        by_contra hinside
        exact hb (hbytes b (by omega) (by omega))
      rw [readByte_withMem, Memory.get_writeBytes_outside _ _ houtside]
      exact h.byte b hb
    wf := fun hwf => Memory.wf_writeBytes bs (h.wf hwf) hfits }

/-- The draw counter is the model's own (log entry 4), so a draw is no write of the spec's state. -/
theorem WritesWithin.countDraw : WritesWithin p s u.countDraw := ⟨h.x, h.f, h.byte, h.run, h.cause, h.wf⟩

theorem WritesWithin.haltRun (hrun : p.run) : WritesWithin p s u.haltRun :=
  { h with run := fun hnot => absurd hrun hnot }

end

/-! ## Handlers -/

/-- A handler's answer, where it completes, comes from `s` by writes inside `p`. -/
def AnswerWithin (p : Permission) (s : State) (answer : Except FaultKind State) : Prop :=
  ∀ t, answer = .ok t → WritesWithin p s t

theorem WritesWithin.answer {p : Permission} {s t : State} (h : WritesWithin p s t) : AnswerWithin p s (.ok t) :=
  fun _ ht => Except.ok.inj ht ▸ h

theorem answerWithin_error {p : Permission} {s : State} {k : FaultKind} : AnswerWithin p s (.error k) :=
  fun _ ht => nomatch ht

section
variable {p : Permission} {s u : State}

theorem answerWithin_loadThen {write : Word → State → State} (hwrite : ∀ v, WritesWithin p s (write v u)) (n : Nat)
    (addr : Word) : AnswerWithin p s (loadThen n addr write u) := by
  unfold loadThen
  cases u.memRead (w := 32) addr n with
  | ok v => exact (hwrite v).answer
  | error k => exact answerWithin_error

variable (h : WritesWithin p s u)
include h

theorem answerWithin_divideX {dst : XReg} (hdst : p.x dst) (a b : Word) : AnswerWithin p s (divideX a b dst u) := by
  obtain ⟨-, hdiv⟩ | ⟨-, hdiv⟩ := divideX_cases a b dst u
  · exact hdiv ▸ answerWithin_error
  · exact hdiv ▸ (h.writeX hdst _).answer

theorem answerWithin_resultF {dst : FReg} (hdst : p.f dst) (op : FloatOp) (a b : FloatPattern) :
    AnswerWithin p s (resultF op a b dst u) := by
  obtain ⟨v, -, hresult⟩ | ⟨-, hresult⟩ := resultF_cases op a b dst u
  · exact hresult ▸ (h.writeF hdst v).answer
  · exact hresult ▸ (h.writeF hdst _).countDraw.answer

theorem answerWithin_loadX {dst : XReg} (hdst : p.x dst) (n : Nat) (addr : Word) :
    AnswerWithin p s (loadX n dst addr u) :=
  loadX_eq n dst addr ▸ answerWithin_loadThen (h.writeX hdst) n addr

theorem answerWithin_loadF {dst : FReg} (hdst : p.f dst) (addr : Word) : AnswerWithin p s (loadF dst addr u) :=
  loadF_eq dst addr ▸ answerWithin_loadThen (h.writeF hdst) 4 addr

theorem answerWithin_memWrite {w n : Nat} {addr : Word} (v : BitVec w)
    (hbytes : ∀ b, addr.toNat ≤ b → b < addr.toNat + n → p.byte b) : AnswerWithin p s (u.memWrite addr n v) := by
  intro t ht
  obtain ⟨hfits, rfl⟩ := memWrite_ok_iff.1 ht
  rw [← leBytes_length n v.toNat] at hbytes hfits
  exact h.writeBytes hbytes hfits

theorem answerWithin_pushValue {w : Nat} (hsp : p.x Config.spId) (v : BitVec w)
    (hbytes : ∀ b, u.sp.toNat ≤ b → b < u.sp.toNat + 4 → p.byte b) : AnswerWithin p s (u.pushValue v) := by
  intro t ht
  obtain ⟨-, hfits, rfl⟩ := pushValue_ok_iff.1 ht
  exact (answerWithin_memWrite h v hbytes _ (memWrite_ok_iff.2 ⟨hfits, rfl⟩)).writeX hsp _

theorem answerWithin_popThen {w : Nat} {write : BitVec w → State → State} (hsp : p.x Config.spId)
    (hwrite : ∀ v t, WritesWithin p s t → WritesWithin p s (write v t)) : AnswerWithin p s (popThen write u) := by
  obtain ⟨-, hpop⟩ | ⟨-, hpop⟩ := popThen_cases write u
  · exact hpop ▸ answerWithin_error
  · exact hpop ▸ (hwrite _ _ (h.writeX hsp _)).answer

variable (hpc : p.x Config.pcId)
include hpc

theorem answerWithin_jumpTo (c : Condition) (target : Word) : AnswerWithin p s (jumpTo c target u) := by
  unfold jumpTo
  split
  · exact (h.writeX hpc target).answer
  · exact h.answer

theorem answerWithin_jumpToRegister (c : Condition) (reg : XReg) : AnswerWithin p s (jumpToRegister c reg u) := by
  obtain ⟨-, hjump⟩ | ⟨-, hjump⟩ := jumpToRegister_cases c reg u
  · exact hjump ▸ answerWithin_error
  · exact hjump ▸ answerWithin_jumpTo h hpc c _

end

/-! ## Instructions -/

/-- What the instruction `i` may write from `s`: the pc, its destination and implicit register, its float destination, the
bytes it stores to, and `run_state` for HALT alone. -/
def permission (s : State) (i : Instr) : Permission where
  x r := r = Config.pcId ∨ destinationX i = some r ∨ implicitX i = some r
  f r := destinationF i = some r
  byte b := ∃ a n, storeTarget s i = some (a, n) ∧ a ≤ b ∧ b < a + n
  run := i = .halt

/-- What an instruction leads to: writes inside its permission, or fault entry. -/
inductive ExecOutcome (p : Permission) (s : State) : Host.Outcome State Fault Refusal → Prop
  | completed {t : State} (writes : WritesWithin p s t) : ExecOutcome p s (.next t)
  | raised (k : FaultKind) : ExecOutcome p s (.next (s.raise k))

theorem execOutcome_runHandler {p : Permission} {s : State} {fmt : Format} {handler : State → Except FaultKind State}
    (h : AnswerWithin p s (handler (s.advance fmt))) : ExecOutcome p s (runHandler fmt handler s) := by
  obtain ⟨t, hanswer, hrun⟩ | ⟨k, -, hrun⟩ := runHandler_cases fmt handler s
  · exact hrun ▸ .completed (h t hanswer)
  · exact hrun ▸ .raised k

/-- Every instruction is one handler on the advanced state; the cases are grouped by the form of the handler, and each asks
that the registers and bytes its form writes are those the instruction names. -/
theorem execOutcome_exec (i : Instr) (s : State) : ExecOutcome (permission s i) s (exec i s) := by
  have hpc : (permission s i).x Config.pcId := .inl rfl
  have hadv (fmt : Format) : WritesWithin (permission s i) s (s.advance fmt) := (WritesWithin.refl _ s).writeX hpc _
  have hsp (fmt : Format) : (s.advance fmt).sp.toNat = s.sp.toNat := by rw [sp_advance]
  unfold exec
  cases i with
  | nop => exact execOutcome_runHandler (hadv _).answer
  | halt => exact execOutcome_runHandler ((hadv _).haltRun rfl).answer
  | loadImmediate | add | sub | mul | shl | shr | addImmediate | subImmediate | mulImmediate | shlImmediate
  | shrImmediate => exact execOutcome_runHandler ((hadv _).writeX (.inr (.inl rfl)) _).answer
  | loadImmediateFloat => exact execOutcome_runHandler ((hadv _).writeF rfl _).answer
  | compare | compareFloat => exact execOutcome_runHandler ((hadv _).writeX (.inr (.inr rfl)) _).answer
  | push | pushFloat =>
    exact execOutcome_runHandler (answerWithin_pushValue (hadv _) (.inr (.inr rfl)) _ fun b hlo hhi =>
      ⟨_, _, rfl, hsp .r ▸ hlo, hsp .r ▸ hhi⟩)
  | pop => exact execOutcome_runHandler (answerWithin_popThen (hadv _) (.inr (.inr rfl)) fun v _ h =>
      h.writeX (.inr (.inl rfl)) v)
  | popFloat => exact execOutcome_runHandler (answerWithin_popThen (hadv _) (.inr (.inr rfl)) fun v _ h => h.writeF rfl v)
  | load | loadByte | loadHalfWord =>
    exact execOutcome_runHandler (answerWithin_loadX (hadv _) (.inr (.inl rfl)) _ _)
  | loadFloat => exact execOutcome_runHandler (answerWithin_loadF (hadv _) rfl _)
  | store | storeByte | storeHalfWord | storeFloat =>
    exact execOutcome_runHandler (answerWithin_memWrite (hadv _) _ fun b hlo hhi => ⟨_, _, rfl, hlo, hhi⟩)
  | div | divImmediate => exact execOutcome_runHandler (answerWithin_divideX (hadv _) (.inr (.inl rfl)) _ _)
  | addFloat | subFloat | mulFloat | divFloat | addFloatImmediate | subFloatImmediate | mulFloatImmediate
  | divFloatImmediate => exact execOutcome_runHandler (answerWithin_resultF (hadv _) rfl _ _ _)
  | jump | jumpZero | jumpEqual | jumpLessThan | jumpGreaterThan =>
    exact execOutcome_runHandler (answerWithin_jumpTo (hadv _) hpc _ _)
  | jumpRegister | jumpRegisterZero | jumpRegisterEqual | jumpRegisterLessThan | jumpRegisterGreaterThan =>
    exact execOutcome_runHandler (answerWithin_jumpToRegister (hadv _) hpc _ _)

theorem exec_cases {i : Instr} {s t : State} (h : exec i s = .next t) :
    WritesWithin (permission s i) s t ∨ ∃ k, t = s.raise k := by
  have houtcome : ExecOutcome (permission s i) s (.next t) := h ▸ execOutcome_exec i s
  cases houtcome with
  | completed writes => exact .inl writes
  | raised k => exact .inr ⟨k, rfl⟩

/-- Settles O21: a completed instruction writes inside its permission, and fault entry writes no register. -/
theorem registersChangeOnlyWhereNamed : Obligations.RegistersChangeOnlyWhereNamed := by
  intro i s t h
  obtain hwrites | ⟨k, rfl⟩ := exec_cases h
  · exact ⟨fun r hpc hdst himpl => hwrites.x r (by simp [permission, hpc, hdst, himpl]), hwrites.f⟩
  · exact ⟨fun r _ _ _ => readX_raise s k r, fun r _ => readF_raise s k r⟩

/-- Settles O22: likewise for the bytes. -/
theorem memoryChangesOnlyWhereStored : Obligations.MemoryChangesOnlyWhereStored := by
  intro i s t h
  obtain hwrites | ⟨k, rfl⟩ := exec_cases h
  · refine ⟨fun hnone b => hwrites.byte b ?_, fun a n htarget b hb => hwrites.byte b ?_⟩
    · simp [permission, hnone]
    · rintro ⟨_, _, hsome, hlo, hhi⟩
      cases htarget.symm.trans hsome
      omega
  · exact ⟨fun _ b => readByte_raise s k b, fun _ _ _ b _ => readByte_raise s k b⟩

/-! ## The flags word (10_state.md R31, R32) -/

/-- The instructions that write the flags word without naming it leave its bits from 3 on (46_compare.md R220, R221). -/
theorem testFlag_of_implicit_flags {i : Instr} {s t : State} (h : exec i s = .next t)
    (himplicit : implicitX i = some Config.flagsId) {j : Nat} (hj : 3 ≤ j) :
    testFlag t.flags j = testFlag s.flags j := by
  cases i with
  | compare reg1 reg2 =>
    obtain ⟨-, u, hexec, hwrites, -⟩ := compareEffect.2 s reg1 reg2
    obtain rfl : u = t := Host.Outcome.next.inj (hexec.symm.trans h)
    exact hwrites.bits j (by omega)
  | compareFloat reg1 reg2 =>
    obtain ⟨-, u, hexec, hwrites, -⟩ := compareFloatEffect.2 s reg1 reg2
    obtain rfl : u = t := Host.Outcome.next.inj (hexec.symm.trans h)
    exact hwrites.bits j hj
  | push | pop | pushFloat | popFloat => exact absurd (Option.some.inj himplicit) (by decide)
  | _ => cases himplicit

/-- Settles O23: apart from the two compares the flags word is a register like any other (O21), and those keep its bits
from 3 on. -/
theorem flagsChangeOnlyByCompareOrDestination : Obligations.FlagsChangeOnlyByCompareOrDestination := by
  intro i s t h hdst
  have hkept : implicitX i ≠ some Config.flagsId → t.flags = s.flags :=
    (registersChangeOnlyWhereNamed i s t h).1 Config.flagsId (by decide) hdst
  refine ⟨fun j hj => ?_, hkept⟩
  by_cases himplicit : implicitX i = some Config.flagsId
  · exact testFlag_of_implicit_flags h himplicit hj
  · rw [hkept himplicit]

/-! ## The end of a run and the invariant (40_fetch_decode_dispatch.md R121, 60_exceptions.md R256) -/

/-- Everything a step can be: the implicit halt, fault entry, or a decoded instruction that completes. -/
theorem step_cases {s t : State} (h : step s = .next t) :
    (Config.memorySize ≤ s.pc.toNat ∧ t = s.haltRun) ∨ (∃ k, t = s.raise k) ∨
      ∃ i rest, decode s.fetch = .ok (i, rest) ∧ WritesWithin (permission s i) s t := by
  have hrun := running_of_step h
  rcases Nat.lt_or_ge s.pc.toNat Config.memorySize with hpc | hpc
  · cases hdecode : decode s.fetch with
    | error k =>
      rw [step_decode_error hrun hpc hdecode] at h
      exact .inr (.inl ⟨k, (Host.Outcome.next.inj h).symm⟩)
    | ok p =>
      rw [step_decode_ok hrun hpc hdecode] at h
      obtain hwrites | hraised := exec_cases h
      · exact .inr (.inr ⟨p.1, p.2, rfl, hwrites⟩)
      · exact .inr (.inl hraised)
  · rw [step_past_memory hrun hpc] at h
    exact .inl ⟨hpc, (Host.Outcome.next.inj h).symm⟩

/-- Settles O18: of the instructions HALT alone may write `run_state`. -/
theorem onlyHaltAndMemoryEndHalt : Obligations.OnlyHaltAndMemoryEndHalt := by
  intro s t hrun h hhalted
  obtain ⟨hpc, -⟩ | ⟨k, rfl⟩ | ⟨i, rest, hdecode, hwrites⟩ := step_cases h
  · exact .inl hpc
  · cases hhalted
  · by_cases hi : i = .halt
    · exact .inr ⟨rest, hi ▸ hdecode⟩
    · rw [hwrites.run hi, hrun] at hhalted
      cases hhalted

/-- A step that does not fault keeps `fault_cause` and the memory's canonical form. -/
theorem kept_of_step {s t : State} (h : step s = .next t) (hfaulted : t.runState ≠ .faulted) :
    t.faultCause = s.faultCause ∧ (s.mem.wf = true → t.mem.wf = true) := by
  obtain ⟨-, rfl⟩ | ⟨k, rfl⟩ | ⟨i, rest, -, hwrites⟩ := step_cases h
  · exact ⟨rfl, id⟩
  · exact absurd rfl hfaulted
  · exact ⟨hwrites.cause, hwrites.wf⟩

theorem Inv.faultCause_none {s : State} (h : Inv s) (hrun : s.runState ≠ .faulted) : s.faultCause = none := by
  by_contra hcause
  exact hrun (h.cause.1 hcause)

/-- A state that is not Faulted meets the invariant when it has no cause. -/
theorem inv_of_not_faulted {s : State} (hwf : s.mem.wf = true) (hcause : s.faultCause = none)
    (hrun : s.runState ≠ .faulted) : Inv s where
  memory := hwf
  cause := iff_of_false (fun hne => hne hcause) hrun
  notHostOnly := hcause ▸ nofun

/-- Settles O20: a step from a state that meets the invariant starts without a cause, so it ends with one exactly if it
enters Faulted, and fault entry records no ProgramTooLarge (O19). -/
theorem everyStepKeepsTheInvariant : Obligations.EveryStepKeepsTheInvariant := by
  intro s t hinv h
  have hrun := running_of_step h
  by_cases hfaulted : t.runState = .faulted
  · obtain ⟨k, hk, rfl⟩ := faultEntryIsPrecise s t hrun h hfaulted
    exact ⟨hinv.memory, iff_of_true nofun rfl, fun hcause => hk (Option.some.inj hcause)⟩
  · obtain ⟨hcause, hwf⟩ := kept_of_step h hfaulted
    exact inv_of_not_faulted (hwf hinv.memory) (hcause.trans (hinv.faultCause_none (hrun ▸ nofun))) hfaulted

end Sys2Proof.Machine
end

section
/-! Two accesses in a row: what a write left is what the next read, pop or fetch sees, and what a compare left is what the next
jump tests (20_memory.md R59, R65, 41_stack.md R147, 46_compare.md R222, R223, 70_reset_and_hazards.md R295). -/

namespace Sys2Proof.Machine

/-! ## A write and a read (20_memory.md R59) -/

theorem readBytes_writeBytes {m : Memory} {a : Nat} {bs : List Byte} (hm : m.wf = true)
    (hfits : a + bs.length ≤ Config.memorySize) : (m.writeBytes a bs).readBytes a bs.length = bs := by
  refine List.ext_getElem (Memory.readBytes_length ..) fun k _ hk => ?_
  rw [Memory.readBytes_getElem, Memory.get_writeBytes bs hm hfits, dif_pos ⟨Nat.le_add_right a k, Nat.add_lt_add_left hk a⟩]
  simp only [Nat.add_sub_cancel_left]

/-- Settles O31: the bytes read are those written, and their value is the written one modulo what they hold. -/
theorem memoryWriteThenReadReturnsTheBytes : Obligations.MemoryWriteThenReadReturnsTheBytes := by
  intro s t addr v n hm _ hwrite
  obtain ⟨hfits, rfl⟩ := memWrite_ok_iff.1 hwrite
  have hread := readBytes_writeBytes (a := addr.toNat) (bs := leBytes n v.toNat) hm (by rwa [leBytes_length])
  rw [leBytes_length] at hread
  rw [memRead_ok_iff, withMem_mem, hread, leValue_leBytes, Nat.pow_mul]
  exact ⟨hfits, rfl⟩

/-! ## A push and a pop (41_stack.md R147) -/

/-- A word stored at an address is the word there. -/
theorem wordAt_of_storesBytes {s t : State} {a : Nat} {v : Word} (h : StoresBytes s t a 4 v) : wordAt t a = v := by
  rw [wordAt, h.stored 3 (by decide), h.stored 2 (by decide), h.stored 1 (by decide), ← Nat.add_zero a,
    h.stored 0 (by decide)]
  exact word_of_bytes v

/-- Settles O27: the push (O25) leaves sp one slot below the stored word, within the bounds of the pop (O26), which reads the
slot above. -/
theorem pushThenPopReturnsTheValue : Obligations.PushThenPopReturnsTheValue := by
  intro s ra rb hm hrb hlo hhi
  obtain ⟨-, hpush, -⟩ := (pushEffect.2 s).1 ra
  obtain ⟨t, hexec, hpushes⟩ := hpush hm (by omega) (by omega)
  have hsp : t.sp.toNat = s.sp.toNat - 4 := by
    rw [hpushes.sp]
    exact BitVec.toNat_sub_of_le (BitVec.le_def.2 hlo)
  obtain ⟨-, hpop, -⟩ := (popEffect.2 t).1 rb
  obtain ⟨u, hexec', hread, hspPop, -⟩ := hpop (by omega)
  refine ⟨t, u, hexec, hexec', ?_, ?_⟩
  · rw [hread, hsp, Nat.sub_add_cancel hlo, wordAt_of_storesBytes hpushes.slot]
  · rw [hspPop hrb, hpushes.sp, BitVec.sub_add_cancel]

/-! ## A STORE and the next fetch (20_memory.md R65) -/

/-- Settles O32: each byte fetched is the byte in memory at its address after the STORE (O29). -/
theorem storeIsSeenByTheNextFetch : Obligations.StoreIsSeenByTheNextFetch := by
  intro s t reg addr hm hfits hexec k hk
  obtain ⟨-, hstore, -⟩ := (storeEffect.2 s addr (by omega)).1 reg
  obtain ⟨u, hexec', hstores⟩ := hstore hm hfits
  obtain rfl : u = t := Host.Outcome.next.inj (hexec'.symm.trans hexec)
  rw [getElem_fetch]
  generalize u.pc.toNat + k = b
  split
  · next hinside =>
    obtain ⟨j, rfl⟩ := Nat.exists_eq_add_of_le hinside.1
    rw [hstores.bytes.stored j (by omega), Nat.add_sub_cancel_left]
  · next houtside => exact hstores.bytes.others b (by omega)

/-! ## A COMPARE and the next jump (46_compare.md R222, R223) -/

/-- ZERO, SIGN and OVERFLOW after a COMPARE, over the operands' values: it does not write OVERFLOW. -/
structure ComparedFlags (s t : State) (a b : Nat) : Prop where
  zero : testFlag t.flags 0 = true ↔ a = b
  sign : testFlag t.flags 1 = true ↔ b < a
  overflow : testFlag t.flags 2 = testFlag s.flags 2

/-- The three relations of R220 as one equivalence per flag. -/
theorem exists_comparedFlags (s : State) (reg1 reg2 : XReg) :
    ∃ t, exec (.compare reg1 reg2) s = .next t ∧ t.pc = s.pc + 3#32 ∧
      ComparedFlags s t (sourceX s 3 reg1).toNat (sourceX s 3 reg2).toNat := by
  obtain ⟨-, t, hexec, hwrites, heq, hgt, hlt⟩ := compareEffect.2 s reg1 reg2
  refine ⟨t, hexec, hwrites.pc, ?_⟩
  have hoverflow := hwrites.bits 2 (Nat.le_refl 2)
  rcases Nat.lt_trichotomy (sourceX s 3 reg1).toNat (sourceX s 3 reg2).toNat with h | h | h
  · obtain ⟨hzero, hsign⟩ := hlt h
    exact ⟨by simp [hzero, h.ne], by simp [hsign, h.le], hoverflow⟩
  · obtain ⟨hzero, hsign⟩ := heq (BitVec.eq_of_toNat_eq h)
    exact ⟨by simp [hzero, h], by simp [hsign, h], hoverflow⟩
  · obtain ⟨hzero, hsign⟩ := hgt h
    exact ⟨by simp [hzero, h.ne'], by simp [hsign, h], hoverflow⟩

section
variable {s t : State} {a b : Nat} (h : ComparedFlags s t a b)
include h

theorem ComparedFlags.lessThan_iff :
    (testFlag t.flags 0 = true ∨ ¬testFlag t.flags 1 = testFlag t.flags 2) ↔
      if testFlag s.flags 2 = true then a ≤ b else b ≤ a := by
  rw [h.zero, h.overflow, Bool.eq_iff_iff, h.sign]
  split
  · next hstale => simp only [hstale, iff_true]; omega
  · next hclear => simp only [hclear, Bool.false_eq_true, iff_false]; omega

theorem ComparedFlags.greaterThan_iff :
    (testFlag t.flags 0 = true ∧ testFlag t.flags 1 = testFlag t.flags 2) ↔ a = b ∧ ¬testFlag s.flags 2 = true := by
  rw [h.zero, h.overflow, Bool.eq_iff_iff, h.sign]
  refine and_congr_right fun heq => ?_
  simp only [heq, Nat.lt_irrefl, false_iff]

end

/-- The pc after a jump, its condition in another spelling. -/
theorem pc_of_movesPc {t u : State} {taken taken' : Prop} [Decidable taken] [Decidable taken'] {target next next' : Word}
    (h : MovesPc t u (if taken then target else next)) (hiff : taken ↔ taken') (hnext : next = next') :
    u.pc = if taken' then target else next' :=
  h.pc.trans (if_congr hiff rfl hnext)

/-- Settles O49: the conditions of O47 on the flags that O45 leaves; the jump's five bytes follow the compare's three. -/
theorem conditionalJumpsAfterCompare : Obligations.ConditionalJumpsAfterCompare := by
  intro s reg1 reg2 addr haddr
  obtain ⟨t, hexec, hpc, hflags⟩ := exists_comparedFlags s reg1 reg2
  have hnext : t.pc + 5#32 = s.pc + 8#32 := by rw [hpc, BitVec.add_assoc]; rfl
  obtain ⟨-, ⟨-, z, hz, hzero⟩, ⟨-, e, he, hequal⟩, ⟨-, l, hl, hless⟩, -, g, hg, hgreater⟩ :=
    absoluteJumpEffect.2 t addr haddr
  exact ⟨t, hexec, ⟨z, hz, pc_of_movesPc hzero hflags.zero hnext⟩, ⟨e, he, pc_of_movesPc hequal hflags.zero hnext⟩,
    ⟨l, hl, pc_of_movesPc hless hflags.lessThan_iff hnext⟩, g, hg, pc_of_movesPc hgreater hflags.greaterThan_iff hnext⟩

end Sys2Proof.Machine
end

section
/-! The float operations: the value and the class of a pattern from its bits, then each operation on finite operands as one
rounding of the exact result, and on the other operands by their classes (45_float_arithmetic.md R201, R202). -/

namespace Sys2Proof.Machine

/-! ## The value of a finite pattern (45_float_arithmetic.md R201) -/

/-- A normal's scale 2^(e - 1), in units of 2^-149, is 2^(e - 150). -/
theorem two_pow_mul_unit {e : Nat} (he : e ≠ 0) : (2 : ℚ) ^ (e - 1) * 2 ^ (-149 : ℤ) = 2 ^ ((e : ℤ) - 150) := by
  obtain ⟨d, rfl⟩ := Nat.exists_eq_succ_of_ne_zero he
  rw [Nat.succ_sub_one, ← zpow_natCast, ← zpow_add₀ two_ne_zero]
  congr 1
  push_cast
  ring

theorem floatMagnitude_mul_unit (v : FloatPattern) :
    (floatMagnitude v : ℚ) * 2 ^ (-149 : ℤ) =
      if (v.toNat / 2 ^ 23) % 2 ^ 8 = 0 then ((v.toNat % 2 ^ 23 : Nat) : ℚ) * 2 ^ (-149 : ℤ)
      else ((2 ^ 23 + v.toNat % 2 ^ 23 : Nat) : ℚ) * 2 ^ (((v.toNat / 2 ^ 23) % 2 ^ 8 : Nat) - 150 : ℤ) := by
  rw [floatMagnitude, floatExponent_eq, floatFraction_eq]
  split
  · rfl
  · next hnormal => rw [← two_pow_mul_unit hnormal, ← mul_assoc, Nat.cast_mul, Nat.cast_pow, Nat.cast_ofNat]

/-- Settles O39: the sign of the units is bit 31, their magnitude that of the two kinds of finite pattern. -/
theorem finitePatternHasItsFormatValue : Obligations.FinitePatternHasItsFormatValue := by
  intro v _
  rw [← floatMagnitude_mul_unit, floatUnits, floatSign]
  split
  · rw [Int.cast_neg, Int.cast_natCast, neg_one_mul, neg_mul]
  · rw [Int.cast_natCast, one_mul]

/-! ## The classes of patterns (45_float_arithmetic.md R201) -/

section
variable (v : FloatPattern)

theorem isFinite_iff : isFinite v = true ↔ v.toNat % 2 ^ 31 < 0x7F800000 := by
  rw [isFinite, bne_iff_ne, floatExponent_eq]
  omega

theorem isInfinite_iff : isInfinite v = true ↔ v.toNat % 2 ^ 31 = 0x7F800000 := by
  rw [isInfinite, Bool.and_eq_true, beq_iff_eq, beq_iff_eq, floatExponent_eq, floatFraction_eq]
  omega

theorem isNaN_iff : isNaN v = true ↔ 0x7F800000 < v.toNat % 2 ^ 31 := by
  rw [isNaN, Bool.and_eq_true, beq_iff_eq, bne_iff_ne, floatExponent_eq, floatFraction_eq]
  omega

theorem isZero_iff : isZero v = true ↔ v.toNat % 2 ^ 31 = 0 := by
  rw [isZero, Bool.and_eq_true, beq_iff_eq, beq_iff_eq, floatExponent_eq, floatFraction_eq]
  omega

end

theorem isInfinite_iff_eq (v : FloatPattern) : isInfinite v = true ↔ v = 0x7F800000#32 ∨ v = 0xFF800000#32 := by
  have hv := word_lt v
  rw [isInfinite_iff, ← BitVec.toNat_inj, ← BitVec.toNat_inj]
  simp only [BitVec.toNat_ofNat, Config.flen]
  omega

/-- Settles O40: the classes are intervals of the 31 low bits, and the units of a finite value stay below those the model
gives an infinity. -/
theorem nonFinitePatternsOfTheFormat : Obligations.NonFinitePatternsOfTheFormat := by
  refine fun v => ⟨isFinite_iff v, isInfinite_iff_eq v, isNaN_iff v, fun w hw => ⟨?_, ?_⟩⟩
  · rintro rfl
    exact floatUnits_posInf (v := 0x7F800000#32) (by decide) (by decide) ▸ (floatUnits_of_isFinite hw).2
  · rintro rfl
    exact floatUnits_negInf (v := 0xFF800000#32) (by decide) (by decide) ▸ (floatUnits_of_isFinite hw).1

/-! ## Sums and differences of finite values -/

theorem floatArith_add (a b : FloatPattern) : floatArith .add a b = addBinary32 a b := rfl

/-- R202: a difference is the sum with the negated pattern. -/
theorem floatArith_sub (a b : FloatPattern) : floatArith .sub a b = addBinary32 a (negateBinary32 b) := rfl

theorem floatArith_mul (a b : FloatPattern) : floatArith .mul a b = mulBinary32 a b := rfl

theorem floatArith_div (a b : FloatPattern) : floatArith .div a b = divBinary32 a b := rfl

section
variable {a b : FloatPattern} (ha : isFinite a = true) (hb : isFinite b = true)
include ha hb

theorem addBinary32_of_isFinite :
    addBinary32 a b =
      if floatUnits a + floatUnits b = 0 then .pattern (packFloat (floatSign a && floatSign b) 0)
      else .pattern (packFloat (decide (floatUnits a + floatUnits b < 0))
        (roundMagnitude (floatUnits a + floatUnits b).natAbs 1)) := by
  obtain ⟨hnanA, hinfA⟩ := finite_cases a ha
  obtain ⟨hnanB, hinfB⟩ := finite_cases b hb
  simp [addBinary32, hnanA, hinfA, hnanB, hinfB]

theorem addBinary32_correctlyRounded (hsum : floatUnits a + floatUnits b ≠ 0) :
    ∃ v, addBinary32 a b = .pattern v ∧
      CorrectlyRounded (decide (floatUnits a + floatUnits b < 0)) (floatUnits a + floatUnits b).natAbs 1 v :=
  ⟨_, by rw [addBinary32_of_isFinite ha hb, if_neg hsum], correctlyRounded_pack _ _ 1 Nat.one_pos⟩

end

theorem floatUnits_nonpos_of_sign {v : FloatPattern} (h : floatSign v = true) : floatUnits v ≤ 0 := by
  rw [floatUnits_of_sign_true h]
  omega

/-- Two values of sum zero are both negative only as the two negative zeros. -/
theorem signs_of_sum_zero {a b : FloatPattern} (hsum : floatUnits a + floatUnits b = 0) :
    (floatSign a && floatSign b) = true ↔ a = 0x80000000#32 ∧ b = 0x80000000#32 := by
  rw [Bool.and_eq_true]
  constructor
  · rintro ⟨hsa, hsb⟩
    have hA := floatUnits_nonpos_of_sign hsa
    have hB := floatUnits_nonpos_of_sign hsb
    have hzeroA := zero_pattern a (by omega)
    have hzeroB := zero_pattern b (by omega)
    rw [hsa, if_pos rfl] at hzeroA
    rw [hsb, if_pos rfl] at hzeroB
    exact ⟨hzeroA, hzeroB⟩
  · rintro ⟨rfl, rfl⟩
    decide

theorem addBinary32_of_sum_zero {a b : FloatPattern} (ha : isFinite a = true) (hb : isFinite b = true)
    (hsum : floatUnits a + floatUnits b = 0) :
    addBinary32 a b = .pattern (if a = 0x80000000#32 ∧ b = 0x80000000#32 then 0x80000000#32 else 0#32) := by
  rw [addBinary32_of_isFinite ha hb, if_pos hsum]
  simp only [← signs_of_sum_zero hsum]
  cases floatSign a && floatSign b with
  | true => rfl
  | false => rfl

theorem negateBinary32_eq_negZero_iff (b : FloatPattern) : negateBinary32 b = 0x80000000#32 ↔ b = 0#32 := by
  have hzero : negateBinary32 0#32 = 0x80000000#32 := rfl
  rw [← hzero, negateBinary32, negateBinary32]
  exact BitVec.xor_left_inj _

/-- Settles O41: a difference is the sum with the negated pattern, whose value is the negated value; the sum rounds once. -/
theorem floatSumIsCorrectlyRounded : Obligations.FloatSumIsCorrectlyRounded := by
  intro a b ha hb
  obtain ⟨hunits, hfinite, -⟩ := negateBinary32_spec b
  rw [hb] at hfinite
  rw [floatArith_add, floatArith_sub, Int.sub_eq_add_neg, ← hunits]
  simp only [← negateBinary32_eq_negZero_iff b]
  exact ⟨addBinary32_correctlyRounded ha hb, addBinary32_of_sum_zero ha hb, addBinary32_correctlyRounded ha hfinite,
    addBinary32_of_sum_zero ha hfinite⟩

/-! ## Products and quotients of finite values -/

/-- Settles O42: the product counts units of 2^-298, hence the denominator 2^149. -/
theorem floatProductIsCorrectlyRounded : Obligations.FloatProductIsCorrectlyRounded := by
  intro a b ha hb
  obtain ⟨hnanA, hinfA⟩ := finite_cases a ha
  obtain ⟨hnanB, hinfB⟩ := finite_cases b hb
  exact ⟨_, by simp [floatArith_mul, mulBinary32, hnanA, hinfA, hnanB, hinfB],
    correctlyRounded_pack _ _ (2 ^ 149) (by positivity)⟩

theorem floatMagnitude_pos {v : FloatPattern} (h : isZero v = false) : 0 < floatMagnitude v := by
  unfold floatMagnitude
  split
  · next hexponent =>
    have hfraction : floatFraction v ≠ 0 := by simpa [isZero, hexponent] using h
    exact Nat.pos_of_ne_zero hfraction
  · positivity

/-- Settles O43: a non-zero divisor has a magnitude to divide by. -/
theorem floatQuotientIsCorrectlyRounded : Obligations.FloatQuotientIsCorrectlyRounded := by
  intro a b ha hb hzero
  obtain ⟨hnanA, hinfA⟩ := finite_cases a ha
  obtain ⟨hnanB, hinfB⟩ := finite_cases b hb
  exact ⟨_, by simp [floatArith_div, divBinary32, hnanA, hinfA, hnanB, hinfB, hzero],
    correctlyRounded_pack _ _ _ (floatMagnitude_pos hzero)⟩

/-! ## NaNs, infinities and zero divisors -/

theorem isZero_of_isInfinite {v : FloatPattern} (h : isInfinite v = true) : isZero v = false := by
  rw [isInfinite_iff] at h
  rw [← Bool.not_eq_true, isZero_iff]
  omega

theorem isInfinite_of_isZero {v : FloatPattern} (h : isZero v = true) : isInfinite v = false := by
  rw [isZero_iff] at h
  rw [← Bool.not_eq_true, isInfinite_iff]
  omega

theorem negateBinary32_low_bits (b : FloatPattern) : (negateBinary32 b).toNat % 2 ^ 31 = b.toNat % 2 ^ 31 := by
  rw [negateBinary32, BitVec.toNat_xor, Nat.xor_mod_two_pow]
  exact Nat.xor_zero _

theorem isInfinite_negateBinary32 (b : FloatPattern) : isInfinite (negateBinary32 b) = isInfinite b := by
  rw [Bool.eq_iff_iff, isInfinite_iff, isInfinite_iff, negateBinary32_low_bits]

theorem isNaN_negateBinary32 (b : FloatPattern) : isNaN (negateBinary32 b) = isNaN b := by
  rw [Bool.eq_iff_iff, isNaN_iff, isNaN_iff, negateBinary32_low_bits]

/-- The infinity of a sign (R201). -/
def signedInfinity (neg : Bool) : FloatPattern := if neg then 0xFF800000#32 else 0x7F800000#32

/-- The zero of a sign (R201). -/
def signedZero (neg : Bool) : FloatPattern := if neg then 0x80000000#32 else 0#32

theorem eq_signedInfinity {v : FloatPattern} (h : isInfinite v = true) : v = signedInfinity (floatSign v) := by
  obtain rfl | rfl := (isInfinite_iff_eq v).1 h
  · rfl
  · rfl

theorem packFloat_infinityMagnitude (sign : Bool) : packFloat sign infinityMagnitude = signedInfinity sign := by
  cases sign <;> rfl

theorem packFloat_zero (sign : Bool) : packFloat sign 0 = signedZero sign := by
  cases sign <;> rfl

theorem floatArith_of_isNaN {a b : FloatPattern} (h : isNaN a = true ∨ isNaN b = true) (op : FloatOp) :
    floatArith op a b = .nan := by
  cases op with
  | add => rw [floatArith_add, addBinary32, if_pos (by simpa using h)]
  | sub => rw [floatArith_sub, addBinary32, if_pos (by simpa [isNaN_negateBinary32] using h)]
  | mul => rw [floatArith_mul, mulBinary32, if_pos (by simpa using h)]
  | div => rw [floatArith_div, divBinary32, if_pos (by simpa using h)]

section
variable {a b : FloatPattern} (hnanA : isNaN a = false) (hnanB : isNaN b = false)
include hnanA hnanB

theorem add_of_infinite_left (ha : isInfinite a = true) :
    floatArith .add a b = if isInfinite b && (floatSign a != floatSign b) then .nan else .pattern a := by
  simp [floatArith_add, addBinary32, hnanA, hnanB, ha]

theorem add_of_infinite_right (ha : isInfinite a = false) (hb : isInfinite b = true) :
    floatArith .add a b = .pattern b := by
  simp [floatArith_add, addBinary32, hnanA, hnanB, ha, hb]

/-- The negated pattern is an infinity as `b` is, of the other sign. -/
theorem sub_of_infinite_left (ha : isInfinite a = true) :
    floatArith .sub a b = if isInfinite b && !(floatSign a != floatSign b) then .nan else .pattern a := by
  obtain ⟨-, -, hsign⟩ := negateBinary32_spec b
  have hadd := add_of_infinite_left hnanA ((isNaN_negateBinary32 b).trans hnanB) ha
  rw [isInfinite_negateBinary32, hsign, Bool.bne_not] at hadd
  exact hadd

theorem sub_of_infinite_right (ha : isInfinite a = false) (hb : isInfinite b = true) :
    floatArith .sub a b = .pattern (signedInfinity !floatSign b) := by
  obtain ⟨-, -, hsign⟩ := negateBinary32_spec b
  have hinf : isInfinite (negateBinary32 b) = true := (isInfinite_negateBinary32 b).trans hb
  rw [← hsign, ← eq_signedInfinity hinf]
  exact add_of_infinite_right hnanA ((isNaN_negateBinary32 b).trans hnanB) ha hinf

theorem mul_of_infinite (h : isInfinite a = true ∨ isInfinite b = true) :
    floatArith .mul a b =
      if isZero a || isZero b then .nan else .pattern (signedInfinity (floatSign a != floatSign b)) := by
  obtain h | h := h
  · simp [floatArith_mul, mulBinary32, packFloat_infinityMagnitude, hnanA, hnanB, h, isZero_of_isInfinite h]
  · simp [floatArith_mul, mulBinary32, packFloat_infinityMagnitude, hnanA, hnanB, h, isZero_of_isInfinite h]

theorem div_of_zero_divisor (hb : isZero b = true) :
    floatArith .div a b =
      if isZero a then .nan else .pattern (signedInfinity (floatSign a != floatSign b)) := by
  simp [floatArith_div, divBinary32, packFloat_infinityMagnitude, hnanA, hnanB, hb, isInfinite_of_isZero hb]

theorem div_of_infinite_dividend (ha : isInfinite a = true) :
    floatArith .div a b =
      if isInfinite b then .nan else .pattern (signedInfinity (floatSign a != floatSign b)) := by
  simp [floatArith_div, divBinary32, packFloat_infinityMagnitude, hnanA, hnanB, ha, isZero_of_isInfinite ha]

theorem div_of_infinite_divisor (ha : isInfinite a = false) (hb : isInfinite b = true) :
    floatArith .div a b = .pattern (signedZero (floatSign a != floatSign b)) := by
  simp [floatArith_div, divBinary32, packFloat_zero, hnanA, hnanB, ha, hb, isZero_of_isInfinite hb]

end

/-- Settles O44: each operation by the classes of its operands, the clause of the statement picking one branch. -/
theorem floatSpecialCases : Obligations.FloatSpecialCases := by
  intro a b infinity zero sign
  refine ⟨floatArith_of_isNaN, fun hnanA hnanB => ?_⟩
  have hadd := add_of_infinite_left hnanA hnanB
  have hsub := sub_of_infinite_left hnanA hnanB
  have hmul := mul_of_infinite hnanA hnanB
  have hdivZero := div_of_zero_divisor hnanA hnanB
  have hdivInfinite := div_of_infinite_dividend hnanA hnanB
  refine ⟨fun ha hb (hs : (floatSign a != floatSign b) = true) => ⟨?_, ?_⟩,
    fun ha hb (hs : (floatSign a != floatSign b) = false) => ⟨?_, ?_⟩, fun ha hb => ⟨?_, ?_⟩,
    fun ha hb => ⟨add_of_infinite_right hnanA hnanB ha hb, sub_of_infinite_right hnanA hnanB ha hb⟩,
    fun hinf hzero => ?_, fun hinf hza hzb => ?_, fun hza hzb => ?_, fun ha hb => ?_, fun hza hzb => ?_,
    fun ha hb => ?_, div_of_infinite_divisor hnanA hnanB⟩
  · rw [hadd ha, hb, hs]; rfl
  · rw [hsub ha, hb, hs]; rfl
  · rw [hadd ha, hb, hs]; rfl
  · rw [hsub ha, hb, hs]; rfl
  · rw [hadd ha, hb]; rfl
  · rw [hsub ha, hb]; rfl
  · rw [hmul hinf, if_pos (by simpa using hzero)]
  · rw [hmul hinf, if_neg (by simp [hza, hzb])]; rfl
  · rw [hdivZero hzb, if_pos hza]
  · rw [hdivInfinite ha, if_pos hb]
  · rw [hdivZero hzb, if_neg (by simp [hza])]; rfl
  · rw [hdivInfinite ha, if_neg (by simp [hb])]; rfl

end Sys2Proof.Machine
end

section
/-! The host's commands: when each is a move, what it replies and changes, and that none breaks the invariant; bounded runs are
iterations of the step (70_reset_and_hazards.md R280 to R289, R298). -/

namespace Sys2Proof.Machine

/-! ## Commands while Running and while not (70_reset_and_hazards.md R284, R288, R289) -/

theorem isRunning_iff (s : State) : isRunning s = true ↔ s.runState = .running := decide_eq_true_iff

theorem isRunning_of_ne {s : State} (h : s.runState ≠ .running) : isRunning s = false := decide_eq_false h

/-- Whether a command is a move in Running too (70_reset_and_hazards.md R285 to R287). -/
def movesWhileRunning : HostCommand → Bool
  | .start | .run _ | .isRunning => true
  | _ => false

theorem movesWhileRunning_eq_false_iff (c : HostCommand) :
    movesWhileRunning c = false ↔ c ≠ .start ∧ c ≠ .isRunning ∧ ∀ bound, c ≠ .run bound := by
  cases c <;> simp [movesWhileRunning]

theorem hostCommand_eq_none_iff (c : HostCommand) (s : State) :
    hostCommand c s = none ↔ s.runState = .running ∧ movesWhileRunning c = false := by
  rw [← isRunning_iff]
  cases c with
  | start | run | isRunning => simp [hostCommand, movesWhileRunning]
  | readMemory addr width =>
    cases h : readMemory addr (accessBytes width) s <;> simp [hostCommand, movesWhileRunning, h]
  | _ => simp [hostCommand, movesWhileRunning]

theorem runState_ne_running_of_hostCommand {c : HostCommand} {s t : State} {r : HostReply}
    (h : hostCommand c s = some (r, t)) (hc : movesWhileRunning c = false) : s.runState ≠ .running := by
  intro hrun
  rw [(hostCommand_eq_none_iff c s).2 ⟨hrun, hc⟩] at h
  cases h

/-! ## What each command that is no move while Running does -/

section
variable {s : State} (h : s.runState ≠ .running)
include h

theorem hostCommand_reset : hostCommand .reset s = some (.done, hostReset s) := by
  simp [hostCommand, isRunning_of_ne h]

theorem hostCommand_loadProgram (bytes : List Byte) :
    hostCommand (.loadProgram bytes) s = some (replyOr s (loadProgram bytes s)) := by
  simp [hostCommand, isRunning_of_ne h]

theorem hostCommand_readRegister (id : XReg) : hostCommand (.readRegister id) s = some (.word (s.readX id), s) := by
  simp [hostCommand, isRunning_of_ne h, readRegister]

theorem hostCommand_readFloatRegister (id : FReg) :
    hostCommand (.readFloatRegister id) s = some (.pattern (s.readF id), s) := by
  simp [hostCommand, isRunning_of_ne h, readFloatRegister]

theorem hostCommand_readRunState : hostCommand .readRunState s = some (.runState s.runState, s) := by
  simp [hostCommand, isRunning_of_ne h]

theorem hostCommand_readFaultCause : hostCommand .readFaultCause s = some (.faultCause s.faultCause, s) := by
  simp [hostCommand, isRunning_of_ne h]

theorem hostCommand_writeRegister (id : XReg) (v : Word) :
    hostCommand (.writeRegister id v) s = some (.done, s.writeX id v) := by
  simp [hostCommand, isRunning_of_ne h, writeRegister]

theorem hostCommand_writeFloatRegister (id : FReg) (v : FloatPattern) :
    hostCommand (.writeFloatRegister id v) s = some (.done, s.writeF id v) := by
  simp [hostCommand, isRunning_of_ne h, writeFloatRegister]

theorem hostCommand_writeMemory (addr : Word) (width : AccessWidth) (v : Word) :
    hostCommand (.writeMemory addr width v) s = some (replyOr s (s.memWrite addr (accessBytes width) v)) := by
  simp [hostCommand, isRunning_of_ne h, writeMemory]

variable {addr : Word} {width : AccessWidth}

theorem hostCommand_readMemory {v : Word} (hfits : addr.toNat + accessBytes width ≤ Config.memorySize)
    (hv : BitVec.ofNat Config.xlen (leValue (s.mem.readBytes addr.toNat (accessBytes width))) = v) :
    hostCommand (.readMemory addr width) s = some (.word v, s) := by
  simp [hostCommand, isRunning_of_ne h, readMemory, memRead_ok_iff.2 ⟨hfits, hv.symm⟩]

theorem hostCommand_readMemory_outOfBounds (hpast : Config.memorySize < addr.toNat + accessBytes width) :
    hostCommand (.readMemory addr width) s = some (.failed .outOfBounds, s) := by
  simp [hostCommand, isRunning_of_ne h, readMemory, memRead_error_iff.2 ⟨hpast, rfl⟩]

end

/-! ## load_program (70_reset_and_hazards.md R284) -/

theorem loadProgram_tooLarge {bytes : List Byte} (h : Config.memorySize < bytes.length) (s : State) :
    loadProgram bytes s = .error .programTooLarge := if_pos h

theorem loadProgram_ok {bytes : List Byte} (h : bytes.length ≤ Config.memorySize) (s : State) :
    loadProgram bytes s = .ok (s.withMem (s.mem.writeBytes 0 bytes)) := if_neg (Nat.not_lt.2 h)

/-- Settles O50: the copy is one block write at address 0. -/
theorem loadProgramCopiesTheBuffer : Obligations.LoadProgramCopiesTheBuffer := by
  intro s bytes
  refine ⟨fun hrun => (hostCommand_eq_none_iff _ s).2 ⟨hrun, rfl⟩, fun hrun hlong => ?_, fun hrun hfits hm => ?_⟩
  · rw [hostCommand_loadProgram hrun, loadProgram_tooLarge hlong]
    rfl
  · refine ⟨s.withMem (s.mem.writeBytes 0 bytes), ?_, fun a => ?_, fun r => readX_withMem s _ r,
      fun r => readF_withMem s _ r, rfl, rfl⟩
    · rw [hostCommand_loadProgram hrun, loadProgram_ok hfits]
      rfl
    · rw [readByte_withMem, Memory.get_writeBytes bytes hm (by rwa [Nat.zero_add])]
      simp only [Nat.zero_le, true_and, Nat.zero_add, Nat.sub_zero]
      rfl

/-! ## start and is_running (70_reset_and_hazards.md R285, R287) -/

theorem start_of_halted {s : State} (h : s.runState = .halted) : start s = s.withRunState .running := by
  rw [start, h]

theorem start_of_ne_halted {s : State} (h : s.runState ≠ .halted) : start s = s := by
  unfold start
  split
  · next hhalted => exact absurd hhalted h
  · rfl
  · rfl

/-- Settles O51: by the value of `run_state`. -/
theorem startAndIsRunning : Obligations.StartAndIsRunning := by
  refine fun s => ⟨fun h => ?_, fun h => ?_, fun h => ?_, fun h => ?_⟩
  · rw [hostCommand, start_of_halted h]
    rfl
  · rw [hostCommand, start_of_ne_halted h]
  · rw [hostCommand, (isRunning_iff s).2 h]
  · rw [hostCommand, isRunning_of_ne h]

/-! ## Bounded runs (70_reset_and_hazards.md R286, R298) -/

theorem runSteps_succ_of_step {s t : State} (h : step s = .next t) (n : Nat) : runSteps (n + 1) s = runSteps n t := by
  rw [runSteps, h]

/-- In Halted and Faulted no step is enabled, so the loop has ended (R121). -/
theorem runSteps_of_ended {s : State} (h : RunEnded s) (n : Nat) : runSteps n s = s := by
  cases n with
  | zero => rfl
  | succ n =>
    obtain ⟨hhalted, hfaulted⟩ := stoppedMachineTakesNoStep s
    obtain h | h := h
    · rw [runSteps, hhalted h]
    · rw [runSteps, hfaulted h]

theorem running_or_ended (s : State) : s.runState = .running ∨ RunEnded s := by
  cases h : s.runState with
  | running => exact .inl rfl
  | halted => exact .inr (.inl h)
  | faulted => exact .inr (.inr h)

theorem runSteps_add (s : State) (m n : Nat) : runSteps (m + n) s = runSteps n (runSteps m s) := by
  induction m generalizing s with
  | zero => rw [Nat.zero_add, runSteps]
  | succ m ih =>
    rw [Nat.add_right_comm]
    obtain hrun | hended := running_or_ended s
    · obtain ⟨t, hstep⟩ := runningStepHasANextState s hrun
      rw [runSteps_succ_of_step hstep, runSteps_succ_of_step hstep, ih]
    · rw [runSteps_of_ended hended, runSteps_of_ended hended, runSteps_of_ended hended]

/-- Settles O53: the loop unrolled once, its end, and its split. -/
theorem runRepeatsStep : Obligations.RunRepeatsStep := by
  refine fun s n => ⟨rfl, fun t hstep => runSteps_succ_of_step hstep n, fun hrun => ?_,
    fun hended => runSteps_of_ended hended n, fun m => runSteps_add s m n⟩
  obtain ⟨t, hstep⟩ := runningStepHasANextState s hrun
  exact ⟨t, hstep, runSteps_succ_of_step hstep n⟩

theorem run_of_faulted {s : State} (h : s.runState = .faulted) (bound : Nat) : run bound s = s := by
  rw [run, h]

theorem run_of_ne_faulted {s : State} (h : s.runState ≠ .faulted) (bound : Nat) :
    run bound s = runSteps bound (s.withRunState .running) := by
  unfold run
  split
  · next hfaulted => exact absurd hfaulted h
  · rfl
  · rfl

theorem runReport_of_halted {s : State} (h : s.runState = .halted) : runReport s = .success := by
  rw [runReport, h]

theorem runReport_of_faulted {s : State} (h : s.runState = .faulted) : runReport s = .fault s.faultCause := by
  rw [runReport, h]

theorem hostCommand_run (bound : Nat) (s : State) :
    hostCommand (.run bound) s = some (.report (runReport (run bound s)), run bound s) := rfl

/-- Settles O52: outside Faulted a run is the bounded loop from the forced state (O53). -/
theorem runReportsHowItEnds : Obligations.RunReportsHowItEnds := by
  intro s bound forced
  have hforced (hrun : s.runState ≠ .faulted) (n : Nat) : run n s = runSteps n forced := run_of_ne_faulted hrun n
  refine ⟨fun hrun => ?_, fun hrun => ?_, fun hrun => ?_, fun hrun => ?_⟩
  · rw [hostCommand_run, run_of_faulted hrun, runReport_of_faulted hrun]
  · rw [hostCommand_run, hforced hrun]
    rfl
  · obtain ⟨t, hstep⟩ := runningStepHasANextState forced rfl
    exact ⟨t, hstep, by rw [hostCommand_run, hforced hrun, runSteps_succ_of_step hstep]⟩
  · exact ⟨_, hostCommand_run bound s, hforced hrun bound, runReport_of_halted, runReport_of_faulted⟩

/-! ## Reads and writes (10_state.md R22, 70_reset_and_hazards.md R288) -/

/-- Settles O54: the three widths are those of the loads (O28). -/
theorem hostReadsTheState : Obligations.HostReadsTheState := by
  intro s h
  refine ⟨hostCommand_readRegister h, hostCommand_readRegister h _, hostCommand_readRegister h _,
    hostCommand_readRegister h _, hostCommand_readFloatRegister h, hostCommand_readRunState h,
    hostCommand_readFaultCause h, fun addr => ?_⟩
  exact ⟨fun hfits => hostCommand_readMemory h (width := .four) hfits (readBytes_wordAt s addr.toNat),
    hostCommand_readMemory_outOfBounds h (width := .four),
    fun hfits => hostCommand_readMemory h (width := .two) hfits (readBytes_halfWordAt s addr.toNat),
    hostCommand_readMemory_outOfBounds h (width := .two),
    fun hfits => hostCommand_readMemory h (width := .one) hfits (readBytes_byteAt s addr.toNat),
    hostCommand_readMemory_outOfBounds h (width := .one)⟩

theorem hostStores_of_memWrite {s t : State} {addr : Word} {n : Nat} {v : Word} (hm : s.mem.wf = true)
    (h : s.memWrite addr n v = .ok t) : HostStores s t addr.toNat n v := by
  have hbytes := storesBytes_of_memWrite hm h
  obtain ⟨-, rfl⟩ := memWrite_ok_iff.1 h
  exact ⟨hbytes, fun r => readX_withMem s _ r, fun r => readF_withMem s _ r, rfl, rfl⟩

section
variable {s : State} (h : s.runState ≠ .running) {addr : Word} (width : AccessWidth) (v : Word)
include h

theorem hostCommand_writeMemory_stores (hm : s.mem.wf = true)
    (hfits : addr.toNat + accessBytes width ≤ Config.memorySize) :
    ∃ t, hostCommand (.writeMemory addr width v) s = some (.done, t) ∧
      HostStores s t addr.toNat (accessBytes width) v := by
  have hwrite := memWrite_ok_iff (s := s) (v := v).2 ⟨hfits, rfl⟩
  exact ⟨_, by rw [hostCommand_writeMemory h, hwrite]; rfl, hostStores_of_memWrite hm hwrite⟩

theorem hostCommand_writeMemory_outOfBounds (hpast : Config.memorySize < addr.toNat + accessBytes width) :
    hostCommand (.writeMemory addr width v) s = some (.failed .outOfBounds, s) := by
  rw [hostCommand_writeMemory h, memWrite_error_iff.2 ⟨hpast, rfl⟩]
  rfl

end

/-- Settles O55: the State's write primitives, each with the read that follows it. -/
theorem hostWritesTheState : Obligations.HostWritesTheState := by
  intro s h
  refine ⟨fun id v => ?_, fun id v => ?_, fun addr v => ?_⟩
  · have hvalue := readX_writeX_same s id v
    refine ⟨s.writeX id v, hostCommand_writeRegister h id v, ?_, hvalue, fun r => readX_writeX_ne s v,
      fun r => readF_writeX s id v r, fun a => readByte_writeX s id v a, rfl, rfl⟩
    rw [hostCommand_readRegister (s := s.writeX id v) h, hvalue]
  · have hvalue := readF_writeF_same s id v
    refine ⟨s.writeF id v, hostCommand_writeFloatRegister h id v, ?_, hvalue, fun r => readF_writeF_ne s v,
      fun r => readX_writeF s id v r, fun a => readByte_writeF s id v a, rfl, rfl⟩
    rw [hostCommand_readFloatRegister (s := s.writeF id v) h, hvalue]
  · exact ⟨hostCommand_writeMemory_stores h .four v, hostCommand_writeMemory_outOfBounds h .four v,
      hostCommand_writeMemory_stores h .two v, hostCommand_writeMemory_outOfBounds h .two v,
      hostCommand_writeMemory_stores h .one v, hostCommand_writeMemory_outOfBounds h .one v⟩

/-! ## What a command can lead to -/

/-- Everything a command can do to the state: nothing, `reset`, a write inside memory or a register, `start`, or a run. -/
inductive CommandOutcome (s : State) : HostCommand → State → Prop
  | kept (c : HostCommand) : CommandOutcome s c s
  | reset : CommandOutcome s .reset (hostReset s)
  | started : CommandOutcome s .start (start s)
  | ran (bound : Nat) : CommandOutcome s (.run bound) (run bound s)
  | wrote {c : HostCommand} {t : State} (writes : hostWrites c = true) (control : SameControl s t)
      (wf : s.mem.wf = true → t.mem.wf = true) : CommandOutcome s c t

theorem CommandOutcome.memory {s : State} {c : HostCommand} {answer : Except FaultKind State} {t : State} {r : HostReply}
    (hc : hostWrites c = true)
    (hanswer : ∀ u, answer = .ok u →
      ∃ a bs, a + bs.length ≤ Config.memorySize ∧ u = s.withMem (s.mem.writeBytes a bs))
    (h : replyOr s answer = (r, t)) : CommandOutcome s c t := by
  cases answer with
  | error k =>
    cases h
    exact .kept c
  | ok u =>
    obtain ⟨a, bs, hfits, rfl⟩ := hanswer u rfl
    cases h
    exact .wrote hc ⟨rfl, rfl⟩ fun hm => Memory.wf_writeBytes bs hm hfits

theorem commandOutcome_of_hostCommand {c : HostCommand} {s t : State} {r : HostReply}
    (h : hostCommand c s = some (r, t)) : CommandOutcome s c t := by
  have hidle := runState_ne_running_of_hostCommand h
  cases c with
  | start =>
    cases h
    exact .started
  | run bound =>
    cases h
    exact .ran bound
  | isRunning =>
    cases h
    exact .kept _
  | reset =>
    rw [hostCommand_reset (hidle rfl)] at h
    cases h
    exact .reset
  | loadProgram bytes =>
    rw [hostCommand_loadProgram (hidle rfl)] at h
    refine .memory rfl (fun u hu => ?_) (Option.some.inj h)
    rcases Nat.lt_or_ge Config.memorySize bytes.length with hlong | hfits
    · rw [loadProgram_tooLarge hlong] at hu
      cases hu
    · rw [loadProgram_ok hfits] at hu
      exact ⟨0, bytes, by rwa [Nat.zero_add], (Except.ok.inj hu).symm⟩
  | writeMemory addr width v =>
    rw [hostCommand_writeMemory (hidle rfl)] at h
    refine .memory rfl (fun u hu => ?_) (Option.some.inj h)
    obtain ⟨hfits, rfl⟩ := memWrite_ok_iff.1 hu
    exact ⟨_, _, by rwa [leBytes_length], rfl⟩
  | writeRegister id v =>
    rw [hostCommand_writeRegister (hidle rfl)] at h
    cases h
    exact .wrote rfl ⟨rfl, rfl⟩ fun hm => hm
  | writeFloatRegister id v =>
    rw [hostCommand_writeFloatRegister (hidle rfl)] at h
    cases h
    exact .wrote rfl ⟨rfl, rfl⟩ fun hm => hm
  | readRegister id =>
    rw [hostCommand_readRegister (hidle rfl)] at h
    cases h
    exact .kept _
  | readFloatRegister id =>
    rw [hostCommand_readFloatRegister (hidle rfl)] at h
    cases h
    exact .kept _
  | readRunState =>
    rw [hostCommand_readRunState (hidle rfl)] at h
    cases h
    exact .kept _
  | readFaultCause =>
    rw [hostCommand_readFaultCause (hidle rfl)] at h
    cases h
    exact .kept _
  | readMemory addr width =>
    rcases Nat.lt_or_ge Config.memorySize (addr.toNat + accessBytes width) with hpast | hfits
    · rw [hostCommand_readMemory_outOfBounds (hidle rfl) hpast] at h
      cases h
      exact .kept _
    · rw [hostCommand_readMemory (hidle rfl) hfits rfl] at h
      cases h
      exact .kept _

/-- Faulted is left by `reset` alone, and a command that is no write of the host changes nothing there (60_exceptions.md
R258). -/
theorem CommandOutcome.of_faulted {s t : State} {c : HostCommand} (h : CommandOutcome s c t)
    (hfaulted : s.runState = .faulted) :
    (hostWrites c = false → t = s) ∧ (c ≠ .reset → t.runState = .faulted ∧ t.faultCause = s.faultCause) := by
  cases h with
  | kept => exact ⟨fun _ => rfl, fun _ => ⟨hfaulted, rfl⟩⟩
  | reset => exact ⟨nofun, fun hne => absurd rfl hne⟩
  | started =>
    rw [start_of_ne_halted (hfaulted ▸ nofun)]
    exact ⟨fun _ => rfl, fun _ => ⟨hfaulted, rfl⟩⟩
  | ran bound =>
    rw [run_of_faulted hfaulted]
    exact ⟨fun _ => rfl, fun _ => ⟨hfaulted, rfl⟩⟩
  | wrote writes control =>
    exact ⟨fun hnot => absurd (writes.symm.trans hnot) nofun, fun _ => ⟨control.1.trans hfaulted, control.2⟩⟩

/-- Settles O56: Faulted by what a command can lead to, the moves by `hostCommand_eq_none_iff`. -/
theorem hostCommandLegality : Obligations.HostCommandLegality := by
  intro s c
  refine ⟨fun hfaulted hc r t h => ((commandOutcome_of_hostCommand h).of_faulted hfaulted).1 hc,
    fun hfaulted hc r t h => ((commandOutcome_of_hostCommand h).of_faulted hfaulted).2 hc,
    fun hrun => ⟨_, hostCommand_reset hrun, hostReset_sameSpecState s⟩, fun hrun => ?_, fun hrun hnone => ?_⟩
  · rw [hostCommand_eq_none_iff, movesWhileRunning_eq_false_iff, and_iff_right hrun]
  · exact hrun ((hostCommand_eq_none_iff c s).1 hnone).1

/-! ## The invariant (60_exceptions.md R256, R259, R260) -/

theorem inv_hostReset (s : State) : Inv (hostReset s) := inv_of_not_faulted reset_memory_wf rfl nofun

/-- Settles O2: the memory is empty and the state is Halted without a cause. -/
theorem invariantHoldsAtReset : Obligations.InvariantHoldsAtReset :=
  inv_of_not_faulted reset_memory_wf faultCause_reset nofun

/-- Outside Faulted there is no cause, so Running may be forced. -/
theorem Inv.withRunState_running {s : State} (h : Inv s) (hrun : s.runState ≠ .faulted) : Inv (s.withRunState .running) :=
  inv_of_not_faulted h.memory (h.faultCause_none hrun) nofun

theorem Inv.runSteps {s : State} (h : Inv s) (n : Nat) : Inv (runSteps n s) := by
  induction n generalizing s with
  | zero => exact h
  | succ n ih =>
    obtain hrun | hended := running_or_ended s
    · obtain ⟨t, hstep⟩ := runningStepHasANextState s hrun
      rw [runSteps_succ_of_step hstep]
      exact ih (everyStepKeepsTheInvariant s t h hstep)
    · rwa [runSteps_of_ended hended]

theorem Inv.run {s : State} (h : Inv s) (bound : Nat) : Inv (run bound s) := by
  by_cases hrun : s.runState = .faulted
  · rwa [run_of_faulted hrun]
  · rw [run_of_ne_faulted hrun]
    exact (h.withRunState_running hrun).runSteps bound

theorem Inv.start {s : State} (h : Inv s) : Inv (start s) := by
  by_cases hrun : s.runState = .halted
  · rw [start_of_halted hrun]
    exact h.withRunState_running (hrun ▸ nofun)
  · rwa [start_of_ne_halted hrun]

theorem Inv.of_sameControl {s t : State} (h : Inv s) (hcontrol : SameControl s t)
    (hwf : s.mem.wf = true → t.mem.wf = true) : Inv t where
  memory := hwf h.memory
  cause := by rw [hcontrol.1, hcontrol.2]; exact h.cause
  notHostOnly := hcontrol.2 ▸ h.notHostOnly

/-- Settles O57: by what a command can lead to; a run repeats steps, each of which keeps the invariant (O20). -/
theorem hostCommandsKeepTheInvariant : Obligations.HostCommandsKeepTheInvariant := by
  intro s t c r hinv h
  cases commandOutcome_of_hostCommand h with
  | kept => exact hinv
  | reset => exact inv_hostReset s
  | started => exact hinv.start
  | ran bound => exact hinv.run bound
  | wrote _ control wf => exact hinv.of_sameControl control wf

end Sys2Proof.Machine
end
